-- ==== Sys2Proof/Word.lean ====
section
/-! DEFINITION. The word types of SDFT-CORE: the 64-bit word of every register, memory and bus access, the binary64
pattern, the complex pair. -/

namespace Sys2Proof

/-- The 64-bit word of every register, memory word and bus access (10_state.md R45, 20_memory.md R106). -/
abbrev Word := BitVec 64

/-- `f64`: an IEEE 754 binary64 value, given by its 64-bit pattern (00_scope.md R18). -/
abbrev F64 := BitVec 64

/-- `c64`: a complex value, a pair of f64 values (00_scope.md R22). -/
structure C64 where
  re : F64
  im : F64
  deriving DecidableEq, Repr

end Sys2Proof
end

