-- ==== Sys2Proof/Syntax.lean ====
section
/-! DEFINITION. The commands of SDFT-CORE: one constructor per row of the opcode map (30_encoding.md R148). -/

namespace Sys2Proof

/-- A command with its operand fields (30_encoding.md R142-R145). A register field names one of Z0-Z7 (R146); the
selectors of BIN_RD and MA_RD are kept as the 3-bit field they are, so that a term with an unassigned selector exists
and `WellFormed` refuses it (R147). -/
inductive Instr where
  /-- NOP, 46_control.md R440. -/
  | nop
  /-- RESET, 46_control.md R441. -/
  | reset
  /-- CADD zD, zA, zB, 40_complex_unit.md R206. -/
  | cadd (zd za zb : Fin 8)
  /-- CSUB zD, zA, zB, 40_complex_unit.md R207. -/
  | csub (zd za zb : Fin 8)
  /-- CMUL zD, zA, zB, 40_complex_unit.md R208. -/
  | cmul (zd za zb : Fin 8)
  /-- CEXP zD, zA, 40_complex_unit.md R209. -/
  | cexp (zd za : Fin 8)
  /-- CMAG zD, zA, 40_complex_unit.md R210. -/
  | cmag (zd za : Fin 8)
  /-- RB_RD zD, OFF, 41_ring_buffer.md R247. -/
  | rbRd (zd : Fin 8) (off : BitVec 18)
  /-- BIN_RD zD, SEL, IDX, 42_frequency_bin.md R293. -/
  | binRd (zd : Fin 8) (sel : BitVec 3) (idx : BitVec 18)
  /-- MA_RD zD, SEL, CH, 44_moving_average.md R370. -/
  | maRd (zd : Fin 8) (sel : BitVec 3) (ch : BitVec 18)
  /-- TM_K2F zD, zA, 43_tuning_map.md R329. -/
  | tmK2f (zd za : Fin 8)
  /-- TM_BUILD, 43_tuning_map.md R327. -/
  | tmBuild
  /-- SS_INIT, 45_sliding_spectrum.md R400. -/
  | ssInit
  /-- PROCESS L, 45_sliding_spectrum.md R406. -/
  | process (len : BitVec 24)
  /-- SNAP, 45_sliding_spectrum.md R414. -/
  | snap
  deriving DecidableEq, Repr

/-- The pseudo-instruction `csq zD, zA`, which "expands to `cmul zD, zA, zA`" (30_encoding.md R154). -/
def Instr.csq (zd za : Fin 8) : Instr := .cmul zd za za

end Sys2Proof
end

