-- ==== Sys2Proof/WellFormed.lean ====
section
/-! DEFINITION. Which commands have an encoding. The register numbers and the immediates are in range by their types;
the selectors are checked here (30_encoding.md R147). -/

namespace Sys2Proof

/-- "BIN_RD: 0 = dft, … 5 = bands. Values 6 and 7 raise E_RESERVED" (30_encoding.md R147). -/
abbrev binSelAssigned (sel : BitVec 3) : Prop := sel.toNat ≤ 5

/-- "MA_RD: 0 = avg …, 1 = sum …. Values 2-7 raise E_RESERVED" (30_encoding.md R147). -/
abbrev maSelAssigned (sel : BitVec 3) : Prop := sel.toNat ≤ 1

/-- A command that some bus word encodes: its selector, if it has one, is assigned. -/
def Instr.wellFormed : Instr → Bool
  | .binRd _ sel _ => decide (binSelAssigned sel)
  | .maRd _ sel _ => decide (maSelAssigned sel)
  | .nop | .reset | .cadd .. | .csub .. | .cmul .. | .cexp .. | .cmag .. | .rbRd .. | .tmK2f ..
  | .tmBuild | .ssInit | .process .. | .snap => true

end Sys2Proof
end

