-- ==== Sys2Proof/Decode.lean ====
section
/-! DEFINITION. Decoding of the 64-bit CMD bus word (30_encoding.md R149), total and rejecting by name, and the
encoder written from the same formats (R141-R145). -/

namespace Sys2Proof

/-- The 15 rows of the opcode map, by mnemonic (30_encoding.md R148). -/
inductive Op where
  | nop | reset | cadd | csub | cmul | cexp | cmag | rbRd | binRd | maRd | tmK2f | tmBuild | ssInit | process | snap
  deriving DecidableEq, Repr

/-- One row of the opcode map: a word `w` matches when `w &&& mask = value` (30_encoding.md R148). -/
structure OpRow where
  op : Op
  opcode : BitVec 8
  mask : BitVec 32
  value : BitVec 32
  deriving DecidableEq, Repr

/-- The opcode map of 30_encoding.md R148. -/
def opcodeMap : List OpRow := [
  ⟨.nop,     0x00, 0xFFFFFFFF, 0x00000000⟩,
  ⟨.reset,   0x01, 0xFFFFFFFF, 0x00000001⟩,
  ⟨.cadd,    0x10, 0xFFFE00FF, 0x00000010⟩,
  ⟨.csub,    0x11, 0xFFFE00FF, 0x00000011⟩,
  ⟨.cmul,    0x12, 0xFFFE00FF, 0x00000012⟩,
  ⟨.cexp,    0x13, 0xFFFFC0FF, 0x00000013⟩,
  ⟨.cmag,    0x14, 0xFFFFC0FF, 0x00000014⟩,
  ⟨.rbRd,    0x20, 0x000038FF, 0x00000020⟩,
  ⟨.binRd,   0x21, 0x000000FF, 0x00000021⟩,
  ⟨.maRd,    0x22, 0x000000FF, 0x00000022⟩,
  ⟨.tmK2f,   0x30, 0xFFFFC0FF, 0x00000030⟩,
  ⟨.tmBuild, 0x31, 0xFFFFFFFF, 0x00000031⟩,
  ⟨.ssInit,  0x40, 0xFFFFFFFF, 0x00000040⟩,
  ⟨.process, 0x41, 0x000000FF, 0x00000041⟩,
  ⟨.snap,    0x42, 0xFFFFFFFF, 0x00000042⟩]

/-- How decoding refuses a word: E_ILLEGAL or E_RESERVED (30_encoding.md R149). -/
inductive DecodeError where
  | illegal
  | reserved
  deriving DecidableEq, Repr

/-- `opcode = w[7:0]` (30_encoding.md R142-R145). -/
def opcodeField (w : BitVec 32) : BitVec 8 := w.extractLsb' 0 8
/-- `ZD = w[10:8]` (30_encoding.md R142, R143). -/
def zdField (w : BitVec 32) : Fin 8 := (w.extractLsb' 8 3).toFin
/-- `ZA = w[13:11]` (30_encoding.md R142). -/
def zaField (w : BitVec 32) : Fin 8 := (w.extractLsb' 11 3).toFin
/-- `ZB = w[16:14]` (30_encoding.md R142). -/
def zbField (w : BitVec 32) : Fin 8 := (w.extractLsb' 14 3).toFin
/-- `SEL = w[13:11]` (30_encoding.md R143). -/
def selField (w : BitVec 32) : BitVec 3 := w.extractLsb' 11 3
/-- `IMM18 = w[31:14]` (30_encoding.md R143). -/
def imm18Field (w : BitVec 32) : BitVec 18 := w.extractLsb' 14 18
/-- `IMM24 = w[31:8]` (30_encoding.md R144). -/
def imm24Field (w : BitVec 32) : BitVec 24 := w.extractLsb' 8 24

/-- The command of a row, with its fields taken from the word (30_encoding.md R142-R145). -/
def instrOf (op : Op) (w : BitVec 32) : Instr :=
  match op with
  | .nop => .nop
  | .reset => .reset
  | .cadd => .cadd (zdField w) (zaField w) (zbField w)
  | .csub => .csub (zdField w) (zaField w) (zbField w)
  | .cmul => .cmul (zdField w) (zaField w) (zbField w)
  | .cexp => .cexp (zdField w) (zaField w)
  | .cmag => .cmag (zdField w) (zaField w)
  | .rbRd => .rbRd (zdField w) (imm18Field w)
  | .binRd => .binRd (zdField w) (selField w) (imm18Field w)
  | .maRd => .maRd (zdField w) (selField w) (imm18Field w)
  | .tmK2f => .tmK2f (zdField w) (zaField w)
  | .tmBuild => .tmBuild
  | .ssInit => .ssInit
  | .process => .process (imm24Field w)
  | .snap => .snap

/-- The row of an opcode, if it is assigned (30_encoding.md R148, R151). -/
def rowOf (opc : BitVec 8) : Option OpRow := opcodeMap.find? (fun r => r.opcode = opc)

/-- `decode(w64)` of 30_encoding.md R149: the checks in its order. -/
def decode (w64 : Word) : Except DecodeError Instr :=
  let w : BitVec 32 := w64.extractLsb' 0 32
  let opc := opcodeField w
  match rowOf opc with
  | none => .error .illegal
  | some row =>
    if w64.extractLsb' 32 32 ≠ 0 then .error .reserved
    else if w &&& row.mask ≠ row.value then .error .reserved
    else if opc = 0x21 ∧ ¬ binSelAssigned (selField w) then .error .reserved
    else if opc = 0x22 ∧ ¬ maSelAssigned (selField w) then .error .reserved
    else .ok (instrOf row.op w)

/-- The N format (30_encoding.md R145). -/
def formatN (opc : BitVec 8) : BitVec 32 := 0#24 ++ opc
/-- The R format (30_encoding.md R142); the one-source commands have ZB = 0. -/
def formatR (opc : BitVec 8) (zd za zb : Fin 8) : BitVec 32 :=
  0#15 ++ BitVec.ofFin (w := 3) zb ++ BitVec.ofFin (w := 3) za ++ BitVec.ofFin (w := 3) zd ++ opc
/-- The I format (30_encoding.md R143). -/
def formatI (opc : BitVec 8) (zd : Fin 8) (sel : BitVec 3) (imm : BitVec 18) : BitVec 32 :=
  imm ++ sel ++ BitVec.ofFin (w := 3) zd ++ opc
/-- The L format (30_encoding.md R144). -/
def formatL (opc : BitVec 8) (imm : BitVec 24) : BitVec 32 := imm ++ opc

/-- `enc(INSN)`: the 32-bit word of a command (30_encoding.md R148 with the formats R142-R145). -/
def encode32 : Instr → BitVec 32
  | .nop => formatN 0x00
  | .reset => formatN 0x01
  | .cadd zd za zb => formatR 0x10 zd za zb
  | .csub zd za zb => formatR 0x11 zd za zb
  | .cmul zd za zb => formatR 0x12 zd za zb
  | .cexp zd za => formatR 0x13 zd za 0
  | .cmag zd za => formatR 0x14 zd za 0
  | .rbRd zd off => formatI 0x20 zd 0 off
  | .binRd zd sel idx => formatI 0x21 zd sel idx
  | .maRd zd sel ch => formatI 0x22 zd sel ch
  | .tmK2f zd za => formatR 0x30 zd za 0
  | .tmBuild => formatN 0x31
  | .ssInit => formatN 0x40
  | .process len => formatL 0x41 len
  | .snap => formatN 0x42

/-- The bus word that issues a command: `zext_64(enc(INSN))` (30_encoding.md R140, R154). -/
def encode (i : Instr) : Word := 0#32 ++ encode32 i

/-- The bus word whose low `nbits` bits are those of `w`, every bit above them 0 (30_encoding.md R140: bits [63:32]
must be zero). -/
def tableBusWord (nbits w : Nat) : Word := BitVec.ofNat 64 (w % 2 ^ nbits)

/-- The command the decoder reads from the command word `w`, numbered as the opcode table numbers its bits. -/
def decodeTableWord (nbits w : Nat) : Option Instr := (decode (tableBusWord nbits w)).toOption

end Sys2Proof
end

