-- ==== Sys2Proof/Config.lean ====
section
/-! DEFINITION. What one implementation of SDFT-CORE fixes (the four capacity parameters) and what the spec leaves
free (the transcendental functions and the reads during BUSY): opaque constants, of which nothing can be proved but
what their types say. -/

namespace Sys2Proof

/-- The capacity parameters of one instance of the hardware (00_scope.md R10-R13). "The model takes it as an
argument": they stand in `State.params`, so a statement about every state is about every choice of them (log 1). -/
structure Params where
  /-- MAX_BINS, R10: the largest number of bins and of MA channels. -/
  maxBins : Nat
  /-- BATCH_MAX, R11: the largest batch, and the number of words of BATCH. -/
  batchMax : Nat
  /-- RB_LOG2_MAX, R12: log2 of the largest capacity of the sample ring. -/
  rbLog2Max : Nat
  /-- HMA_LOG2_MAX, R13: log2 of the largest capacity of a Heavy-MA ring. -/
  hmaLog2Max : Nat
  deriving DecidableEq, Repr

/-- The defaults of 00_scope.md R10-R13. -/
def Params.default : Params :=
  { maxBins := 128, batchMax := 4096, rbLog2Max := 17, hmaLog2Max := 16 }

/-- The allowed ranges of 00_scope.md R10-R13. -/
abbrev Params.legal (p : Params) : Prop :=
  (1 ≤ p.maxBins ∧ p.maxBins ≤ 16384) ∧ (1 ≤ p.batchMax ∧ p.batchMax ≤ 131072) ∧
  (1 ≤ p.rbLog2Max ∧ p.rbLog2Max ≤ 18) ∧ p.hmaLog2Max ≤ 32

namespace Config

/-- FN_EXP away from the arguments that 00_scope.md R27(a), (c) settle: free (R15, log 6). -/
opaque expRaw : F64 → F64

/-- FN_COS away from the arguments that 00_scope.md R27(a), (c) settle: free (R15, log 6). -/
opaque cosRaw : F64 → F64

/-- FN_SIN away from the arguments that 00_scope.md R27(a), (c) settle: free (R15, log 6). -/
opaque sinRaw : F64 → F64

/-- FN_EXP2 away from the arguments that 00_scope.md R27(b), (c) settle, as a monotone function from the rank of the
argument among the non-NaN values to the rank of the result: free but for R27(d) (R15, log 6). -/
opaque exp2Rank : ℕ →o ℕ

/-- Which zero FN_EXP2 gives where its result is a zero: free, since R27(d) cannot tell -0.0 from +0.0 (log 6). -/
opaque exp2NegZero : F64 → Bool

/-- The n-th value read from a location that may not be read during BUSY: "an unspecified 64-bit value, a free draw
that may differ between reads" (20_memory.md R111(e), log 5). -/
opaque freeDraw : Nat → Word

end Config
end Sys2Proof
end

