-- ==== Sys2Proof/Machine/State.lean ====
section
/-! DEFINITION. The state of SDFT-CORE as plain data: everything of 10_state.md R40, the parameters of the instance,
and the model's own three fields; and its value after reset (70_reset_and_hazards.md R502). -/

namespace Sys2Proof.Machine

/-- The error codes of 60_exceptions.md R461. "Codes 0x08-0x0F and 0x17-0xFF are never produced": there are no
others (log 9). -/
inductive ErrCode where
  | eNone | eIllegal | eReserved | eBusy | eNotInit | eRange | eMaZero | eNoSmooth
  | eCfgSr | eCfgKeys | eCfgBw | eCfgN | eCfgRange | eCfgCap | eCfgSmooth
  deriving DecidableEq, Repr

/-- MA_MODE: none, Fast or Heavy; "3 and above never occur" (10_state.md R61, log 9). -/
inductive MaMode where
  | off | fast | heavy
  deriving DecidableEq, Repr

/-- The stored bits of STATUS and ERRCODE (10_state.md R47). BUSY is not stored: it is 1 exactly when PEND holds a
command (R77). -/
structure Status where
  done : Bool
  err : Bool
  errovf : Bool
  buserr : Bool
  wclamp : Bool
  init : Bool
  errcode : ErrCode
  deriving DecidableEq, Repr

/-- CTRL (10_state.md R49). -/
structure Ctrl where
  ieDone : Bool
  ieErr : Bool
  deriving DecidableEq, Repr

/-- The configuration registers that only the host writes (10_state.md R52-R57). -/
structure Cfg where
  sampleRate : F64
  pitchFork : F64
  keyCount : Word
  refKey : Word
  smoothSeconds : F64
  winSeconds : F64
  deriving DecidableEq, Repr

/-- A memory: its words at their indices. An unlisted index reads as the memory's reset content; the one canonical
form is `Memory.wf` (log 10). -/
abbrev Memory (α : Type) := List (Nat × α)

/-- The shared sample ring RB (10_state.md R70): RB.mem, the counter wc = RB_WC and the capacity C = RB_CAP. -/
structure Ring where
  mem : Memory F64
  wc : Word
  cap : Word
  deriving DecidableEq, Repr

/-- One bin BIN[b] (10_state.md R71); `n` is the spec's N. -/
structure Bin where
  k : BitVec 32
  n : BitVec 32
  bands : F64
  coef : C64
  dft : C64
  tp : F64
  deriving DecidableEq, Repr

/-- The reset value of a bin (10_state.md R71). -/
def Bin.reset : Bin := { k := 0, n := 0, bands := 0, coef := ⟨0, 0⟩, dft := ⟨0, 0⟩, tp := 0 }

/-- The moving-average state MA (10_state.md R72): MA_MODE, MA_CUR, MA_TGT, MA_MAX (Wmax), HMA_CAP (CH), the sums, the
Heavy bank (slot s of H[ch] at index `hIndex ch s`) and its shared counter. -/
structure MovAvg where
  mode : MaMode
  cur : Word
  tgt : Word
  wmax : Word
  cap : Word
  sum : Memory F64
  h : Memory F64
  hwc : Word
  deriving DecidableEq, Repr

/-- One entry of the tuning table (10_state.md R73); its three reserved words hold nothing (20_memory.md R103). -/
structure TTEntry where
  key : Word
  freq : F64
  bw : F64
  kk : Word
  nn : Word
  deriving DecidableEq, Repr

/-- The reset value of a tuning-table entry (10_state.md R73). -/
def TTEntry.reset : TTEntry := { key := 0, freq := 0, bw := 0, kk := 0, nn := 0 }

/-- Whose turn it is: an ENGINE step, one host access with its byte enables, or a hardware reset
(00_scope.md R8, 20_memory.md R115, 70_reset_and_hazards.md R500, R501; log 2, log 17). -/
inductive Turn where
  | engine
  | busRead (addr : BitVec 32) (be : BitVec 8)
  | busWrite (addr : BitVec 32) (be : BitVec 8) (v : Word)
  | hwReset
  deriving DecidableEq, Repr

/-- The machine. -/
structure State where
  /-- The capacity parameters of this instance; no step changes them (00_scope.md R10-R13, log 1). -/
  params : Params
  /-- Z0-Z7 (10_state.md R42). -/
  z : Vector C64 8
  /-- STATUS but for BUSY (10_state.md R47). -/
  status : Status
  /-- ERRINFO (10_state.md R50). -/
  errinfo : Word
  /-- CTRL (10_state.md R49). -/
  ctrl : Ctrl
  /-- SAMPLE_RATE … WIN_SECONDS (10_state.md R52-R57). -/
  cfg : Cfg
  /-- PEND: the pending CMD bus word, or none (10_state.md R77). -/
  pend : Option Word
  /-- RB, with RB_WC and RB_CAP (10_state.md R58, R59, R70). -/
  rb : Ring
  /-- BIN (10_state.md R71). -/
  bins : Memory Bin
  /-- NBINS = K (10_state.md R66). -/
  nbins : Word
  /-- SS_SR (10_state.md R67). -/
  ssSr : F64
  /-- MA (10_state.md R72). -/
  ma : MovAvg
  /-- TT (10_state.md R73). -/
  tt : Memory TTEntry
  /-- TT_COUNT (10_state.md R60). -/
  ttCount : Word
  /-- BATCH (10_state.md R74). -/
  batch : Memory F64
  /-- OUT (10_state.md R75). -/
  out : Memory F64
  /-- SNAPBUF (10_state.md R76). -/
  snap : Memory F64
  /-- The model's own: the agent turns still to come; with none left, every step is the ENGINE's (log 2). -/
  turns : List Turn
  /-- The model's own: what the last bus read answered (bus_rdata, 20_memory.md R100; log 7). -/
  busRdata : Word
  /-- The model's own: how many free draws were made (20_memory.md R111(e); log 5). -/
  freeCount : Nat
  deriving DecidableEq, Repr

/-- No fault stops this machine: the spec turns every failure into an error that STATUS records
(60_exceptions.md R460-R470), so the type is empty. -/
inductive Fault where
  deriving DecidableEq, Repr

/-- Why a step has no meaning. -/
inductive Refusal where
  /-- Raised by `exec` alone, in the arm of a command that has no meaning yet; no arm does. Safe: it only stops. -/
  | notModelled (mnemonic : String)
  deriving DecidableEq, Repr

/-- The machine right after a hardware reset: 70_reset_and_hazards.md R502, with the default parameters (log 1) and
the model's own fields empty (log 2, log 5, log 7). -/
def State.reset : State where
  params := Params.default
  z := Vector.replicate 8 ⟨0, 0⟩
  status := { done := false, err := false, errovf := false, buserr := false, wclamp := false, init := false,
              errcode := .eNone }
  errinfo := 0
  ctrl := { ieDone := false, ieErr := false }
  cfg := { sampleRate := 0, pitchFork := 0x407B800000000000#64, keyCount := 88, refKey := 48, smoothSeconds := 0,
           winSeconds := 0 }
  pend := none
  rb := { mem := [], wc := 0, cap := 0 }
  bins := []
  nbins := 0
  ssSr := 0
  ma := { mode := .off, cur := 0, tgt := 0, wmax := 0, cap := 0, sum := [], h := [], hwc := 0 }
  tt := []
  ttCount := 0
  batch := []
  out := []
  snap := []
  turns := []
  busRdata := 0
  freeCount := 0

end Sys2Proof.Machine
end

