-- ==== Sys2Proof/Machine/Flags.lean ====
section
/-! DEFINITION. The flags of SDFT-CORE. It has no condition codes and no arithmetic flags (10_state.md R44); its flags
are the STATUS bits (R47), CTRL (R49) and the interrupt they drive (60_exceptions.md R471). -/

namespace Sys2Proof.Machine

/-- The 8-bit value of an error code (60_exceptions.md R461). -/
def errByte : ErrCode → BitVec 8
  | .eNone => 0x00
  | .eIllegal => 0x01
  | .eReserved => 0x02
  | .eBusy => 0x03
  | .eNotInit => 0x04
  | .eRange => 0x05
  | .eMaZero => 0x06
  | .eNoSmooth => 0x07
  | .eCfgSr => 0x10
  | .eCfgKeys => 0x11
  | .eCfgBw => 0x12
  | .eCfgN => 0x13
  | .eCfgRange => 0x14
  | .eCfgCap => 0x15
  | .eCfgSmooth => 0x16

/-- STATUS.BUSY: 1 exactly when PEND ≠ none (10_state.md R77). -/
def busy (s : State) : Bool := s.pend.isSome

/-- The 64-bit value of STATUS (10_state.md R47): BUSY, DONE, ERR, ERROVF, BUSERR, WCLAMP, INIT, a reserved 0,
ERRCODE, reserved zeros, from bit 0 up. -/
def statusWord (s : State) : Word :=
  0#48 ++ errByte s.status.errcode ++ 0#1 ++ BitVec.ofBool s.status.init ++ BitVec.ofBool s.status.wclamp
    ++ BitVec.ofBool s.status.buserr ++ BitVec.ofBool s.status.errovf ++ BitVec.ofBool s.status.err
    ++ BitVec.ofBool s.status.done ++ BitVec.ofBool (busy s)

/-- The 64-bit value of CTRL: IE_DONE in bit 0, IE_ERR in bit 1, the rest reserved (10_state.md R49). -/
def ctrlWord (c : Ctrl) : Word := 0#62 ++ BitVec.ofBool c.ieErr ++ BitVec.ofBool c.ieDone

/-- A host write of v to CTRL: the reserved bits are ignored (10_state.md R49). -/
def ctrlOf (v : Word) : Ctrl := { ieDone := v.getLsbD 0, ieErr := v.getLsbD 1 }

/-- The 64-bit value of MA_MODE (10_state.md R61). -/
def maModeWord : MaMode → Word
  | .off => 0
  | .fast => 1
  | .heavy => 2

/-- The irq output, a pure function of the state (60_exceptions.md R471). -/
def irq (s : State) : Bool :=
  (s.ctrl.ieDone && s.status.done) || (s.ctrl.ieErr && (s.status.err || s.status.buserr))

end Sys2Proof.Machine
end

