-- ==== Sys2Proof/Machine/Ops.lean ====
section
/-! DEFINITION. The named operations over memories, registers and the error record, the reset, and the two ends of a
command error: recording it (60_exceptions.md R463, R465) and clearing it (R468). -/

namespace Sys2Proof.Machine

/-! ### Memories: sparse, canonical (log 10) -/

/-- The word at index i; an unlisted word reads d, the memory's reset content. -/
def Memory.read {α : Type} (d : α) : Memory α → Nat → α
  | [], _ => d
  | (k, x) :: m, i => if k = i then x else Memory.read d m i

/-- The memory without a listed word at index i. -/
def Memory.erase {α : Type} (m : Memory α) (i : Nat) : Memory α := m.filter (fun c => decide (c.1 ≠ i))

/-- The memory with v listed at index i, before the first higher index. -/
def Memory.insert {α : Type} : Memory α → Nat → α → Memory α
  | [], i, v => [(i, v)]
  | (k, x) :: m, i, v => if i < k then (i, v) :: (k, x) :: m else (k, x) :: Memory.insert m i v

/-- The memory after v is stored at index i: a word equal to the reset content is not listed. -/
def Memory.write {α : Type} [DecidableEq α] (d : α) (m : Memory α) (i : Nat) (v : α) : Memory α :=
  if v = d then Memory.erase m i else Memory.insert (Memory.erase m i) i v

/-- The memory with every word whose index meets p put back to its reset content. -/
def Memory.clear {α : Type} (m : Memory α) (p : Nat → Bool) : Memory α := m.filter (fun c => !p c.1)

/-- The canonical form: indices strictly rising, no listed word equal to the reset content. -/
def Memory.wf {α : Type} [DecidableEq α] (d : α) : Memory α → Bool
  | [] => true
  | (k, x) :: m => decide (x ≠ d) && m.all (fun c => decide (k < c.1)) && Memory.wf d m

/-- Every listed index is below n: the words from n up hold their reset content. -/
def Memory.below {α : Type} (m : Memory α) (n : Nat) : Bool := m.all (fun c => decide (c.1 < n))

/-- The index of slot s of the channel ring H[ch] in the Heavy bank. A slot is below 2^64, so no two share an index. -/
def hIndex (ch slot : Nat) : Nat := ch * 2 ^ 64 + slot

/-! ### The Z registers (10_state.md R42) -/

/-- `Z[r]`. -/
def readZ (s : State) (r : Fin 8) : C64 := s.z.get r

/-- `Z[r] <- v`. -/
def writeZ (s : State) (r : Fin 8) (v : C64) : State := { s with z := s.z.set r.val v r.isLt }

/-! ### Taking a command error, and clearing it -/

/-- Recording an error: the first is kept in ERRCODE and ERRINFO, a later one sets only ERROVF
(60_exceptions.md R463, R465, R469). -/
def recordError (code : ErrCode) (info : Word) (s : State) : State :=
  if s.status.err then { s with status := { s.status with errovf := true } }
  else { s with status := { s.status with err := true, errcode := code }, errinfo := info }

/-- `complete(code, info)`, the end of every ENGINE step (60_exceptions.md R463). -/
def complete (code : ErrCode) (info : Word) (s : State) : State :=
  let s1 := if code = .eNone then s else recordError code info s
  { s1 with pend := none, status := { s1.status with done := true } }

/-- A command that ends without a raise. -/
def finish (s : State) : Host.Outcome State Fault Refusal := .next (complete .eNone 0 s)

/-- `raise E_NAME(info)`: the command ends with that error (00_scope.md R23, 60_exceptions.md R463). -/
def raise (code : ErrCode) (info : Word) (s : State) : Host.Outcome State Fault Refusal :=
  .next (complete code info s)

/-- A host write of v to STATUS: write one to clear, and with ERR its code and detail (10_state.md R48,
60_exceptions.md R468: the only "return" from an error). -/
def writeStatus (v : Word) (s : State) : State :=
  { s with
    status := { s.status with
      done := s.status.done && !v.getLsbD 1
      err := s.status.err && !v.getLsbD 2
      errovf := s.status.errovf && !v.getLsbD 3
      buserr := s.status.buserr && !v.getLsbD 4
      wclamp := s.status.wclamp && !v.getLsbD 5
      errcode := if v.getLsbD 2 then .eNone else s.status.errcode }
    errinfo := if v.getLsbD 2 then 0 else s.errinfo }

/-- STATUS.BUSERR <- 1, all that an illegal access does to the state (60_exceptions.md R470). -/
def setBusErr (s : State) : State := { s with status := { s.status with buserr := true } }

/-! ### Reset -/

/-- The reset of 70_reset_and_hazards.md R501, by either source: every element of R40 takes its value of R502; the
parameters and the model's own fields stay (log 13). -/
def applyReset (s : State) : State :=
  { State.reset with params := s.params, turns := s.turns, busRdata := s.busRdata, freeCount := s.freeCount }

end Sys2Proof.Machine
end

