-- ==== Sys2Proof/Machine/Bus.lean ====
section
/-! DEFINITION. The host interface (20_memory.md): the address map, the two bus accesses, the rules while BUSY, and the
host-level pseudo-instructions of 30_encoding.md R154. -/

namespace Sys2Proof.Machine

/-- The registers of the CSR block (10_state.md R45). -/
inductive Csr where
  | id | cmd | status | ctrl | errinfo | sampleRate | pitchFork | keyCount | refKey | smoothSeconds | winSeconds
  | ttCount | rbCap | rbWc | maMode | maCur | maTgt | maMax | hmaCap | nbins | ssSr | params
  deriving DecidableEq, Repr

/-- The register at a byte offset of the CSR block (10_state.md R45, R69). -/
def csrAt (off : Nat) : Option Csr :=
  match off with
  | 0x000 => some .id
  | 0x008 => some .cmd
  | 0x010 => some .status
  | 0x018 => some .ctrl
  | 0x020 => some .errinfo
  | 0x028 => some .sampleRate
  | 0x030 => some .pitchFork
  | 0x038 => some .keyCount
  | 0x040 => some .refKey
  | 0x048 => some .smoothSeconds
  | 0x050 => some .winSeconds
  | 0x058 => some .ttCount
  | 0x060 => some .rbCap
  | 0x068 => some .rbWc
  | 0x070 => some .maMode
  | 0x078 => some .maCur
  | 0x080 => some .maTgt
  | 0x088 => some .maMax
  | 0x090 => some .hmaCap
  | 0x098 => some .nbins
  | 0x0A0 => some .ssSr
  | 0x0A8 => some .params
  | _ => none

/-- A 64-bit word of a tuning-table entry (20_memory.md R103). -/
inductive TTField where
  | key | freq | bw | kk | nn | reserved
  deriving DecidableEq, Repr

/-- The word of a tuning-table entry at a byte offset below 64 (20_memory.md R103). -/
def ttFieldAt (off : Nat) : TTField :=
  match off with
  | 0 => .key
  | 8 => .freq
  | 16 => .bw
  | 24 => .kk
  | 32 => .nn
  | _ => .reserved

/-- A mapped 64-bit location of the bus space (20_memory.md R101). -/
inductive Loc where
  | csr (c : Csr)
  | zRe (i : Fin 8)
  | zIm (i : Fin 8)
  | tt (b : Nat) (f : TTField)
  | batch (i : Nat)
  | out (b : Nat)
  | snap (b : Nat)
  deriving DecidableEq, Repr

/-- The location in the CSR block at an offset below 0x1000: CSRs and Z registers (20_memory.md R101, R102). -/
def csrBlock (off : Nat) : Option Loc :=
  if 0x100 ≤ off ∧ off < 0x180 then
    let i : Fin 8 := Fin.ofNat 8 ((off - 0x100) / 16)
    some (if off % 16 = 0 then .zRe i else .zIm i)
  else (csrAt off).map .csr

/-- The location at an 8-byte aligned address; none where the address is unmapped (20_memory.md R101, R109). -/
def locate (p : Params) (a : Nat) : Option Loc :=
  if a < 0x1000 then csrBlock a
  else if 0x100000 ≤ a ∧ a < 0x100000 + 64 * p.maxBins then
    some (.tt ((a - 0x100000) / 64) (ttFieldAt ((a - 0x100000) % 64)))
  else if 0x200000 ≤ a ∧ a < 0x200000 + 8 * p.batchMax then some (.batch ((a - 0x200000) / 8))
  else if 0x300000 ≤ a ∧ a < 0x300000 + 8 * p.maxBins then some (.out ((a - 0x300000) / 8))
  else if 0x400000 ≤ a ∧ a < 0x400000 + 8 * p.maxBins then some (.snap ((a - 0x400000) / 8))
  else none

/-- The location an access reaches: none where the access is illegal by its byte enables, its alignment or its
address (20_memory.md R104-R109). -/
def target (p : Params) (addr : BitVec 32) (be : BitVec 8) : Option Loc :=
  if be ≠ 0xFF ∨ addr.toNat % 8 ≠ 0 then none else locate p addr.toNat

/-- ID (10_state.md R46). -/
def idWord : Word := 0x0000000153444654#64

/-- PARAMS (10_state.md R68). -/
def paramsWord (p : Params) : Word :=
  0#8 ++ BitVec.ofNat 24 p.batchMax ++ BitVec.ofNat 8 p.hmaLog2Max ++ BitVec.ofNat 8 p.rbLog2Max
    ++ BitVec.ofNat 16 p.maxBins

/-- The value of a register of the CSR block; 0 for the write-only CMD (10_state.md R45, 20_memory.md R104). -/
def readCsr (c : Csr) (s : State) : Word :=
  match c with
  | .id => idWord
  | .cmd => 0
  | .status => statusWord s
  | .ctrl => ctrlWord s.ctrl
  | .errinfo => s.errinfo
  | .sampleRate => s.cfg.sampleRate
  | .pitchFork => s.cfg.pitchFork
  | .keyCount => s.cfg.keyCount
  | .refKey => s.cfg.refKey
  | .smoothSeconds => s.cfg.smoothSeconds
  | .winSeconds => s.cfg.winSeconds
  | .ttCount => s.ttCount
  | .rbCap => s.rb.cap
  | .rbWc => s.rb.wc
  | .maMode => maModeWord s.ma.mode
  | .maCur => s.ma.cur
  | .maTgt => s.ma.tgt
  | .maMax => s.ma.wmax
  | .hmaCap => s.ma.cap
  | .nbins => s.nbins
  | .ssSr => s.ssSr
  | .params => paramsWord s.params

/-- A word of a tuning-table entry; 0 for a reserved word (20_memory.md R103). -/
def ttWord (f : TTField) (e : TTEntry) : Word :=
  match f with
  | .key => e.key
  | .freq => e.freq
  | .bw => e.bw
  | .kk => e.kk
  | .nn => e.nn
  | .reserved => 0

/-- A tuning-table entry after a word of it is written; a reserved word ignores the write (20_memory.md R103). -/
def setTTWord (f : TTField) (v : Word) (e : TTEntry) : TTEntry :=
  match f with
  | .key => { e with key := v }
  | .freq => { e with freq := v }
  | .bw => { e with bw := v }
  | .kk => { e with kk := v }
  | .nn => { e with nn := v }
  | .reserved => e

/-- What a legal read of a location returns while BUSY = 0 (20_memory.md R104). -/
def readLoc (l : Loc) (s : State) : Word :=
  match l with
  | .csr c => readCsr c s
  | .zRe i => (readZ s i).re
  | .zIm i => (readZ s i).im
  | .tt b f => ttWord f (Memory.read TTEntry.reset s.tt b)
  | .batch i => Memory.read 0 s.batch i
  | .out b => Memory.read 0 s.out b
  | .snap b => Memory.read 0 s.snap b

/-- ID, PARAMS, STATUS and CTRL: the locations that read reliably while BUSY = 1 (20_memory.md R111(d), log 16). -/
def readableWhileBusy (l : Loc) : Bool :=
  decide (l = .csr .id ∨ l = .csr .params ∨ l = .csr .status ∨ l = .csr .ctrl)

/-- `BusRead(addr)`: the value and the state after it (20_memory.md R104, R106, R107, R109, R111). An illegal access
is illegal while BUSY too (log 8). -/
def busRead (addr : BitVec 32) (be : BitVec 8) (s : State) : Word × State :=
  match target s.params addr be with
  | none => (0, setBusErr s)
  | some l =>
    if busy s && !readableWhileBusy l then (Config.freeDraw s.freeCount, { s with freeCount := s.freeCount + 1 })
    else (readLoc l s, s)

/-- A legal write of v to a CSR while BUSY = 0; an RO register other than STATUS refuses it with BUSERR
(10_state.md R45, R48, R51, 20_memory.md R105, R110). -/
def writeCsr (c : Csr) (v : Word) (s : State) : State :=
  match c with
  | .cmd => { s with pend := some v }
  | .status => writeStatus v s
  | .ctrl => { s with ctrl := ctrlOf v }
  | .sampleRate => { s with cfg := { s.cfg with sampleRate := v } }
  | .pitchFork => { s with cfg := { s.cfg with pitchFork := v } }
  | .keyCount => { s with cfg := { s.cfg with keyCount := v } }
  | .refKey => { s with cfg := { s.cfg with refKey := v } }
  | .smoothSeconds => { s with cfg := { s.cfg with smoothSeconds := v } }
  | .winSeconds => { s with cfg := { s.cfg with winSeconds := v } }
  | .ttCount => { s with ttCount := v }
  | .id | .errinfo | .rbCap | .rbWc | .maMode | .maCur | .maTgt | .maMax | .hmaCap | .nbins | .ssSr | .params =>
    setBusErr s

/-- A write of v to a mapped location while BUSY = 0; a reserved word of TT ignores it (20_memory.md R103, R105, R110). -/
def writeLoc (l : Loc) (v : Word) (s : State) : State :=
  match l with
  | .csr c => writeCsr c v s
  | .zRe i => writeZ s i { readZ s i with re := v }
  | .zIm i => writeZ s i { readZ s i with im := v }
  | .tt _ .reserved => s
  | .tt b f =>
    { s with tt := Memory.write TTEntry.reset s.tt b (setTTWord f v (Memory.read TTEntry.reset s.tt b)) }
  | .batch i => { s with batch := Memory.write 0 s.batch i v }
  | .out _ | .snap _ => setBusErr s

/-- A write of v to a mapped location while BUSY = 1: CMD records E_BUSY, STATUS is written, any other write is
dropped with BUSERR (20_memory.md R111(a)-(c), 60_exceptions.md R465). -/
def writeWhileBusy (l : Loc) (v : Word) (s : State) : State :=
  match l with
  | .csr .cmd => recordError .eBusy v s
  | .csr .status => writeStatus v s
  | _ => setBusErr s

/-- `BusWrite(addr, v)` (20_memory.md R105-R111). -/
def busWrite (addr : BitVec 32) (be : BitVec 8) (v : Word) (s : State) : State :=
  match target s.params addr be with
  | none => setBusErr s
  | some l => if busy s then writeWhileBusy l v s else writeLoc l v s

/-! ### Host-level forms (30_encoding.md R154) -/

/-- `wr ADDR, VALUE`. -/
def hostWr (addr : BitVec 32) (v : Word) : List Turn := [.busWrite addr 0xFF v]

/-- `rd ADDR`. -/
def hostRd (addr : BitVec 32) : List Turn := [.busRead addr 0xFF]

/-- `cmd INSN`: a write of `zext_64(enc(INSN))` to CMD. -/
def hostCmd (i : Instr) : List Turn := hostWr 0x8 (encode i)

/-- `wait`: the ENGINE performs the pending command, and the poll of STATUS that ends the loop reads BUSY = 0
(log 11). -/
def hostWait : List Turn := .engine :: hostRd 0x10

/-- `run INSN`: `cmd INSN` followed by `wait`. -/
def hostRun (i : Instr) : List Turn := hostCmd i ++ hostWait

/-- `ldz zI, RE, IM`. -/
def hostLdz (i : Fin 8) (re im : F64) : List Turn :=
  hostWr (BitVec.ofNat 32 (0x100 + 16 * i.val)) re ++ hostWr (BitVec.ofNat 32 (0x108 + 16 * i.val)) im

end Sys2Proof.Machine
end

