-- ==== Sys2Proof/Machine/Float.lean ====
section
/-! DEFINITION. Binary64 arithmetic: the operations of 00_scope.md R19-R21, each computed exactly in integers and then
rounded once, to nearest with ties to even. What "the IEEE 754 operations" are beyond the rounding (the signs of zero
results, the results at the infinities) is log 12. -/

namespace Sys2Proof.Machine

/-- The magnitude pattern of infinity; the patterns above it are NaNs. -/
def infMag : Nat := 0x7FF0000000000000

/-- `qNaN`, the canonical NaN (00_scope.md R20). -/
def qNaN : F64 := 0x7FF8000000000000#64
/-- `+inf`. -/
def posInf : F64 := 0x7FF0000000000000#64
/-- `+0.0` (00_scope.md R18). -/
def fzero : F64 := 0#64
/-- `-inf`. -/
def negInf : F64 := 0xFFF0000000000000#64
/-- `-0.0` (00_scope.md R18). -/
def fNegZero : F64 := 0x8000000000000000#64
/-- 1.0. -/
def fone : F64 := 0x3FF0000000000000#64
/-- `PI64` (00_scope.md R25). -/
def pi64 : F64 := 0x400921FB54442D18#64
/-- `TWO_PI64` (00_scope.md R25). -/
def twoPi64 : F64 := 0x401921FB54442D18#64
/-- `HALF` (00_scope.md R25). -/
def fhalf : F64 := 0x3FE0000000000000#64
/-- `TWO` (00_scope.md R25). -/
def ftwo : F64 := 0x4000000000000000#64
/-- `TWELVE` (00_scope.md R25). -/
def ftwelve : F64 := 0x4028000000000000#64
/-- 2^32 as an f64, the bound of 43_tuning_map.md R327. -/
def ftwo32 : F64 := 0x41F0000000000000#64

/-- The sign bit, bit 63 (20_memory.md R108). -/
def fSign (x : F64) : Bool := decide (2 ^ 63 ≤ x.toNat)
/-- The 63 bits below the sign: the magnitudes are in the order of these patterns. Irreducible, so that no unification
computes with a pattern it does not know; a proof unfolds it by name. -/
@[irreducible] def fMag (x : F64) : Nat := x.toNat % 2 ^ 63
/-- The value with a sign and a magnitude pattern. -/
def fOfMag (neg : Bool) (mag : Nat) : F64 := BitVec.ofNat 64 ((if neg then 2 ^ 63 else 0) + mag)

/-- x is a NaN of any sign and payload. -/
def isNaN (x : F64) : Bool := decide (infMag < fMag x)
/-- x is an infinity. -/
def isInf (x : F64) : Bool := decide (fMag x = infMag)
/-- x is +0.0 or -0.0. -/
def isZero (x : F64) : Bool := decide (fMag x = 0)
/-- x is neither NaN nor an infinity. -/
def isFinite (x : F64) : Bool := decide (fMag x < infMag)

/-- The exponent of a magnitude pattern over the least one: the value is `sig * 2 ^ (exp - 1074)`. -/
def magExp (mag : Nat) : Nat := mag / 2 ^ 52 - 1
/-- The significand of a magnitude pattern, hidden bit included. -/
def magSig (mag : Nat) : Nat := if mag < 2 ^ 52 then mag else 2 ^ 52 + mag % 2 ^ 52
/-- The exact value of a finite magnitude pattern, in units of 2^-1074 (subnormals kept, 00_scope.md R20). -/
def magUnits (mag : Nat) : Nat := magSig mag * 2 ^ magExp mag
/-- The exact value of a finite f64, in units of 2^-1074. -/
def fUnits (x : F64) : Int := if fSign x then -(magUnits (fMag x) : Int) else magUnits (fMag x)

/-- `num / den` rounded to the nearest integer, ties to even. -/
def roundNearestEven (num den : Nat) : Nat :=
  let q := num / den
  let r := num % den
  if den < 2 * r ∨ (2 * r = den ∧ q % 2 = 1) then q + 1 else q

/-- The magnitude pattern nearest to `num / den` units of 2^-1074, ties to even, overflow to infinity
(00_scope.md R19). A result of at most 53 bits keeps its units; a longer one is cut to 53 bits. -/
def roundMag (num den : Nat) : Nat :=
  let q := num / den
  let sh := if q < 2 ^ 53 then 0 else Nat.log2 q - 52
  min (sh * 2 ^ 52 + roundNearestEven num (den * 2 ^ sh)) infMag

/-- The f64 nearest to a sign and `num / den` units. -/
def roundTo (neg : Bool) (num den : Nat) : F64 := fOfMag neg (roundMag num den)

/-- The value with the sign bit inverted. -/
def fneg (x : F64) : F64 := fOfMag (!fSign x) (fMag x)

/-- `fadd(a, b)` (00_scope.md R19, R20). -/
def fadd (a b : F64) : F64 :=
  if isNaN a || isNaN b then qNaN
  else if isInf a then (if isInf b && fSign a != fSign b then qNaN else a)
  else if isInf b then b
  else
    let v := fUnits a + fUnits b
    if v = 0 then fOfMag (fSign a && fSign b) 0
    else roundTo (decide (v < 0)) v.natAbs 1

/-- `fsub(a, b)` (00_scope.md R19, R20). -/
def fsub (a b : F64) : F64 := fadd a (fneg b)

/-- `fmul(a, b)` (00_scope.md R19, R20). -/
def fmul (a b : F64) : F64 :=
  let neg := fSign a != fSign b
  if isNaN a || isNaN b then qNaN
  else if isInf a || isInf b then (if isZero a || isZero b then qNaN else fOfMag neg infMag)
  else roundTo neg (magUnits (fMag a) * magUnits (fMag b)) (2 ^ 1074)

/-- `fdiv(a, b)` (00_scope.md R19, R20). -/
def fdiv (a b : F64) : F64 :=
  let neg := fSign a != fSign b
  if isNaN a || isNaN b then qNaN
  else if isInf a then (if isInf b then qNaN else fOfMag neg infMag)
  else if isInf b then fOfMag neg 0
  else if isZero b then (if isZero a then qNaN else fOfMag neg infMag)
  else roundTo neg (magUnits (fMag a) * 2 ^ 1074) (magUnits (fMag b))

/-- The root's binary digits from the k-th down, added to those of `r` found above it. -/
def isqrtDigits (n : Nat) : (k r : Nat) → Nat
  | 0, r => r
  | k + 1, r => isqrtDigits n k (if (r + 2 ^ k) * (r + 2 ^ k) ≤ n then r + 2 ^ k else r)

/-- The integer square root, rounded down. -/
def isqrt (n : Nat) : Nat := isqrtDigits n (Nat.log2 n / 2 + 1) 0

/-- `fsqrt(a)` (00_scope.md R19, R20). The square of the result is `sig * 2 ^ p` square units; the root is taken of
the significand with at least 110 more bits, and an inexact root is moved half a unit up, which is beyond every bit
that the rounding keeps and so decides it rightly. -/
def fsqrt (a : F64) : F64 :=
  if isNaN a then qNaN
  else if isZero a then a
  else if fSign a then qNaN
  else if isInf a then a
  else
    let p := magExp (fMag a) + 1074
    let n := magSig (fMag a) * 2 ^ (p % 2 + 110)
    let r := isqrt n
    roundTo false ((2 * r + (if r * r = n then 0 else 1)) * 2 ^ (p / 2 - 55)) 2

/-- `fabs(a)` (00_scope.md R19; of a NaN, the canonical NaN, R20). -/
def fabs (a : F64) : F64 := if isNaN a then qNaN else fOfMag false (fMag a)

/-- The rank of a non-NaN value: equal for the two zeros, rising with the value. -/
def fRank (x : F64) : Nat := if fSign x then 2 ^ 63 - fMag x else 2 ^ 63 + fMag x

/-- `flt(a, b)` (00_scope.md R19). -/
def flt (a b : F64) : Bool := !isNaN a && !isNaN b && decide (fRank a < fRank b)
/-- `fle(a, b)` (00_scope.md R19). -/
def fle (a b : F64) : Bool := !isNaN a && !isNaN b && decide (fRank a ≤ fRank b)
/-- `feq(a, b)` (00_scope.md R19). -/
def feq (a b : F64) : Bool := !isNaN a && !isNaN b && decide (fRank a = fRank b)

/-- `u2f(n)` (00_scope.md R21). -/
def u2f (n : Nat) : F64 := roundTo false (n * 2 ^ 1074) 1
/-- `i2f(n)` of a signed 64-bit integer (00_scope.md R21). -/
def i2f (w : Word) : F64 := roundTo (decide (w.toInt < 0)) (w.toInt.natAbs * 2 ^ 1074) 1

/-- `floor_exact(x)` of a finite x (00_scope.md R21). -/
def floorExact (x : F64) : Int := fUnits x / 2 ^ 1074
/-- `round_half_up(x)` of a finite x: ⌊x + 1/2⌋, exactly (00_scope.md R21). -/
def roundHalfUp (x : F64) : Int := (2 * fUnits x + 2 ^ 1074) / 2 ^ 1075

end Sys2Proof.Machine
end

