-- ==== Sys2Proof/Machine/Functions.lean ====
section
/-! DEFINITION. The four transcendental functions: total functions of which exactly the properties of 00_scope.md R27
hold; what they are elsewhere is free (R15, log 6). -/

namespace Sys2Proof.Machine

/-- FN_EXP (00_scope.md R15, R27(a), (c)). -/
def fnExp (x : F64) : F64 := if isNaN x then qNaN else if isZero x then fone else Config.expRaw x

/-- FN_COS (00_scope.md R15, R27(a), (c)). -/
def fnCos (x : F64) : F64 := if isNaN x then qNaN else if isZero x then fone else Config.cosRaw x

/-- FN_SIN (00_scope.md R15, R27(a), (c)). -/
def fnSin (x : F64) : F64 := if isNaN x then qNaN else if isZero x then x else Config.sinRaw x

/-- The value of a rank, with the given sign if it is a zero; a rank beyond an infinity's is that infinity's. -/
def fOfRank (negZero : Bool) (k : Nat) : F64 :=
  if k = 2 ^ 63 then fOfMag negZero 0
  else if 2 ^ 63 < k then fOfMag false (min (k - 2 ^ 63) infMag)
  else fOfMag true (min (2 ^ 63 - k) infMag)

/-- FN_EXP2 (00_scope.md R15, R27(b), (c), (d)): through the ranks, so that it is monotone; at least 1.0 above zero
and at most 1.0 below, because it is 1.0 at zero. -/
def fnExp2 (x : F64) : F64 :=
  if isNaN x then qNaN
  else if isZero x then fone
  else if fSign x then fOfRank (Config.exp2NegZero x) (min (Config.exp2Rank (fRank x)) (fRank fone))
  else fOfRank (Config.exp2NegZero x) (max (Config.exp2Rank (fRank x)) (fRank fone))

end Sys2Proof.Machine
end

