-- ==== Sys2Proof/Machine/Operands.lean ====
section
/-! DEFINITION. Operand assembly (30_encoding.md R146, R147): a register field names a Z register, an immediate is
zero-extended, a selector names what is read. No command has a real-valued immediate. -/

namespace Sys2Proof.Machine

/-- `zext_64(IMM18)` (30_encoding.md R146). -/
def imm18 (v : BitVec 18) : Word := v.setWidth 64

/-- `zext_64(IMM24)` (30_encoding.md R146). -/
def imm24 (v : BitVec 24) : Word := v.setWidth 64

/-- What BIN_RD reads (30_encoding.md R147). -/
inductive BinSel where
  | dft | pow | lvl | coef | kn | bands
  deriving DecidableEq, Repr

/-- The SEL field of BIN_RD; 6 and 7 are unassigned (30_encoding.md R147). -/
def binSelOf (sel : BitVec 3) : Option BinSel :=
  match sel.toNat with
  | 0 => some .dft
  | 1 => some .pow
  | 2 => some .lvl
  | 3 => some .coef
  | 4 => some .kn
  | 5 => some .bands
  | _ => none

/-- What MA_RD reads (30_encoding.md R147). -/
inductive MaSel where
  | avg | sum
  deriving DecidableEq, Repr

/-- The SEL field of MA_RD; 2 to 7 are unassigned (30_encoding.md R147). -/
def maSelOf (sel : BitVec 3) : Option MaSel :=
  match sel.toNat with
  | 0 => some .avg
  | 1 => some .sum
  | _ => none

/-- A real result as a register value, `(r, +0.0)` (00_scope.md R22). -/
def realC (r : F64) : C64 := ⟨r, 0⟩

/-- The error of a command with an unassigned selector: E_RESERVED with the pending bus word (30_encoding.md R147,
R149). Decoding refuses such a word first, so no step comes here (log 14). -/
def raiseReserved (s : State) : Host.Outcome State Fault Refusal := raise .eReserved (s.pend.getD 0) s

end Sys2Proof.Machine
end

