-- ==== Sys2Proof/Machine/Complex.lean ====
section
/-! DEFINITION. The complex arithmetic unit: its five functions (40_complex_unit.md R200-R205) and its five commands
(R206-R211). -/

namespace Sys2Proof.Machine

/-- 40_complex_unit.md R201. -/
def cadd (a b : C64) : C64 := ⟨fadd a.re b.re, fadd a.im b.im⟩

/-- 40_complex_unit.md R202. -/
def csub (a b : C64) : C64 := ⟨fsub a.re b.re, fsub a.im b.im⟩

/-- 40_complex_unit.md R203: four products, each rounded, then one difference and one sum. -/
def cmul (a b : C64) : C64 :=
  ⟨fsub (fmul a.re b.re) (fmul a.im b.im), fadd (fmul a.re b.im) (fmul a.im b.re)⟩

/-- 40_complex_unit.md R204. -/
def cexp (a : C64) : C64 := ⟨fmul (fnExp a.re) (fnCos a.im), fmul (fnExp a.re) (fnSin a.im)⟩

/-- 40_complex_unit.md R205. -/
def cmag (a : C64) : F64 := fsqrt (fadd (fmul a.re a.re) (fmul a.im a.im))

/-- CADD (40_complex_unit.md R206). -/
def execCadd (zd za zb : Fin 8) (s : State) : Host.Outcome State Fault Refusal :=
  finish (writeZ s zd (cadd (readZ s za) (readZ s zb)))

/-- CSUB (40_complex_unit.md R207). -/
def execCsub (zd za zb : Fin 8) (s : State) : Host.Outcome State Fault Refusal :=
  finish (writeZ s zd (csub (readZ s za) (readZ s zb)))

/-- CMUL (40_complex_unit.md R208). -/
def execCmul (zd za zb : Fin 8) (s : State) : Host.Outcome State Fault Refusal :=
  finish (writeZ s zd (cmul (readZ s za) (readZ s zb)))

/-- CEXP (40_complex_unit.md R209). -/
def execCexp (zd za : Fin 8) (s : State) : Host.Outcome State Fault Refusal :=
  finish (writeZ s zd (cexp (readZ s za)))

/-- CMAG (40_complex_unit.md R210). -/
def execCmag (zd za : Fin 8) (s : State) : Host.Outcome State Fault Refusal :=
  finish (writeZ s zd (realC (cmag (readZ s za))))

end Sys2Proof.Machine
end

