-- ==== Sys2Proof/Machine/Control.lean ====
section
/-! DEFINITION. The control commands NOP and RESET (46_control.md). -/

namespace Sys2Proof.Machine

/-- NOP: only its completion (46_control.md R440). -/
def execNop (s : State) : Host.Outcome State Fault Refusal := finish s

/-- RESET: the reset, then DONE (46_control.md R441, 60_exceptions.md R463). -/
def execReset (s : State) : Host.Outcome State Fault Refusal := finish (applyReset s)

end Sys2Proof.Machine
end

