-- ==== Sys2Proof/Machine/FrequencyBin.lean ====
section
/-! DEFINITION. The per-bin sliding-DFT state machine (42_frequency_bin.md): construction, update, level, and the
inspection command BIN_RD. -/

namespace Sys2Proof.Machine

/-- The rotation angle θ: 2π·k rounded first, then divided by N (42_frequency_bin.md R281). -/
def binTheta (k n : Nat) : F64 := fdiv (fmul twoPi64 (u2f k)) (u2f n)

/-- The rotation coefficient (42_frequency_bin.md R282). -/
def binCoef (k n : Nat) : C64 := cexp ⟨0, binTheta k n⟩

/-- bands = N/2 (42_frequency_bin.md R283). -/
def binBands (n : Nat) : F64 := fdiv (u2f n) ftwo

/-- `bin_init` (42_frequency_bin.md R280). -/
def binInit (k n : BitVec 32) : Bin :=
  { k := k, n := n, bands := binBands n.toNat, coef := binCoef k.toNat n.toNat, dft := ⟨0, 0⟩, tp := 0 }

/-- `bin_update`: the power accumulation (R284), then the rotation (R285) (42_frequency_bin.md R286). -/
def binUpdate (prev cur : F64) (b : Bin) : Bin :=
  { b with
    tp := fadd b.tp (fsub (fmul cur cur) (fmul prev prev))
    dft := cmul (cadd (csub b.dft (realC prev)) (realC cur)) b.coef }

/-- `level(b)`, with the silence guard and the cap-exceed rule (42_frequency_bin.md R287). -/
def level (b : Bin) : F64 :=
  let num := fdiv (cmag b.dft) b.bands
  let den := fsqrt (fdiv b.tp b.bands)
  if feq den fzero then fzero
  else
    let ratio := fdiv num den
    if fle ratio fone then ratio else fzero

/-- What BIN_RD answers for a bin (42_frequency_bin.md R293). -/
def binRead (sel : BinSel) (b : Bin) : C64 :=
  match sel with
  | .dft => b.dft
  | .pow => realC b.tp
  | .lvl => realC (level b)
  | .coef => b.coef
  | .kn => ⟨u2f b.k.toNat, u2f b.n.toNat⟩
  | .bands => realC b.bands

/-- BIN[b]. -/
def readBin (s : State) (b : Nat) : Bin := Memory.read Bin.reset s.bins b

/-- BIN_RD (42_frequency_bin.md R293). -/
def execBinRd (zd : Fin 8) (sel : BitVec 3) (idx : BitVec 18) (s : State) : Host.Outcome State Fault Refusal :=
  match binSelOf sel with
  | none => raiseReserved s
  | some sel =>
    if !s.status.init then raise .eNotInit 0 s
    else if s.nbins.toNat ≤ (imm18 idx).toNat then raise .eRange (imm18 idx) s
    else finish (writeZ s zd (binRead sel (readBin s idx.toNat)))

end Sys2Proof.Machine
end

