-- ==== Sys2Proof/Machine/RingBuffer.lean ====
section
/-! DEFINITION. Ring buffers (41_ring_buffer.md R240-R248): the mechanics shared by RB and the Heavy-MA channel rings,
and the offset read port command RB_RD. -/

namespace Sys2Proof.Machine

/-- The capacity of a ring for a requested size R: the least power of two ≥ R + 1 (41_ring_buffer.md R240). -/
def ringCap (r : Nat) : Nat := if r = 0 then 1 else 2 ^ (Nat.log2 r + 1)

/-- The slot that the next write of a ring goes to: `cnt mod C` (41_ring_buffer.md R241); total, as every operation is,
where no run comes (log 15). -/
def writeSlot (cnt cap : Word) : Nat := cnt.toNat % cap.toNat

/-- The slot of read(ρ, off): `(cnt - 1 - off) mod 2^64 mod C` (41_ring_buffer.md R242). -/
def readSlot (cnt cap off : Word) : Nat := (cnt - 1 - off).toNat % cap.toNat

/-- write(RB, v) (41_ring_buffer.md R241). -/
def ringWrite (r : Ring) (v : F64) : Ring :=
  { r with mem := Memory.write 0 r.mem (writeSlot r.wc r.cap) v, wc := r.wc + 1 }

/-- read(RB, off) (41_ring_buffer.md R242). -/
def ringRead (r : Ring) (off : Word) : F64 := Memory.read 0 r.mem (readSlot r.wc r.cap off)

/-- RB_RD (41_ring_buffer.md R247). -/
def execRbRd (zd : Fin 8) (off : BitVec 18) (s : State) : Host.Outcome State Fault Refusal :=
  if !s.status.init then raise .eNotInit 0 s
  else if (s.rb.cap - 1).toNat < (imm18 off).toNat then raise .eRange (imm18 off) s
  else finish (writeZ s zd (realC (ringRead s.rb (imm18 off))))

end Sys2Proof.Machine
end

