-- ==== Sys2Proof/Machine/MovingAverage.lean ====
section
/-! DEFINITION. The dual moving-average filter (44_moving_average.md): the window, the Fast and Heavy updates, and the
inspection command MA_RD. -/

namespace Sys2Proof.Machine

/-- FAST_WIN_MAX (00_scope.md R14). -/
def fastWinMax : Nat := 2 ^ 32 - 1

/-- `conv(x, hi)`: the integer window, and whether it was clamped (44_moving_average.md R361). -/
def conv (x : F64) (hi : Nat) : Nat × Bool :=
  if isNaN x then (0, true)
  else if fle x fzero then (0, flt x fzero)
  else if x = posInf then (hi, true)
  else
    let w := (roundHalfUp x).toNat
    if hi < w then (hi, true) else (w, false)

/-- The bound of the target window: FAST_WIN_MAX in Fast mode, MA_MAX in Heavy (44_moving_average.md R362). -/
def targetBound (ma : MovAvg) : Nat :=
  match ma.mode with
  | .heavy => ma.wmax.toNat
  | .off | .fast => fastWinMax

/-- Setting the target window from WIN_SECONDS and the latched rate (44_moving_average.md R362). -/
def setTarget (s : State) : State :=
  let (t, c) := conv (fmul s.cfg.winSeconds s.ssSr) (targetBound s.ma)
  { s with
    ma := { s.ma with tgt := BitVec.ofNat 64 t }
    status := { s.status with wclamp := s.status.wclamp || c } }

/-- `ramp()` (44_moving_average.md R363). -/
def ramp (ma : MovAvg) : MovAvg :=
  if ma.cur.toNat < ma.tgt.toNat then { ma with cur := ma.cur + 1 }
  else if ma.tgt.toNat < ma.cur.toNat then { ma with cur := ma.cur - 1 }
  else ma

/-- One channel of the Fast update: its new sum from its old sum and its level (44_moving_average.md R365). -/
def fastSum (cur : Word) (sum l : F64) : F64 :=
  if cur = 0 then l else fsub (fadd sum l) (fdiv sum (u2f cur.toNat))

/-- The Fast update of channel ch. -/
def fastChannel (levels : Memory F64) (ma : MovAvg) (ch : Nat) : MovAvg :=
  { ma with
    sum := Memory.write 0 ma.sum ch (fastSum ma.cur (Memory.read 0 ma.sum ch) (Memory.read 0 levels ch)) }

/-- `fast_update(L[0..K-1])` (44_moving_average.md R365). -/
def fastUpdate (k : Nat) (levels : Memory F64) (ma : MovAvg) : MovAvg :=
  ramp ((List.range k).foldl (fastChannel levels) ma)

/-- `hread(ch, off)`: read(H[ch], off) with the counter one past hwc (44_moving_average.md R368). -/
def hread (ma : MovAvg) (ch : Nat) (off : Word) : F64 :=
  Memory.read 0 ma.h (hIndex ch (readSlot (ma.hwc + 1) ma.cap off))

/-- One channel's sum in the Heavy update, after its level was written to its ring: the level is added, then the
trailing values are subtracted, none growing, one steady, two shrinking (44_moving_average.md R368). -/
def heavySum (ma : MovAvg) (ch : Nat) (l : F64) : F64 :=
  let added := fadd (Memory.read 0 ma.sum ch) l
  if ma.tgt = ma.cur then fsub added (hread ma ch ma.cur)
  else if ma.tgt.toNat < ma.cur.toNat then fsub (fsub added (hread ma ch ma.cur)) (hread ma ch (ma.cur - 1))
  else added

/-- The Heavy update of channel ch (44_moving_average.md R368). -/
def heavyChannel (levels : Memory F64) (ma : MovAvg) (ch : Nat) : MovAvg :=
  let l := Memory.read 0 levels ch
  let ma1 := { ma with h := Memory.write 0 ma.h (hIndex ch (writeSlot ma.hwc ma.cap)) l }
  { ma1 with sum := Memory.write 0 ma1.sum ch (heavySum ma1 ch l) }

/-- `heavy_update(L[0..K-1])` (44_moving_average.md R368). -/
def heavyUpdate (k : Nat) (levels : Memory F64) (ma : MovAvg) : MovAvg :=
  let ma1 := (List.range k).foldl (heavyChannel levels) ma
  ramp { ma1 with hwc := ma1.hwc + 1 }

/-- One MA update with the levels of one sample (44_moving_average.md R360, 45_sliding_spectrum.md R410). -/
def maUpdate (k : Nat) (levels : Memory F64) (ma : MovAvg) : MovAvg :=
  match ma.mode with
  | .off => ma
  | .fast => fastUpdate k levels ma
  | .heavy => heavyUpdate k levels ma

/-- `ma_read(ch)`, evaluated only where MA_CUR ≠ 0 (44_moving_average.md R371). -/
def maRead (ma : MovAvg) (ch : Nat) : F64 := fdiv (Memory.read 0 ma.sum ch) (u2f ma.cur.toNat)

/-- MA_RD (44_moving_average.md R370). -/
def execMaRd (zd : Fin 8) (sel : BitVec 3) (ch : BitVec 18) (s : State) : Host.Outcome State Fault Refusal :=
  match maSelOf sel with
  | none => raiseReserved s
  | some sel =>
    if !s.status.init then raise .eNotInit 0 s
    else if s.ma.mode = .off then raise .eNoSmooth 0 s
    else if s.nbins.toNat ≤ (imm18 ch).toNat then raise .eRange (imm18 ch) s
    else
      match sel with
      | .avg =>
        if s.ma.cur = 0 then raise .eMaZero (imm18 ch) s
        else finish (writeZ s zd (realC (maRead s.ma ch.toNat)))
      | .sum => finish (writeZ s zd (realC (Memory.read 0 s.ma.sum ch.toNat)))

end Sys2Proof.Machine
end

