-- ==== Sys2Proof/Machine/TuningMap.lean ====
section
/-! DEFINITION. The tuning-map engine (43_tuning_map.md): keyToFrequency, the frequency-quantization search, and the
commands TM_K2F and TM_BUILD. -/

namespace Sys2Proof.Machine

/-- `k2f(x)` (43_tuning_map.md R320). -/
def k2f (c : Cfg) (x : F64) : F64 := fmul c.pitchFork (fnExp2 (fdiv (fsub x (i2f c.refKey)) ftwelve))

/-- The frequency of key j (43_tuning_map.md R322). -/
def keyFreq (c : Cfg) (j : Nat) : F64 := k2f c (u2f j)

/-- The bandwidth of key j (43_tuning_map.md R322). -/
def keyBandwidth (c : Cfg) (j : Nat) : F64 := fmul ftwo (fsub (k2f c (fadd (u2f j) fhalf)) (keyFreq c j))

/-- The quantization error of window length n (43_tuning_map.md R324). -/
def quantError (sr f : F64) (k n : Nat) : F64 := fabs (fsub (fmul sr (fdiv (u2f k) (u2f n))) f)

/-- The search from length n, whose error is `best`, downward (43_tuning_map.md R325). -/
def searchDown (sr f : F64) (k : Nat) : (n : Nat) → (best : F64) → Nat
  | 0, _ => 0
  | 1, _ => 1
  | n + 2, best =>
    if flt (quantError sr f k (n + 1)) best then searchDown sr f k (n + 1) (quantError sr f k (n + 1)) else n + 2

/-- `search(k, N0)` (43_tuning_map.md R325). -/
def search (sr f : F64) (k n0 : Nat) : Nat := searchDown sr f k n0 (quantError sr f k n0)

/-- A sample rate that TM_BUILD and SS_INIT accept: finite and above zero (43_tuning_map.md R327,
45_sliding_spectrum.md R401). -/
def rateOk (sr : F64) : Bool := flt fzero sr && decide (sr ≠ posInf)

/-- A bandwidth that TM_BUILD and SS_INIT accept: finite and above zero (43_tuning_map.md R327,
45_sliding_spectrum.md R401). -/
def bwOk (bw : F64) : Bool := flt fzero bw && decide (bw ≠ posInf)

/-- The table entry of key j, or the error it raises: the body of TM_BUILD's loop (43_tuning_map.md R327). -/
def tmEntry (c : Cfg) (j : Nat) : Except ErrCode TTEntry :=
  let sr := c.sampleRate
  let f := keyFreq c j
  let bw := keyBandwidth c j
  if !bwOk bw then .error .eCfgBw
  else
    let q := fdiv sr bw
    if isNaN q || flt q fone then .error .eCfgN
    else if fle ftwo32 q then .error .eCfgRange
    else
      let p := fdiv f bw
      if isNaN p || flt p fzero || fle ftwo32 p then .error .eCfgRange
      else
        let n0 := (floorExact q).toNat
        let k := (floorExact p).toNat
        .ok { key := BitVec.ofNat 64 j, freq := f, bw := bw, kk := BitVec.ofNat 64 k,
              nn := BitVec.ofNat 64 (search sr f k n0) }

/-- TM_BUILD's loop over `todo` keys from key j: the table it leaves, and the raise that ended it, if one did. The
entries written before a raise stay (43_tuning_map.md R327, 60_exceptions.md R463). -/
def tmLoop (c : Cfg) : (todo j : Nat) → Memory TTEntry → Memory TTEntry × Option (ErrCode × Word)
  | 0, _, tt => (tt, none)
  | todo + 1, j, tt =>
    match tmEntry c j with
    | .error code => (tt, some (code, BitVec.ofNat 64 j))
    | .ok e => tmLoop c todo (j + 1) (Memory.write TTEntry.reset tt j e)

/-- TM_K2F (43_tuning_map.md R329). -/
def execTmK2f (zd za : Fin 8) (s : State) : Host.Outcome State Fault Refusal :=
  finish (writeZ s zd (realC (k2f s.cfg (readZ s za).re)))

/-- TM_BUILD (43_tuning_map.md R327). -/
def execTmBuild (s : State) : Host.Outcome State Fault Refusal :=
  if !rateOk s.cfg.sampleRate then raise .eCfgSr 0 s
  else if s.cfg.keyCount.toNat < 1 ∨ s.params.maxBins < s.cfg.keyCount.toNat then raise .eCfgKeys s.cfg.keyCount s
  else
    match tmLoop s.cfg s.cfg.keyCount.toNat 0 s.tt with
    | (tt, some (code, info)) => raise code info { s with tt := tt }
    | (tt, none) => finish { s with tt := tt, ttCount := s.cfg.keyCount }

end Sys2Proof.Machine
end

