-- ==== Sys2Proof/Machine/Sequencer.lean ====
section
/-! DEFINITION. The sequencer (45_sliding_spectrum.md): SS_INIT (validate, construct), PROCESS and SNAP. -/

namespace Sys2Proof.Machine

/-! ### SS_INIT -/

/-- The checks of one table entry, in order (45_sliding_spectrum.md R401). -/
def checkEntry (e : TTEntry) : Option ErrCode :=
  if !bwOk e.bw then some .eCfgBw
  else if e.nn.toNat < 1 then some .eCfgN
  else if 2 ^ 32 - 1 < e.nn.toNat ∨ 2 ^ 32 - 1 < e.kk.toNat then some .eCfgRange
  else none

/-- The first failing entry among `todo` entries from entry b (45_sliding_spectrum.md R401). -/
def checkTable (tt : Memory TTEntry) : (todo b : Nat) → Option (ErrCode × Word)
  | 0, _ => none
  | todo + 1, b =>
    match checkEntry (Memory.read TTEntry.reset tt b) with
    | some code => some (code, BitVec.ofNat 64 b)
    | none => checkTable tt todo (b + 1)

/-- `maxN`, the largest NN of the first K entries (45_sliding_spectrum.md R401). -/
def maxWindow (tt : Memory TTEntry) (k : Nat) : Nat :=
  (List.range k).foldl (fun m b => max m (Memory.read TTEntry.reset tt b).nn.toNat) 0

/-- The smoothing that a valid SMOOTH_SECONDS selects: mode, MA_MAX, HMA_CAP (45_sliding_spectrum.md R403, R404). -/
structure Smoothing where
  mode : MaMode
  wmax : Nat
  cap : Nat
  deriving DecidableEq, Repr

/-- The smoothing mode by the sign of SMOOTH_SECONDS, or the error it raises (45_sliding_spectrum.md R401, R403,
R404). -/
def chooseSmoothing (s sr : F64) (hmaLog2Max : Nat) : Except (ErrCode × Word) Smoothing :=
  if isNaN s then .error (.eCfgSmooth, 0)
  else if flt fzero s then
    match conv (fmul s sr) (2 ^ hmaLog2Max - 1) with
    | (_, true) => .error (.eCfgCap, 1)
    | (w, false) => .ok { mode := .heavy, wmax := w, cap := ringCap w }
  else if flt s fzero then .ok { mode := .fast, wmax := 0, cap := 0 }
  else .ok { mode := .off, wmax := 0, cap := 0 }

/-- What validate() hands to construct(): C and the smoothing (45_sliding_spectrum.md R401). -/
structure Plan where
  cap : Nat
  smoothing : Smoothing
  deriving DecidableEq, Repr

/-- `validate()` (45_sliding_spectrum.md R401). -/
def validate (s : State) : Except (ErrCode × Word) Plan :=
  let sr := s.cfg.sampleRate
  let k := s.ttCount.toNat
  if !rateOk sr then .error (.eCfgSr, 0)
  else if k < 1 ∨ s.params.maxBins < k then .error (.eCfgKeys, s.ttCount)
  else
    match checkTable s.tt k 0 with
    | some e => .error e
    | none =>
      let cap := ringCap (maxWindow s.tt k)
      if 2 ^ s.params.rbLog2Max < cap then .error (.eCfgCap, 0)
      else
        match chooseSmoothing s.cfg.smoothSeconds sr s.params.hmaLog2Max with
        | .error e => .error e
        | .ok sm => .ok { cap := cap, smoothing := sm }

/-- Bin b built from its table entry (42_frequency_bin.md R280); R401 has bounded KK and NN to 32 bits. -/
def binOfEntry (e : TTEntry) : Bin := binInit (e.kk.setWidth 32) (e.nn.setWidth 32)

/-- The bins after construct(): b < K built from the table, K ≤ b < MAX_BINS reset (45_sliding_spectrum.md R402). -/
def constructBins (tt : Memory TTEntry) (k maxBins : Nat) (bins : Memory Bin) : Memory Bin :=
  Memory.clear
    ((List.range k).foldl
      (fun m b => Memory.write Bin.reset m b (binOfEntry (Memory.read TTEntry.reset tt b))) bins)
    (fun b => decide (k ≤ b ∧ b < maxBins))

/-- The MA state after construct(): sums and H[ch].mem[0..CH-1] of every channel zeroed, the slots from CH up kept
(45_sliding_spectrum.md R402). -/
def constructMa (sm : Smoothing) (maxBins : Nat) (ma : MovAvg) : MovAvg :=
  { mode := sm.mode
    cur := 0
    tgt := 0
    wmax := BitVec.ofNat 64 sm.wmax
    cap := BitVec.ofNat 64 sm.cap
    sum := Memory.clear ma.sum (fun ch => decide (ch < maxBins))
    h := Memory.clear ma.h (fun i => decide (i / 2 ^ 64 < maxBins ∧ i % 2 ^ 64 < sm.cap))
    hwc := 0 }

/-- `construct()` (45_sliding_spectrum.md R402). RB.mem from C up keeps its values. -/
def construct (p : Plan) (s : State) : State :=
  { s with
    nbins := s.ttCount
    ssSr := s.cfg.sampleRate
    bins := constructBins s.tt s.ttCount.toNat s.params.maxBins s.bins
    rb := { mem := Memory.clear s.rb.mem (fun i => decide (i < p.cap)), wc := 0, cap := BitVec.ofNat 64 p.cap }
    ma := constructMa p.smoothing s.params.maxBins s.ma
    out := Memory.clear s.out (fun b => decide (b < s.params.maxBins))
    status := { s.status with init := true } }

/-- SS_INIT (45_sliding_spectrum.md R400). -/
def execSsInit (s : State) : Host.Outcome State Fault Refusal :=
  match validate s with
  | .error (code, info) => raise code info s
  | .ok p => finish (construct p s)

/-! ### PROCESS -/

/-- Step 2a: one sample goes from BATCH into the ring, and its batch slot is zeroed (45_sliding_spectrum.md R408). -/
def takeSample (s : State) (i : Nat) : State :=
  { s with
    rb := ringWrite s.rb (Memory.read 0 s.batch i)
    batch := Memory.write 0 s.batch i 0 }

/-- Step 2b for bin b and sample x (45_sliding_spectrum.md R409). -/
def binSample (x : F64) (s : State) (b : Nat) : State :=
  let bin := readBin s b
  let bin' := binUpdate (ringRead s.rb (bin.n.setWidth 64)) x bin
  { s with
    bins := Memory.write Bin.reset s.bins b bin'
    out := Memory.write 0 s.out b (level bin') }

/-- Step 2 for sample i: 2a, then 2b for every live bin in ascending order, then 2c (45_sliding_spectrum.md R406). -/
def processSample (s : State) (i : Nat) : State :=
  let x := Memory.read 0 s.batch i
  let s1 := (List.range s.nbins.toNat).foldl (binSample x) (takeSample s i)
  { s1 with ma := maUpdate s1.nbins.toNat s1.out s1.ma }

/-- Step 1: the target window, when smoothing is on (45_sliding_spectrum.md R407). -/
def processTarget (s : State) : State := if s.ma.mode = .off then s else setTarget s

/-- Step 3: the levels are overwritten with the averages, when smoothing is on and its window is not 0
(45_sliding_spectrum.md R411). -/
def processOut (s : State) : State :=
  if s.ma.mode = .off ∨ s.ma.cur = 0 then s
  else { s with out := (List.range s.nbins.toNat).foldl (fun m ch => Memory.write 0 m ch (maRead s.ma ch)) s.out }

/-- The effect of PROCESS L once its checks passed (45_sliding_spectrum.md R406). -/
def processBatch (len : Nat) (s : State) : State :=
  processOut ((List.range len).foldl processSample (processTarget s))

/-- PROCESS (45_sliding_spectrum.md R406). -/
def execProcess (len : BitVec 24) (s : State) : Host.Outcome State Fault Refusal :=
  if !s.status.init then raise .eNotInit 0 s
  else if s.params.batchMax < (imm24 len).toNat then raise .eRange (imm24 len) s
  else finish (processBatch (imm24 len).toNat s)

/-! ### SNAP -/

/-- SNAPBUF after SNAP (45_sliding_spectrum.md R414). -/
def snapCopy (maxBins : Nat) (out snap : Memory F64) : Memory F64 :=
  (List.range maxBins).foldl (fun m b => Memory.write 0 m b (Memory.read 0 out b)) snap

/-- SNAP (45_sliding_spectrum.md R414). -/
def execSnap (s : State) : Host.Outcome State Fault Refusal :=
  finish { s with snap := snapCopy s.params.maxBins s.out s.snap }

end Sys2Proof.Machine
end

