-- ==== Sys2Proof/Machine/Dispatch.lean ====
section
/-! DEFINITION. One arm per command: an ENGINE step's effect once its word is decoded. -/

namespace Sys2Proof.Machine

def exec (i : Instr) (s : State) : Host.Outcome State Fault Refusal :=
  match i with
  | .nop => Sys2Proof.Machine.execNop s
  | .reset => Sys2Proof.Machine.execReset s
  | .cadd zd za zb => Sys2Proof.Machine.execCadd zd za zb s
  | .csub zd za zb => Sys2Proof.Machine.execCsub zd za zb s
  | .cmul zd za zb => Sys2Proof.Machine.execCmul zd za zb s
  | .cexp zd za => Sys2Proof.Machine.execCexp zd za s
  | .cmag zd za => Sys2Proof.Machine.execCmag zd za s
  | .rbRd zd off => Sys2Proof.Machine.execRbRd zd off s
  | .binRd zd sel idx => Sys2Proof.Machine.execBinRd zd sel idx s
  | .maRd zd sel ch => Sys2Proof.Machine.execMaRd zd sel ch s
  | .tmK2f zd za => Sys2Proof.Machine.execTmK2f zd za s
  | .tmBuild => Sys2Proof.Machine.execTmBuild s
  | .ssInit => Sys2Proof.Machine.execSsInit s
  | .process len => Sys2Proof.Machine.execProcess len s
  | .snap => Sys2Proof.Machine.execSnap s

end Sys2Proof.Machine
end

