-- ==== Sys2Proof/Machine/Fetch.lean ====
section
/-! DEFINITION. What stands in for fetching: the command word comes from PEND (10_state.md R41, R51, R77), and a word
that does not decode raises its error (30_encoding.md R149). -/

namespace Sys2Proof.Machine

/-- The error code of a decoding failure (30_encoding.md R149). -/
def decodeErrCode : DecodeError → ErrCode
  | .illegal => .eIllegal
  | .reserved => .eReserved

/-- The command that an ENGINE step performs for the pending bus word, or the state after the error that decoding it
raises; ERRINFO is the full word (30_encoding.md R149, 60_exceptions.md R462). -/
def decodePending (w : Word) (s : State) : Except State Instr :=
  match decode w with
  | .ok i => .ok i
  | .error e => .error (complete (decodeErrCode e) w s)

/-- The state with a bus word pending as if the host had just written it to CMD, and with the ENGINE to move. -/
def placeCommand (w : Word) (s : State) : State :=
  { s with
    pend := some w
    turns := match s.turns with
      | [] => []
      | t :: ts => .engine :: t :: ts }

end Sys2Proof.Machine
end

