-- ==== Sys2Proof/Machine/Step.lean ====
section
/-! DEFINITION. One step of the machine: the turn of one agent (00_scope.md R8, 20_memory.md R115). -/

namespace Sys2Proof.Machine

/-- An ENGINE step: it performs the pending command, if there is one; without one the ENGINE is idle and all state is
retained (00_scope.md R8, 10_state.md R77, 60_exceptions.md R479; log 3). -/
def engineStep (s : State) : Host.Outcome State Fault Refusal :=
  match s.pend with
  | none => .next s
  | some w =>
    match decodePending w s with
    | .ok i => exec i s
    | .error s' => .next s'

/-- One step: the first turn of `State.turns`, and the ENGINE's when none is left (log 2). -/
def step (s : State) : Host.Outcome State Fault Refusal :=
  match s.turns with
  | [] => engineStep s
  | .engine :: ts => engineStep { s with turns := ts }
  | .busRead addr be :: ts =>
    let (v, s') := busRead addr be { s with turns := ts }
    .next { s' with busRdata := v }
  | .busWrite addr be v :: ts => .next (busWrite addr be v { s with turns := ts })
  | .hwReset :: ts => .next (applyReset { s with turns := ts })

/-- The state with the command word `w` pending and the ENGINE to move, so that the next step performs it. The machine
fetches nothing (10_state.md R41): this stands for the host's CMD write (log 4). -/
def State.withFetchWord (s : State) (nbits w : Nat) : State := placeCommand (tableBusWord nbits w) s

end Sys2Proof.Machine
end

