-- ==== Sys2Proof/Safety.lean ====
section
/-! DEFINITION. The terms in which claims speak of a run: a command that completed or failed, the invariant of
10_state.md R79 with what it rests on, and what rounding to nearest means. -/

namespace Sys2Proof.Machine

/-! ### How a command ends (60_exceptions.md R463) -/

/-- The state after a command that did not raise: PEND = none and DONE = 1, all else as the command left it. -/
def completed (s : State) : State := { s with pend := none, status := { s.status with done := true } }

/-- The state after a command that raised `code` while ERR = 0. -/
def failedFirst (code : ErrCode) (info : Word) (s : State) : State :=
  { s with pend := none, errinfo := info, status := { s.status with done := true, err := true, errcode := code } }

/-- The state after a command that raised an error while ERR = 1. -/
def failedAgain (s : State) : State :=
  { s with pend := none, status := { s.status with done := true, errovf := true } }

/-- The state after a command that raised: the first error is kept. -/
def failed (code : ErrCode) (info : Word) (s : State) : State :=
  if s.status.err then failedAgain s else failedFirst code info s

/-- The command of the ENGINE step that the next step is; none where the next step is no ENGINE step, where nothing is
pending or where the pending word does not decode. -/
def nextCommand (s : State) : Option Instr :=
  match s.turns with
  | [] | .engine :: _ => s.pend.bind (fun w => (decode w).toOption)
  | _ => none

/-! ### The invariant -/

/-- n is a power of two. -/
abbrev isPow2 (n : Nat) : Prop := n = 2 ^ Nat.log2 n

/-- Every memory is in its canonical form (log 10). -/
abbrev memoriesCanonical (s : State) : Prop :=
  Memory.wf 0 s.rb.mem ∧ Memory.wf Bin.reset s.bins ∧ Memory.wf 0 s.ma.sum ∧ Memory.wf 0 s.ma.h ∧
  Memory.wf TTEntry.reset s.tt ∧ Memory.wf 0 s.batch ∧ Memory.wf 0 s.out ∧ Memory.wf 0 s.snap

/-- No word outside a memory's extent is listed (10_state.md R70-R76); the bins and OUT entries from K up hold their
reset values (R71, R75). -/
abbrev memoriesInRange (s : State) : Prop :=
  Memory.below s.rb.mem (2 ^ s.params.rbLog2Max) ∧ Memory.below s.bins s.nbins.toNat ∧
  Memory.below s.ma.sum s.params.maxBins ∧
  s.ma.h.all (fun c => decide (c.1 / 2 ^ 64 < s.params.maxBins ∧ c.1 % 2 ^ 64 < 2 ^ s.params.hmaLog2Max)) ∧
  Memory.below s.tt s.params.maxBins ∧ Memory.below s.batch s.params.batchMax ∧
  Memory.below s.out s.nbins.toNat ∧ Memory.below s.snap s.params.maxBins

/-- 10_state.md R79(a). -/
abbrev spectrumSized (s : State) : Prop :=
  s.status.init = true →
    1 ≤ s.nbins.toNat ∧ s.nbins.toNat ≤ s.params.maxBins ∧ isPow2 s.rb.cap.toNat ∧
    s.rb.cap.toNat ≤ 2 ^ s.params.rbLog2Max ∧
    ∀ b < s.nbins.toNat, (readBin s b).n.toNat + 1 ≤ s.rb.cap.toNat

/-- Before the first successful SS_INIT nothing is constructed (10_state.md R58, R59, R61-R66). -/
abbrev emptyUntilInit (s : State) : Prop :=
  s.status.init = false → s.nbins = 0 ∧ s.rb.cap = 0 ∧ s.rb.wc = 0 ∧ s.ma.mode = .off

/-- Every live bin keeps the bands and the coefficient that its k and N give (42_frequency_bin.md R280, R282, R283),
and N ≥ 1. -/
abbrev binsBuilt (s : State) : Prop :=
  ∀ b < s.nbins.toNat,
    1 ≤ (readBin s b).n.toNat ∧ (readBin s b).bands = binBands (readBin s b).n.toNat ∧
    (readBin s b).coef = binCoef (readBin s b).k.toNat (readBin s b).n.toNat

/-- 10_state.md R79(b), (c) with R62-R65: the windows fit the mode, and the Heavy rings fit the largest window. -/
abbrev windowsBounded (s : State) : Prop :=
  (s.ma.mode = .heavy →
    s.ma.cur.toNat ≤ s.ma.wmax.toNat ∧ s.ma.tgt.toNat ≤ s.ma.wmax.toNat ∧
    s.ma.wmax.toNat + 1 ≤ s.ma.cap.toNat ∧ isPow2 s.ma.cap.toNat ∧ s.ma.cap.toNat ≤ 2 ^ s.params.hmaLog2Max) ∧
  (s.ma.mode ≠ .heavy → s.ma.wmax = 0 ∧ s.ma.cap = 0) ∧
  (s.ma.mode = .off → s.ma.cur = 0 ∧ s.ma.tgt = 0) ∧
  s.ma.cur.toNat ≤ 2 ^ 32 - 1 ∧ s.ma.tgt.toNat ≤ 2 ^ 32 - 1

/-- ERRCODE and ERRINFO hold an error exactly while ERR = 1 (60_exceptions.md R461, 10_state.md R48, R50). -/
abbrev errorRecorded (s : State) : Prop :=
  (s.status.err = true ↔ s.status.errcode ≠ .eNone) ∧ (s.status.err = false → s.errinfo = 0)

/-- The invariant of the machine: it holds after reset and every step keeps it. -/
abbrev State.inv (s : State) : Prop :=
  s.params.legal ∧ memoriesCanonical s ∧ memoriesInRange s ∧ spectrumSized s ∧ emptyUntilInit s ∧ binsBuilt s ∧
  windowsBounded s ∧ errorRecorded s

/-! ### Terms for what a command or an access may touch -/

/-- The Z register that a command writes, if it writes one (10_state.md R43). -/
def destination : Instr → Option (Fin 8)
  | .cadd zd _ _ | .csub zd _ _ | .cmul zd _ _ | .cexp zd _ | .cmag zd _ | .rbRd zd _ | .binRd zd _ _ | .maRd zd _ _
  | .tmK2f zd _ => some zd
  | .nop | .reset | .tmBuild | .ssInit | .process _ | .snap => none

/-- The bits of a command word that must be zero, by its opcode (30_encoding.md R150). -/
def reservedBits (opc : Nat) : BitVec 32 :=
  match opc with
  | 0x00 | 0x01 | 0x31 | 0x40 | 0x42 => 0xFFFFFF00
  | 0x10 | 0x11 | 0x12 => 0xFFFE0000
  | 0x13 | 0x14 | 0x30 => 0xFFFFC000
  | 0x20 => 0x00003800
  | _ => 0

/-- The assigned opcodes (30_encoding.md R149). -/
def assignedOpcodes : List Nat :=
  [0x00, 0x01, 0x10, 0x11, 0x12, 0x13, 0x14, 0x20, 0x21, 0x22, 0x30, 0x31, 0x40, 0x41, 0x42]

/-- The mapped byte addresses (20_memory.md R101, 10_state.md R69). -/
abbrev mapped (p : Params) (a : Nat) : Prop :=
  a < 0x0B0 ∨ (0x100 ≤ a ∧ a < 0x180) ∨ (0x100000 ≤ a ∧ a < 0x100000 + 64 * p.maxBins) ∨
  (0x200000 ≤ a ∧ a < 0x200000 + 8 * p.batchMax) ∨ (0x300000 ≤ a ∧ a < 0x300000 + 8 * p.maxBins) ∨
  (0x400000 ≤ a ∧ a < 0x400000 + 8 * p.maxBins)

/-- The locations that store the whole word written to them: the RW locations but for CTRL (10_state.md R49) and the
reserved words of TT (20_memory.md R103, R105). -/
def storesWord : Loc → Bool
  | .csr .sampleRate | .csr .pitchFork | .csr .keyCount | .csr .refKey | .csr .smoothSeconds | .csr .winSeconds
  | .csr .ttCount => true
  | .csr _ => false
  | .zRe _ | .zIm _ | .batch _ => true
  | .tt _ f => decide (f ≠ .reserved)
  | .out _ | .snap _ => false

/-- The read-only locations but for STATUS (20_memory.md R110). -/
def readOnly : Loc → Bool
  | .csr .id | .csr .errinfo | .csr .rbCap | .csr .rbWc | .csr .maMode | .csr .maCur | .csr .maTgt | .csr .maMax
  | .csr .hmaCap | .csr .nbins | .csr .ssSr | .csr .params => true
  | .out _ | .snap _ => true
  | _ => false

/-- x is finite and above zero: a legal rate or bandwidth (43_tuning_map.md R327, 45_sliding_spectrum.md R401). -/
abbrev finitePositive (x : F64) : Prop := flt fzero x = true ∧ x ≠ posInf

/-- A table entry that passes the checks of 45_sliding_spectrum.md R401. -/
abbrev entryOk (e : TTEntry) : Prop :=
  finitePositive e.bw ∧ 1 ≤ e.nn.toNat ∧ e.nn.toNat ≤ 2 ^ 32 - 1 ∧ e.kk.toNat ≤ 2 ^ 32 - 1

/-- maxN of 45_sliding_spectrum.md R401: the largest NN of the first TT_COUNT entries. -/
abbrev isLargestWindow (s : State) (maxN : Nat) : Prop :=
  (∀ b < s.ttCount.toNat, (Memory.read TTEntry.reset s.tt b).nn.toNat ≤ maxN) ∧
  ∃ b < s.ttCount.toNat, (Memory.read TTEntry.reset s.tt b).nn.toNat = maxN

/-- x is +0.0 or lies in (0, 1]: a detection level (42_frequency_bin.md R289). -/
abbrev isLevel (x : F64) : Prop := fSign x = false ∧ fle x fone = true

/-- x is a multiple of 2^-20 in [0, 1]: sums of up to 2^32 of them are exact in binary64. -/
abbrev onGrid (x : F64) : Prop :=
  isFinite x = true ∧ 0 ≤ fUnits x ∧ fUnits x ≤ 2 ^ 1074 ∧ (2 ^ 1054 : Int) ∣ fUnits x

/-- The running sum of Heavy channel ch is exactly the sum of its last MA_CUR values (44_moving_average.md R369). -/
abbrev sumIsExact (ma : MovAvg) (ch : Nat) : Prop :=
  isFinite (Memory.read 0 ma.sum ch) = true ∧
  fUnits (Memory.read 0 ma.sum ch) =
    ((List.range ma.cur.toNat).map
      (fun i => fUnits (Memory.read 0 ma.h (hIndex ch (readSlot ma.hwc ma.cap (BitVec.ofNat 64 i)))))).sum

/-- What two states share when only the ENGINE could have told them apart: everything that no host access writes
(10_state.md R78, 20_memory.md R113). -/
abbrev sameEngineState (s t : State) : Prop :=
  t.params = s.params ∧ t.rb = s.rb ∧ t.bins = s.bins ∧ t.nbins = s.nbins ∧ t.ssSr = s.ssSr ∧ t.ma = s.ma ∧
  t.out = s.out ∧ t.snap = s.snap ∧ t.status.init = s.status.init ∧ t.status.done = s.status.done

/-! ### Rounding to nearest, ties to even (00_scope.md R19) -/

/-- The least magnitude, in units of 2^-1074, that rounds to infinity: half a unit in the last place above the largest
finite value, (2^53 - 1)·2^2045 + 2^2044. -/
def overflowUnits : Nat := (2 ^ 54 - 1) * 2 ^ 2044

/-- r is the exact value `num / den` units of 2^-1074 (den > 0) rounded to nearest with ties to even: an infinity of
its sign where it overflows; else a finite value no farther from it than any finite value, and with an even pattern
where another value is as near. -/
def RoundsTo (r : F64) (num : Int) (den : Nat) : Prop :=
  if overflowUnits * den ≤ num.natAbs then isInf r = true ∧ (fSign r = true ↔ num < 0)
  else
    isFinite r = true ∧
    ∀ c : F64, isFinite c = true →
      (fUnits r * den - num).natAbs ≤ (fUnits c * den - num).natAbs ∧
      ((fUnits r * den - num).natAbs = (fUnits c * den - num).natAbs → fUnits c ≠ fUnits r → fMag r % 2 = 0)

/-- r is nonnegative and, of all finite values, nearest to the square root of `n` square units: the midpoint of r and
any larger value is not below the root, and the midpoint of r and any smaller value is not above it. -/
def RoundsToRoot (r : F64) (n : Nat) : Prop :=
  isFinite r = true ∧ fSign r = false ∧
  ∀ c : F64, isFinite c = true → fSign c = false →
    (fUnits r < fUnits c → 4 * (n : Int) ≤ (fUnits r + fUnits c) * (fUnits r + fUnits c)) ∧
    (fUnits c < fUnits r → (fUnits r + fUnits c) * (fUnits r + fUnits c) ≤ 4 * (n : Int))

end Sys2Proof.Machine
end

