-- ==== Sys2Proof/Certificates/Slice0/Obligations.lean ====
section
/-! DEFINITION. The statements for the provers. A state after a command is written with `completed` (the command did not
raise), `failed` (it raised) of `Safety.lean`; a record update `{ s with … }` inside them is also the frame: every
register, flag, memory word and parameter that is not named there is unchanged. -/

open Sys2Proof Sys2Proof.Machine

/-! ### Encoding (30_encoding.md) -/

/-- Decoding an encoded well-formed command gives it back, with every operand at every value (R141-R149). -/
def Obligations.DecodeOfEncodeGivesTheCommand : Prop :=
  ∀ i : Instr, i.wellFormed = true → decode (encode i) = .ok i

/-- Each command has one bus word: a word that decodes is the encoding of what it decodes to (R140, R149). -/
def Obligations.EncodeOfDecodeGivesTheWord : Prop :=
  ∀ (w : Word) (i : Instr), decode w = .ok i → encode i = w ∧ i.wellFormed = true

/-- Decoding refuses exactly what R149 and R150 say: E_ILLEGAL for the unassigned opcodes, whatever the other bits are;
with an assigned opcode E_RESERVED where a bit of R150's table, or of the upper half, is not zero. -/
def Obligations.DecodingRefusesExactlyTheReservedWords : Prop :=
  ∀ w : Word,
    (decode w = .error .illegal ↔ (w.toNat % 256) ∉ assignedOpcodes) ∧
    ((w.toNat % 256) ∈ assignedOpcodes →
      (decode w = .error .reserved ↔
        w.toNat / 2 ^ 32 ≠ 0 ∨
        (w.setWidth 32 &&& reservedBits (w.toNat % 256)) ≠ 0 ∨
        (w.toNat % 256 = 0x21 ∧ 5 < w.toNat / 2 ^ 11 % 8) ∨
        (w.toNat % 256 = 0x22 ∧ 1 < w.toNat / 2 ^ 11 % 8)))

/-- Words of the spec's examples decode to the commands that the spec writes beside them. -/
def Obligations.ExampleWordsDecode : Prop :=
  decode 0x00008B10 = .ok (.cadd 3 1 2) ∧ decode 0x00008B12 = .ok (.cmul 3 1 2) ∧
  decode 0x00000A14 = .ok (.cmag 2 1) ∧ decode 0x0000C120 = .ok (.rbRd 1 3) ∧
  decode 0x00002021 = .ok (.binRd 0 4 0) ∧ decode 0x00004022 = .ok (.maRd 0 0 1) ∧
  decode 0x00000130 = .ok (.tmK2f 1 0) ∧ decode 0x00100141 = .ok (.process 4097) ∧
  decode 0x00000002 = .error .illegal ∧ decode 0x00004A13 = .error .reserved

/-! ### The step -/

/-- The ENGINE step performs the pending command: step is exec of the decoded command, where the ENGINE moves, which is at an
ENGINE turn and where no turn is left (log 2); and `withFetchWord`, which stands for the host's CMD write (log 4), makes the
next step that one. -/
def Obligations.StepPerformsThePendingCommand : Prop :=
  (∀ (s : State) (w : Word) (i : Instr), s.pend = some w → decode w = .ok i →
    (s.turns = [] → step s = exec i s) ∧
    (∀ ts, s.turns = .engine :: ts → step s = exec i { s with turns := ts })) ∧
  (∀ (s : State) (nbits w : Nat) (i : Instr), decodeTableWord nbits w = some i →
    step (s.withFetchWord nbits w) = exec i { s with pend := some (tableBusWord nbits w) })

/-- The steps that perform no command. An ENGINE step: a pending word that does not decode raises E_ILLEGAL or E_RESERVED
with the whole bus word in ERRINFO and changes nothing else (R149); with nothing pending the ENGINE is idle and all state
is retained (60_exceptions.md R479). A HOST turn takes the one listed access whole, in the listed order (log 2): a read
answers BusRead's value on bus_rdata (log 7) and leaves the state that BusRead leaves, a write leaves the state that
BusWrite leaves (20_memory.md R104, R105, R115(a)); no access touches the turns to come, and a write neither touches the
last answer nor draws a free value. -/
def Obligations.StepsThatPerformNoCommand : Prop :=
  (∀ (s : State) (ts : List Turn), (s.turns = [] ∧ ts = []) ∨ s.turns = .engine :: ts →
    (∀ w, s.pend = some w → decode w = .error .illegal → step s = .next (failed .eIllegal w { s with turns := ts })) ∧
    (∀ w, s.pend = some w → decode w = .error .reserved → step s = .next (failed .eReserved w { s with turns := ts })) ∧
    (s.pend = none → step s = .next { s with turns := ts })) ∧
  (∀ (s : State) (addr : BitVec 32) (be : BitVec 8) (ts : List Turn), s.turns = .busRead addr be :: ts →
    step s = .next { (busRead addr be { s with turns := ts }).2 with
      busRdata := (busRead addr be { s with turns := ts }).1 } ∧
    (busRead addr be { s with turns := ts }).2.turns = ts) ∧
  (∀ (s : State) (addr : BitVec 32) (be : BitVec 8) (v : Word) (ts : List Turn), s.turns = .busWrite addr be v :: ts →
    step s = .next (busWrite addr be v { s with turns := ts }) ∧
    (busWrite addr be v { s with turns := ts }).turns = ts ∧
    (busWrite addr be v { s with turns := ts }).busRdata = s.busRdata ∧
    (busWrite addr be v { s with turns := ts }).freeCount = s.freeCount)

/-- Every command terminates and every step answers a next state, with the same parameters: nothing stops this machine
(60_exceptions.md R480, 10_state.md R68). -/
def Obligations.EveryStepAnswersNext : Prop :=
  (∀ s : State, ∃ t, step s = .next t ∧ t.params = s.params) ∧
  (∀ (i : Instr) (s : State), ∃ t, exec i s = .next t ∧ t.params = s.params)

/-- After an ENGINE step on a pending word, whatever the word, BUSY = 0 and DONE = 1 (60_exceptions.md R463). -/
def Obligations.EngineStepClearsBusyAndSetsDone : Prop :=
  ∀ (s t : State) (w : Word), s.pend = some w → (s.turns = [] ∨ ∃ ts, s.turns = .engine :: ts) → step s = .next t →
    t.pend = none ∧ t.status.done = true ∧ t.turns = s.turns.tail

/-! ### Errors and STATUS -/

/-- Errors do not nest: while ERR = 1, no step but a reset and a STATUS write changes ERR, ERRCODE or ERRINFO
(60_exceptions.md R469). -/
def Obligations.FirstErrorIsKept : Prop :=
  ∀ s t : State, s.status.err = true → step s = .next t → nextCommand s ≠ some .reset →
    (∀ ts, s.turns ≠ .hwReset :: ts) →
    (∀ addr be v ts, s.turns = .busWrite addr be v :: ts → target s.params addr be ≠ some (.csr .status)) →
    t.status.err = true ∧ t.status.errcode = s.status.errcode ∧ t.errinfo = s.errinfo ∧
    (s.status.errovf = true → t.status.errovf = true)

/-- A command other than TM_BUILD that raises leaves all state except STATUS, ERRINFO and PEND as it was, and of STATUS
only DONE and the error record change (60_exceptions.md R467). -/
def Obligations.FailingCommandsChangeNothingElse : Prop :=
  ∀ (i : Instr) (s t : State), i ≠ .tmBuild → exec i s = .next t →
    (s.status.err = false ∧ t.status.err = true) ∨ (s.status.errovf = false ∧ t.status.errovf = true) →
    ∃ code info, t = failed code info s

/-- A host write of v to STATUS, idle or busy, clears the W1C bits that v names, ERRCODE and ERRINFO with ERR, and does
nothing else; in particular it never sets BUSERR (10_state.md R48). -/
def Obligations.StatusWriteClearsTheNamedBits : Prop :=
  ∀ (s : State) (v : Word),
    busWrite 0x10 0xFF v s =
      { s with
        status := { s.status with
          done := if v.getLsbD 1 then false else s.status.done
          err := if v.getLsbD 2 then false else s.status.err
          errovf := if v.getLsbD 3 then false else s.status.errovf
          buserr := if v.getLsbD 4 then false else s.status.buserr
          wclamp := if v.getLsbD 5 then false else s.status.wclamp
          errcode := if v.getLsbD 2 then .eNone else s.status.errcode }
        errinfo := if v.getLsbD 2 then 0 else s.errinfo }

/-- Each field of STATUS stands in its bits, the reserved bits read 0, and ERRCODE has R461's values (10_state.md R47,
R77). -/
def Obligations.StatusFieldsStandInTheirBits : Prop :=
  (∀ s : State,
    (statusWord s).getLsbD 0 = s.pend.isSome ∧ (statusWord s).getLsbD 1 = s.status.done ∧
    (statusWord s).getLsbD 2 = s.status.err ∧ (statusWord s).getLsbD 3 = s.status.errovf ∧
    (statusWord s).getLsbD 4 = s.status.buserr ∧ (statusWord s).getLsbD 5 = s.status.wclamp ∧
    (statusWord s).getLsbD 6 = s.status.init ∧ (statusWord s).getLsbD 7 = false ∧
    (statusWord s).extractLsb' 8 8 = errByte s.status.errcode ∧ (statusWord s).toNat < 2 ^ 16) ∧
  [ErrCode.eNone, .eIllegal, .eReserved, .eBusy, .eNotInit, .eRange, .eMaZero, .eNoSmooth, .eCfgSr, .eCfgKeys, .eCfgBw,
    .eCfgN, .eCfgRange, .eCfgCap, .eCfgSmooth].map errByte =
  [0x00, 0x01, 0x02, 0x03, 0x04, 0x05, 0x06, 0x07, 0x10, 0x11, 0x12, 0x13, 0x14, 0x15, 0x16]

/-- irq, as the host computes it from the two words it can read (60_exceptions.md R471). -/
def Obligations.IrqIsAFunctionOfCtrlAndStatus : Prop :=
  ∀ s : State,
    irq s = (((ctrlWord s.ctrl).getLsbD 0 && (statusWord s).getLsbD 1) ||
      ((ctrlWord s.ctrl).getLsbD 1 && ((statusWord s).getLsbD 2 || (statusWord s).getLsbD 4)))

/-! ### The bus (20_memory.md) -/

/-- An access without all eight byte enables, not 8-byte aligned, or at an unmapped address: a read answers 0, a write
changes nothing, and BUSERR is set, which is all that changes (R106, R107, R109; busy or not, log 8). -/
def Obligations.IllegalAccessesOnlySetBuserr : Prop :=
  ∀ (s : State) (addr : BitVec 32) (be : BitVec 8) (v : Word),
    be ≠ 0xFF ∨ addr.toNat % 8 ≠ 0 ∨ ¬ mapped s.params addr.toNat →
    busRead addr be s = (0, { s with status := { s.status with buserr := true } }) ∧
    busWrite addr be v s = { s with status := { s.status with buserr := true } }

/-- The address map: at which addresses the registers and the words of the four windows lie (10_state.md R45, 20_memory.md
R101-R103), and what each location reads as (10_state.md R46, R49-R68). -/
def Obligations.AddressMapIsTheSpecs : Prop :=
  (∀ p : Params,
    (∀ e ∈ [(0x000, Csr.id), (0x008, .cmd), (0x010, .status), (0x018, .ctrl), (0x020, .errinfo), (0x028, .sampleRate),
        (0x030, .pitchFork), (0x038, .keyCount), (0x040, .refKey), (0x048, .smoothSeconds), (0x050, .winSeconds),
        (0x058, .ttCount), (0x060, .rbCap), (0x068, .rbWc), (0x070, .maMode), (0x078, .maCur), (0x080, .maTgt),
        (0x088, .maMax), (0x090, .hmaCap), (0x098, .nbins), (0x0A0, .ssSr), (0x0A8, .params)],
      target p (BitVec.ofNat 32 e.1) 0xFF = some (.csr e.2)) ∧
    (∀ i : Fin 8, target p (BitVec.ofNat 32 (0x100 + 16 * i.val)) 0xFF = some (.zRe i) ∧
      target p (BitVec.ofNat 32 (0x108 + 16 * i.val)) 0xFF = some (.zIm i)) ∧
    (p.legal →
      (∀ b < p.maxBins,
        (∀ f ∈ [(0, TTField.key), (8, .freq), (16, .bw), (24, .kk), (32, .nn), (40, .reserved), (48, .reserved),
            (56, .reserved)],
          target p (BitVec.ofNat 32 (0x100000 + 64 * b + f.1)) 0xFF = some (.tt b f.2)) ∧
        target p (BitVec.ofNat 32 (0x300000 + 8 * b)) 0xFF = some (.out b) ∧
        target p (BitVec.ofNat 32 (0x400000 + 8 * b)) 0xFF = some (.snap b)) ∧
      (∀ i < p.batchMax, target p (BitVec.ofNat 32 (0x200000 + 8 * i)) 0xFF = some (.batch i)) ∧
      (paramsWord p).toNat = p.maxBins + p.rbLog2Max * 2 ^ 16 + p.hmaLog2Max * 2 ^ 24 + p.batchMax * 2 ^ 32)) ∧
  ∀ s : State,
    (∀ e ∈ [(Csr.id, (0x0000000153444654 : Word)), (.cmd, 0), (.status, statusWord s),
        (.ctrl, (if s.ctrl.ieDone then 1 else 0) + (if s.ctrl.ieErr then 2 else 0)), (.errinfo, s.errinfo),
        (.sampleRate, s.cfg.sampleRate), (.pitchFork, s.cfg.pitchFork), (.keyCount, s.cfg.keyCount),
        (.refKey, s.cfg.refKey), (.smoothSeconds, s.cfg.smoothSeconds), (.winSeconds, s.cfg.winSeconds),
        (.ttCount, s.ttCount), (.rbCap, s.rb.cap), (.rbWc, s.rb.wc),
        (.maMode, match s.ma.mode with | .off => 0 | .fast => 1 | .heavy => 2), (.maCur, s.ma.cur), (.maTgt, s.ma.tgt),
        (.maMax, s.ma.wmax), (.hmaCap, s.ma.cap), (.nbins, s.nbins), (.ssSr, s.ssSr), (.params, paramsWord s.params)],
      readLoc (.csr e.1) s = e.2) ∧
    (∀ i, readLoc (.zRe i) s = (readZ s i).re ∧ readLoc (.zIm i) s = (readZ s i).im) ∧
    (∀ b, let e := Memory.read TTEntry.reset s.tt b
      [TTField.key, .freq, .bw, .kk, .nn, .reserved].map (fun f => readLoc (.tt b f) s) =
        [e.key, e.freq, e.bw, e.kk, e.nn, 0]) ∧
    (∀ i, readLoc (.batch i) s = Memory.read 0 s.batch i ∧ readLoc (.out i) s = Memory.read 0 s.out i ∧
      readLoc (.snap i) s = Memory.read 0 s.snap i)

/-- Idle writes. A word written to a storing location is read back unchanged, and every other address reads as before
(R102, R105, R108); CTRL stores bits 1:0 and ignores the others, which read 0 (10_state.md R49); a write to a reserved
word of TT is ignored, without BUSERR, and the word reads 0 (R103). -/
def Obligations.WrittenWordsReadBack : Prop :=
  ∀ (s : State) (addr : BitVec 32) (v : Word) (l : Loc), s.pend = none → target s.params addr 0xFF = some l →
    (storesWord l = true →
      (busRead addr 0xFF (busWrite addr 0xFF v s)).1 = v ∧
      ∀ (a : BitVec 32) (be : BitVec 8), a ≠ addr → (busRead a be (busWrite addr 0xFF v s)).1 = (busRead a be s).1) ∧
    (l = .csr .ctrl →
      busWrite addr 0xFF v s = { s with ctrl := { ieDone := v.getLsbD 0, ieErr := v.getLsbD 1 } } ∧
      (busRead addr 0xFF (busWrite addr 0xFF v s)).1 = v &&& 3) ∧
    (∀ b, l = .tt b .reserved → busWrite addr 0xFF v s = s ∧ busRead addr 0xFF s = (0, s))

/-- Legal accesses. While idle a read answers the location and has no side effect, and a write to a read-only location
changes nothing but BUSERR (R104, R110). While BUSY = 1: ID, PARAMS, STATUS and CTRL read their values; any other read is a
free draw; any write but to CMD and STATUS is dropped with BUSERR (R111(c)-(e)). Two clauses are the model's own. That reads
of CMD and of the reserved words of TT are draws while BUSY too takes R111(e) over the 0 of R104 and R110 (log 16, DEDUCED).
That a draw is freeDraw at freeCount, which it advances, is log 5 (DESIGN CHOICE); the drawn value is free: this holds of
whatever it is. -/
def Obligations.LegalAccessesFollowTheBusyRule : Prop :=
  ∀ (s : State) (addr : BitVec 32) (v : Word) (l : Loc), target s.params addr 0xFF = some l →
    (s.pend = none →
      busRead addr 0xFF s = (readLoc l s, s) ∧
      (readOnly l = true → busWrite addr 0xFF v s = { s with status := { s.status with buserr := true } })) ∧
    (∀ w, s.pend = some w →
      (l ∈ [Loc.csr .id, .csr .params, .csr .status, .csr .ctrl] → busRead addr 0xFF s = (readLoc l s, s)) ∧
      (l ∉ [Loc.csr .id, .csr .params, .csr .status, .csr .ctrl] →
        busRead addr 0xFF s = (Config.freeDraw s.freeCount, { s with freeCount := s.freeCount + 1 })) ∧
      (l ∉ [Loc.csr .cmd, .csr .status] →
        busWrite addr 0xFF v s = { s with status := { s.status with buserr := true } }))

/-- A CMD write makes its word pending while idle; while busy it is dropped and records E_BUSY as an error, the first
one with its word, without touching DONE or PEND (10_state.md R51, 60_exceptions.md R465). -/
def Obligations.CommandWriteStartsOrIsDropped : Prop :=
  ∀ (s : State) (v : Word),
    (s.pend = none → busWrite 0x8 0xFF v s = { s with pend := some v }) ∧
    (s.pend ≠ none → s.status.err = false →
      busWrite 0x8 0xFF v s =
        { s with status := { s.status with err := true, errcode := .eBusy }, errinfo := v }) ∧
    (s.pend ≠ none → s.status.err = true →
      busWrite 0x8 0xFF v s = { s with status := { s.status with errovf := true } })

/-- No host access changes what the ENGINE owns, and none sets DONE or INIT: but for a STATUS write, which may clear
DONE, the bus leaves the spectrum, OUT and SNAPBUF alone (10_state.md R78, 20_memory.md R110). -/
def Obligations.HostAccessesLeaveTheSpectrumAlone : Prop :=
  ∀ (s : State) (addr : BitVec 32) (be : BitVec 8) (v : Word),
    sameEngineState s (busRead addr be s).2 ∧
    sameEngineState s { busWrite addr be v s with
      status := { (busWrite addr be v s).status with done := s.status.done } } ∧
    ((busWrite addr be v s).status.done = true → s.status.done = true)

/-! ### Reset -/

/-- The state after reset, as the bus and the inspection commands show it (70_reset_and_hazards.md R502), with the
default parameters of 00_scope.md R10-R13 in PARAMS. -/
def Obligations.ResetValuesAreTheSpecs : Prop :=
  (∀ r, readZ State.reset r = ⟨0, 0⟩) ∧
  [Csr.id, .cmd, .status, .ctrl, .errinfo, .sampleRate, .pitchFork, .keyCount, .refKey, .smoothSeconds, .winSeconds,
    .ttCount, .rbCap, .rbWc, .maMode, .maCur, .maTgt, .maMax, .hmaCap, .nbins, .ssSr, .params].map (readCsr · State.reset) =
  [0x0000000153444654, 0, 0, 0, 0, 0, 0x407B800000000000, 88, 48, 0, 0, 0, 0, 0, 0, 0, 0, 0, 0, 0, 0,
    0x0000100010110080] ∧
  State.reset.pend = none ∧ irq State.reset = false ∧ State.reset.ma.hwc = 0 ∧
  ∀ i, Memory.read 0 State.reset.rb.mem i = 0 ∧ readBin State.reset i = Bin.reset ∧
    Memory.read 0 State.reset.ma.sum i = 0 ∧ Memory.read 0 State.reset.ma.h i = 0 ∧
    Memory.read TTEntry.reset State.reset.tt i = TTEntry.reset ∧ Memory.read 0 State.reset.batch i = 0 ∧
    Memory.read 0 State.reset.out i = 0 ∧ Memory.read 0 State.reset.snap i = 0

/-- NOP completes and changes nothing but DONE and PEND. RESET completes: every state element takes its reset value, and
then DONE = 1. A hardware reset does the same to the state, but it discards a pending command and leaves DONE = 0. What
is no state of the spec (the parameters, the turns to come, the last answer of the bus, the count of free draws) stays
(46_control.md R440, R441, 70_reset_and_hazards.md R501; log 13). -/
def Obligations.NopAndTheTwoResets : Prop :=
  (∀ s : State,
    exec .nop s = .next (completed s) ∧
    exec .reset s = .next (completed
      { State.reset with params := s.params, turns := s.turns, busRdata := s.busRdata, freeCount := s.freeCount })) ∧
  ∀ (s : State) (ts : List Turn), s.turns = .hwReset :: ts →
    step s = .next
      { State.reset with params := s.params, turns := ts, busRdata := s.busRdata, freeCount := s.freeCount }

/-! ### Control and complex arithmetic -/

/-- CADD and CSUB complete with the field-wise sum and difference in Z[ZD], whichever registers the sources are
(40_complex_unit.md R201, R202). -/
def Obligations.CaddAndCsubWriteTheirResult : Prop :=
  ∀ (s : State) (zd za zb : Fin 8),
    exec (.cadd zd za zb) s = .next (completed { s with
      z := s.z.set zd ⟨fadd (readZ s za).re (readZ s zb).re, fadd (readZ s za).im (readZ s zb).im⟩ }) ∧
    exec (.csub zd za zb) s = .next (completed { s with
      z := s.z.set zd ⟨fsub (readZ s za).re (readZ s zb).re, fsub (readZ s za).im (readZ s zb).im⟩ })

/-- CMUL completes with the product of R203 in Z[ZD]: four rounded products, then a difference and a sum. -/
def Obligations.CmulWritesTheProduct : Prop :=
  ∀ (s : State) (zd za zb : Fin 8),
    exec (.cmul zd za zb) s = .next (completed { s with
      z := s.z.set zd
        ⟨fsub (fmul (readZ s za).re (readZ s zb).re) (fmul (readZ s za).im (readZ s zb).im),
         fadd (fmul (readZ s za).re (readZ s zb).im) (fmul (readZ s za).im (readZ s zb).re)⟩ })

/-- CEXP completes with R204's exponential in Z[ZD], for whatever FN_EXP, FN_COS and FN_SIN are; at re = ±0.0 and
im = +0.0 that is (1.0, +0.0) exactly (40_complex_unit.md R209). -/
def Obligations.CexpWritesTheExponential : Prop :=
  (∀ (s : State) (zd za : Fin 8),
    exec (.cexp zd za) s = .next (completed { s with
      z := s.z.set zd
        ⟨fmul (fnExp (readZ s za).re) (fnCos (readZ s za).im), fmul (fnExp (readZ s za).re) (fnSin (readZ s za).im)⟩ })) ∧
  cexp ⟨0, 0⟩ = ⟨fone, 0⟩ ∧ cexp ⟨0x8000000000000000, 0⟩ = ⟨fone, 0⟩

/-- CMAG completes with the magnitude of R205 as a real value in Z[ZD]; a magnitude is the canonical NaN or has a clear
sign bit (40_complex_unit.md R205, R210). -/
def Obligations.CmagWritesTheMagnitude : Prop :=
  (∀ (s : State) (zd za : Fin 8),
    exec (.cmag zd za) s = .next (completed { s with
      z := s.z.set zd
        ⟨fsqrt (fadd (fmul (readZ s za).re (readZ s za).re) (fmul (readZ s za).im (readZ s za).im)), 0⟩ })) ∧
  (∀ a : C64, cmag a = qNaN ∨ (fSign (cmag a) = false ∧ isNaN (cmag a) = false))

/-- No command but RESET changes a Z register that it does not name as its destination (10_state.md R43). -/
def Obligations.OnlyTheDestinationRegisterChanges : Prop :=
  ∀ (i : Instr) (s t : State) (r : Fin 8), i ≠ .reset → exec i s = .next t → destination i ≠ some r →
    readZ t r = readZ s r

/-! ### Binary64 (00_scope.md) -/

/-- The operations where the exact result is no number or has no sign of its own. Every NaN result is the canonical NaN,
and an operation with a NaN operand delivers it (R20). Beyond that the operations are IEEE 754's (R19, log 12): infinite
operands, the invalid operations, division by zero, the signs of zeros, of products and of quotients, square roots of
zeros, of negative values and of +inf; and fabs clears the sign (40_complex_unit.md R206-R208, R210, 42_frequency_bin.md
R288(b)). -/
def Obligations.SpecialOperandsGiveTheirResults : Prop :=
  (∀ f ∈ [fadd, fsub, fmul, fdiv], ∀ a b : F64,
    (isNaN a = true ∨ isNaN b = true → f a b = qNaN) ∧ (isNaN (f a b) = true → f a b = qNaN)) ∧
  (∀ f ∈ [fsqrt, fabs], ∀ a : F64, (isNaN a = true → f a = qNaN) ∧ (isNaN (f a) = true → f a = qNaN)) ∧
  (∀ a b : F64, isInf a = true → isNaN b = false →
    let signedInf : F64 := if fSign a = fSign b then posInf else negInf
    fadd a b = (if isInf b = true ∧ fSign a ≠ fSign b then qNaN else a) ∧ fadd b a = fadd a b ∧
    fsub a b = (if isInf b = true ∧ fSign a = fSign b then qNaN else a) ∧
    fsub b a = (if isInf b = true ∧ fSign a = fSign b then qNaN else if fSign a = true then posInf else negInf) ∧
    fmul a b = (if isZero b = true then qNaN else signedInf) ∧ fmul b a = fmul a b ∧
    fdiv a b = (if isInf b = true then qNaN else signedInf) ∧
    fdiv b a = (if isInf b = true then qNaN else if fSign a = fSign b then fzero else fNegZero)) ∧
  (∀ a b : F64, isFinite a = true → isFinite b = true →
    (fUnits a + fUnits b = 0 → fadd a b = if fSign a = true ∧ fSign b = true then fNegZero else fzero) ∧
    (fUnits a = fUnits b → fsub a b = if fSign a = true ∧ fSign b = false then fNegZero else fzero) ∧
    (fSign (fmul a b) = true ↔ fSign a ≠ fSign b) ∧
    (isZero b = false → (fSign (fdiv a b) = true ↔ fSign a ≠ fSign b)) ∧
    (isZero b = true →
      fdiv a b = if isZero a = true then qNaN else if fSign a = fSign b then posInf else negInf)) ∧
  (∀ a : F64, (isZero a = true → fsqrt a = a) ∧
    (isZero a = false → fSign a = true → fsqrt a = qNaN) ∧
    (isNaN a = false → isNaN (fabs a) = false ∧ fSign (fabs a) = false ∧ fMag (fabs a) = fMag a)) ∧
  fsqrt posInf = posInf

/-- Sums, differences, products and quotients of finite values are the exact results rounded to nearest, ties to even,
subnormals kept (R19, R20). -/
def Obligations.ArithmeticRoundsToNearestEven : Prop :=
  ∀ a b : F64, isFinite a = true → isFinite b = true →
    RoundsTo (fadd a b) (fUnits a + fUnits b) 1 ∧
    RoundsTo (fsub a b) (fUnits a - fUnits b) 1 ∧
    RoundsTo (fmul a b) (fUnits a * fUnits b) (2 ^ 1074) ∧
    (fUnits b ≠ 0 → RoundsTo (fdiv a b) (fUnits a * 2 ^ 1074 * (fUnits b).sign) (fUnits b).natAbs)

/-- The square root of a finite value that is not negative is rounded to nearest (R19). -/
def Obligations.SquareRootRoundsToNearest : Prop :=
  ∀ a : F64, isFinite a = true → fSign a = false → RoundsToRoot (fsqrt a) ((fUnits a).natAbs * 2 ^ 1074)

/-- u2f and i2f round to nearest, i2f by the two's complement value, and integers of magnitude up to 2^53 convert
exactly; floor_exact and round_half_up are ⌊x⌋ and ⌊x + 1/2⌋ of the exact value, and bring these integers back (R21);
the comparisons are those of the exact values, with the infinities outermost, and false for NaN (R19). -/
def Obligations.ConversionsAndComparisonsAreExact : Prop :=
  (∀ n : Nat, RoundsTo (u2f n) (n * 2 ^ 1074) 1) ∧
  (∀ w : Word, RoundsTo (i2f w) (w.toInt * 2 ^ 1074) 1) ∧
  (∀ n : Nat, n ≤ 2 ^ 53 →
    isFinite (u2f n) = true ∧ fUnits (u2f n) = n * 2 ^ 1074 ∧ i2f (BitVec.ofNat 64 n) = u2f n) ∧
  (∀ w : Word, w.toInt.natAbs ≤ 2 ^ 53 →
    isFinite (i2f w) = true ∧ fUnits (i2f w) = w.toInt * 2 ^ 1074 ∧ floorExact (i2f w) = w.toInt ∧
    roundHalfUp (i2f w) = w.toInt) ∧
  (∀ x : F64, isFinite x = true →
    floorExact x * 2 ^ 1074 ≤ fUnits x ∧ fUnits x < (floorExact x + 1) * 2 ^ 1074 ∧
    roundHalfUp x * 2 ^ 1075 ≤ 2 * fUnits x + 2 ^ 1074 ∧ 2 * fUnits x + 2 ^ 1074 < (roundHalfUp x + 1) * 2 ^ 1075) ∧
  (∀ a b : F64, isFinite a = true → isFinite b = true →
    (flt a b = true ↔ fUnits a < fUnits b) ∧ (fle a b = true ↔ fUnits a ≤ fUnits b) ∧
    (feq a b = true ↔ fUnits a = fUnits b)) ∧
  (∀ a : F64, isFinite a = true → flt a posInf = true ∧ flt negInf a = true) ∧ flt negInf posInf = true ∧
  (∀ a b : F64, isNaN a = false → isNaN b = false →
    (flt a b = true → flt b a = false) ∧ fle a b = !flt b a ∧ feq a b = (fle a b && fle b a)) ∧
  (∀ a b : F64, isNaN a = true ∨ isNaN b = true → flt a b = false ∧ fle a b = false ∧ feq a b = false)

/-- R27(a)-(d): the values at the zeros, NaN for NaN, and FN_EXP2 monotone; for whatever the functions are. That FN_EXP2 is
monotone is said with fle, which leaves no NaN at an argument that is none: the model's reading of R27(d) (log 6). -/
def Obligations.TranscendentalFunctionsHaveTheirProperties : Prop :=
  (∀ z ∈ [fzero, fNegZero], fnExp z = fone ∧ fnCos z = fone ∧ fnSin z = z ∧ fnExp2 z = fone) ∧
  (∀ x : F64, isNaN x = true → fnExp x = qNaN ∧ fnCos x = qNaN ∧ fnSin x = qNaN ∧ fnExp2 x = qNaN) ∧
  (∀ x y : F64, fle x y = true → fle (fnExp2 x) (fnExp2 y) = true)

/-! ### Ring buffers (41_ring_buffer.md) -/

/-- The capacity for a requested size is the least power of two above it (R240). -/
def Obligations.RingCapacityIsTheLeastPowerOfTwo : Prop :=
  ∀ r : Nat, ∃ m, ringCap r = 2 ^ m ∧ r + 1 ≤ 2 ^ m ∧ ∀ k, r + 1 ≤ 2 ^ k → m ≤ k

/-- After K ≥ 1 writes to a fresh ring of capacity C, offset i < min(K, C) reads the i-th newest value (R245), and an
offset in C that no write has reached reads +0.0 (R243). -/
def Obligations.RingReadsWhatWasWritten : Prop :=
  ∀ (m : Nat) (r : Ring) (vs : List F64), m ≤ 63 → r.cap.toNat = 2 ^ m → r.wc = 0 →
    (∀ i < 2 ^ m, Memory.read 0 r.mem i = 0) →
    (∀ i < 2 ^ m, ∀ v, vs.reverse[i]? = some v → ringRead (vs.foldl ringWrite r) (BitVec.ofNat 64 i) = v) ∧
    (∀ i < 2 ^ m, vs.length ≤ i → ringRead (vs.foldl ringWrite r) (BitVec.ofNat 64 i) = 0)

/-- RB_RD: with a spectrum and an offset below the capacity it completes with the sample in Z[ZD]; else it raises
E_NOT_INIT, or E_RANGE with the offset (R247). -/
def Obligations.RbRdReadsTheRing : Prop :=
  ∀ (s : State) (zd : Fin 8) (off : BitVec 18),
    (s.status.init = true → off.toNat < s.rb.cap.toNat →
      exec (.rbRd zd off) s = .next (completed { s with
        z := s.z.set zd ⟨ringRead s.rb (off.setWidth 64), 0⟩ })) ∧
    (s.status.init = true → 1 ≤ s.rb.cap.toNat → s.rb.cap.toNat ≤ off.toNat →
      exec (.rbRd zd off) s = .next (failed .eRange (off.setWidth 64) s)) ∧
    (s.status.init = false → exec (.rbRd zd off) s = .next (failed .eNotInit 0 s))

/-! ### Bins (42_frequency_bin.md) -/

/-- An update adds the new square less the old one to totalPower, turns the corrected accumulator by the coefficient,
and changes no other field (R284, R285, R286). -/
def Obligations.BinUpdateFollowsTheRecurrence : Prop :=
  ∀ (b : Bin) (prev cur : F64),
    binUpdate prev cur b = { b with
      tp := fadd b.tp (fsub (fmul cur cur) (fmul prev prev))
      dft := cmul (cadd (csub b.dft ⟨prev, 0⟩) ⟨cur, 0⟩) b.coef }

/-- The level is R287's: the ratio of |dft| / bands and the root of totalPower / bands, +0.0 in silence (the root is a zero),
and +0.0 where the ratio is above 1 or NaN. It is +0.0 or in (0, 1], never NaN and never -0.0, for a bin with bands not
negative (R289); and it is +0.0 where totalPower is a zero and bands is finite and above zero (R288(a)). -/
def Obligations.LevelIsZeroOrInUnitInterval : Prop :=
  ∀ b : Bin,
    (let num := fdiv (fsqrt (fadd (fmul b.dft.re b.dft.re) (fmul b.dft.im b.dft.im))) b.bands
     let den := fsqrt (fdiv b.tp b.bands)
     (feq den fzero = true → level b = fzero) ∧
     (feq den fzero = false → fle (fdiv num den) fone = true → level b = fdiv num den) ∧
     (feq den fzero = false → fle (fdiv num den) fone = false → level b = fzero)) ∧
    (fSign b.bands = false →
      isLevel (level b) ∧
      (isZero b.tp = true → isFinite b.bands = true → flt fzero b.bands = true → level b = fzero))

/-- BIN_RD: with a spectrum, an assigned selector (R147) and a live bin it completes with that item of the bin in Z[ZD];
without a spectrum it raises E_NOT_INIT, and beyond the live bins E_RANGE with the index (R293). The last clause is the
model's own (log 14, DEDUCED): exec of a term with an unassigned selector raises E_RESERVED with the pending word; the spec
raises it in decoding (R149, R293), which never yields such a term. -/
def Obligations.BinRdReadsTheBin : Prop :=
  ∀ (s : State) (zd : Fin 8) (sel : BitVec 3) (idx : BitVec 18),
    (s.status.init = true → idx.toNat < s.nbins.toNat → sel.toNat ≤ 5 →
      exec (.binRd zd sel idx) s = .next (completed { s with
        z := s.z.set zd
          (if sel = 0 then (readBin s idx.toNat).dft
           else if sel = 1 then ⟨(readBin s idx.toNat).tp, 0⟩
           else if sel = 2 then ⟨level (readBin s idx.toNat), 0⟩
           else if sel = 3 then (readBin s idx.toNat).coef
           else if sel = 4 then ⟨u2f (readBin s idx.toNat).k.toNat, u2f (readBin s idx.toNat).n.toNat⟩
           else ⟨(readBin s idx.toNat).bands, 0⟩) })) ∧
    (s.status.init = true → s.nbins.toNat ≤ idx.toNat → sel.toNat ≤ 5 →
      exec (.binRd zd sel idx) s = .next (failed .eRange (idx.setWidth 64) s)) ∧
    (s.status.init = false → sel.toNat ≤ 5 → exec (.binRd zd sel idx) s = .next (failed .eNotInit 0 s)) ∧
    (∀ w, s.pend = some w → 5 < sel.toNat → exec (.binRd zd sel idx) s = .next (failed .eReserved w s))

/-! ### Tuning map (43_tuning_map.md) -/

/-- TM_K2F completes with keyToFrequency of Z[ZA].re in Z[ZD], for whatever FN_EXP2 is (R320, R329); at the reference key
that is the pitch fork exactly, for every pitch fork that is no NaN (R321). -/
def Obligations.TmK2fWritesTheFrequency : Prop :=
  (∀ (s : State) (zd za : Fin 8),
    exec (.tmK2f zd za) s = .next (completed { s with z := s.z.set zd ⟨k2f s.cfg (readZ s za).re, 0⟩ })) ∧
  (∀ (c : Cfg) (x : F64), k2f c x = fmul c.pitchFork (fnExp2 (fdiv (fsub x (i2f c.refKey)) ftwelve))) ∧
  (∀ c : Cfg, isNaN c.pitchFork = false → k2f c (i2f c.refKey) = c.pitchFork)

/-- The frequencies of the keys do not decrease, for a finite pitch fork above zero (R328 with 00_scope.md R27(d), read as
log 6 reads it: FN_EXP2 gives no NaN at an argument that is none). -/
def Obligations.KeyFrequenciesDoNotDecrease : Prop :=
  ∀ (c : Cfg) (i j : Nat), finitePositive c.pitchFork → i ≤ j → fle (k2f c (u2f i)) (k2f c (u2f j)) = true

/-- The search, with R324's error: it returns a length from 1 to N0; every step it took strictly lowered the error, and the
next one would not have (R325, R326). -/
def Obligations.SearchStopsAtTheFirstNonImprovement : Prop :=
  ∀ (sr f : F64) (k n0 : Nat), 1 ≤ n0 →
    let err := fun n : Nat => fabs (fsub (fmul sr (fdiv (u2f k) (u2f n))) f)
    1 ≤ search sr f k n0 ∧ search sr f k n0 ≤ n0 ∧
    (∀ n, search sr f k n0 ≤ n → n < n0 → flt (err n) (err (n + 1)) = true) ∧
    (2 ≤ search sr f k n0 → flt (err (search sr f k n0 - 1)) (err (search sr f k n0)) = false)

/-- The body of TM_BUILD's loop for key j, whatever FN_EXP2 is: the three errors, each where its check is the first to fail,
and else the entry of R322, R323 and R325, within R330's bounds (R327). -/
def Obligations.TableEntriesFollowTheirRule : Prop :=
  ∀ (c : Cfg) (j : Nat), j < 16384 →
    let f := k2f c (u2f j)
    let bw := fmul ftwo (fsub (k2f c (fadd (u2f j) fhalf)) f)
    let q := fdiv c.sampleRate bw
    let p := fdiv f bw
    (¬ finitePositive bw → tmEntry c j = .error .eCfgBw) ∧
    (finitePositive bw → isNaN q = true ∨ flt q fone = true → tmEntry c j = .error .eCfgN) ∧
    (finitePositive bw → fle fone q = true → fle ftwo32 q = true → tmEntry c j = .error .eCfgRange) ∧
    (finitePositive bw → fle fone q = true → flt q ftwo32 = true →
      (isNaN p = true ∨ flt p fzero = true ∨ fle ftwo32 p = true → tmEntry c j = .error .eCfgRange) ∧
      (fle fzero p = true → flt p ftwo32 = true →
        ∃ e, tmEntry c j = .ok e ∧ e.key.toNat = j ∧ e.freq = f ∧ e.bw = bw ∧ (e.kk.toNat : Int) = floorExact p ∧
          e.nn.toNat = search c.sampleRate f e.kk.toNat (floorExact q).toNat ∧
          e.kk.toNat ≤ 2 ^ 32 - 1 ∧ 1 ≤ e.nn.toNat ∧ (e.nn.toNat : Int) ≤ floorExact q ∧
          floorExact q ≤ 2 ^ 32 - 1))

/-- TM_BUILD completes where the rate and the count are legal and every key has an entry: the K entries are in the
table, the others are as before, and TT_COUNT is K (R327). -/
def Obligations.TmBuildWritesTheTable : Prop :=
  ∀ s : State, finitePositive s.cfg.sampleRate →
    1 ≤ s.cfg.keyCount.toNat → s.cfg.keyCount.toNat ≤ s.params.maxBins →
    (∀ j < s.cfg.keyCount.toNat, ∃ e, tmEntry s.cfg j = .ok e) →
    ∃ tt, exec .tmBuild s = .next (completed { s with tt := tt, ttCount := s.cfg.keyCount }) ∧
      (∀ j < s.cfg.keyCount.toNat, tmEntry s.cfg j = .ok (Memory.read TTEntry.reset tt j)) ∧
      (∀ j, s.cfg.keyCount.toNat ≤ j → Memory.read TTEntry.reset tt j = Memory.read TTEntry.reset s.tt j)

/-- Where TM_BUILD does not complete: a bad rate, a bad count, or the first key j with no entry; then the entries before
j are written, the others and TT_COUNT are as before, and ERRINFO is j (R327). -/
def Obligations.TmBuildStopsAtTheFirstFailingKey : Prop :=
  ∀ s : State,
    (¬ finitePositive s.cfg.sampleRate → exec .tmBuild s = .next (failed .eCfgSr 0 s)) ∧
    (finitePositive s.cfg.sampleRate → s.cfg.keyCount.toNat < 1 ∨ s.params.maxBins < s.cfg.keyCount.toNat →
      exec .tmBuild s = .next (failed .eCfgKeys s.cfg.keyCount s)) ∧
    (finitePositive s.cfg.sampleRate → 1 ≤ s.cfg.keyCount.toNat → s.cfg.keyCount.toNat ≤ s.params.maxBins →
      ∀ j < s.cfg.keyCount.toNat, ∀ code, tmEntry s.cfg j = .error code →
        (∀ i < j, ∃ e, tmEntry s.cfg i = .ok e) →
        ∃ tt, exec .tmBuild s = .next (failed code (BitVec.ofNat 64 j) { s with tt := tt }) ∧
          (∀ i < j, tmEntry s.cfg i = .ok (Memory.read TTEntry.reset tt i)) ∧
          (∀ i, j ≤ i → Memory.read TTEntry.reset tt i = Memory.read TTEntry.reset s.tt i))

/-! ### Moving average (44_moving_average.md) -/

/-- conv(x, hi) rounds a positive finite x half up to an integer and clamps it to hi; zeros give 0, and NaN, negative
values and infinities are clamped (R361). -/
def Obligations.WindowConversionRoundsAndClamps : Prop :=
  ∀ (x : F64) (hi : Nat),
    (isNaN x = true → conv x hi = (0, true)) ∧
    (isZero x = true → conv x hi = (0, false)) ∧
    (isNaN x = false → isZero x = false → fSign x = true → conv x hi = (0, true)) ∧
    (x = posInf → conv x hi = (hi, true)) ∧
    (isFinite x = true → isZero x = false → fSign x = false →
      ∀ w : Nat, 2 ^ 1075 * (w : Int) ≤ 2 * fUnits x + 2 ^ 1074 → 2 * fUnits x + 2 ^ 1074 < 2 ^ 1075 * ((w : Int) + 1) →
        conv x hi = if w ≤ hi then (w, false) else (hi, true))

/-- ramp() moves MA_CUR by one sample toward MA_TGT, or leaves it there, and changes nothing else (R363). -/
def Obligations.RampMovesOneSampleTowardTheTarget : Prop :=
  ∀ ma : MovAvg, ∃ c : Word, ramp ma = { ma with cur := c } ∧
    (ma.cur.toNat < ma.tgt.toNat → c.toNat = ma.cur.toNat + 1) ∧
    (ma.tgt.toNat < ma.cur.toNat → c.toNat = ma.cur.toNat - 1) ∧
    (ma.cur = ma.tgt → c = ma.cur)

/-- The Fast update gives every live channel R365's sum with the window before the ramp, leaves the other sums and the
Heavy bank alone, and ramps (R365, R366). -/
def Obligations.FastUpdateFollowsItsFormula : Prop :=
  ∀ (k : Nat) (levels : Memory F64) (ma : MovAvg),
    ∃ sum, fastUpdate k levels ma = ramp { ma with sum := sum } ∧
      (∀ ch < k, Memory.read 0 sum ch =
        if ma.cur = 0 then Memory.read 0 levels ch
        else fsub (fadd (Memory.read 0 ma.sum ch) (Memory.read 0 levels ch))
          (fdiv (Memory.read 0 ma.sum ch) (u2f ma.cur.toNat))) ∧
      (∀ ch, k ≤ ch → Memory.read 0 sum ch = Memory.read 0 ma.sum ch)

/-- The Heavy update writes every live channel's level to its ring, adds it, and subtracts no, one or two trailing values
read after that write; the other channels and all other slots, those from CH up among them, are as before; hwc advances
and the window ramps (R368). -/
def Obligations.HeavyUpdateFollowsItsFormula : Prop :=
  ∀ (k : Nat) (levels : Memory F64) (ma : MovAvg), 1 ≤ ma.cap.toNat →
    ∃ sum h, heavyUpdate k levels ma = ramp { ma with sum := sum, h := h, hwc := ma.hwc + 1 } ∧
      (∀ ch slot, slot < 2 ^ 64 → Memory.read 0 h (hIndex ch slot) =
        if ch < k ∧ slot = ma.hwc.toNat % ma.cap.toNat then Memory.read 0 levels ch
        else Memory.read 0 ma.h (hIndex ch slot)) ∧
      (∀ ch < k,
        let added := fadd (Memory.read 0 ma.sum ch) (Memory.read 0 levels ch)
        let trail := fun off : Word => Memory.read 0 h (hIndex ch ((ma.hwc - off).toNat % ma.cap.toNat))
        Memory.read 0 sum ch =
          if ma.tgt = ma.cur then fsub added (trail ma.cur)
          else if ma.tgt.toNat < ma.cur.toNat then fsub (fsub added (trail ma.cur)) (trail (ma.cur - 1))
          else added) ∧
      (∀ ch, k ≤ ch → Memory.read 0 sum ch = Memory.read 0 ma.sum ch)

/-- Heavy exactness: where the levels and the channel's ring hold multiples of 2^-20 in [0, 1], no partial sum is
rounded, and an update keeps the channel's sum equal to the exact sum of its last MA_CUR values, growing, steady and
shrinking (R369). -/
def Obligations.HeavySumsStayExact : Prop :=
  ∀ (k : Nat) (levels : Memory F64) (ma : MovAvg) (ch : Nat), ch < k →
    ma.cur.toNat ≤ ma.wmax.toNat → ma.tgt.toNat ≤ ma.wmax.toNat → ma.wmax.toNat + 1 ≤ ma.cap.toNat →
    isPow2 ma.cap.toNat → ma.cap.toNat ≤ 2 ^ 32 → onGrid (Memory.read 0 levels ch) →
    (∀ slot < ma.cap.toNat, onGrid (Memory.read 0 ma.h (hIndex ch slot))) → sumIsExact ma ch →
    sumIsExact (heavyUpdate k levels ma) ch ∧
    ∀ slot < ma.cap.toNat, onGrid (Memory.read 0 (heavyUpdate k levels ma).h (hIndex ch slot))

/-- MA_RD: with a smoothed spectrum and a live channel it completes with the average (where the window is not 0) or the
raw sum in Z[ZD] (R370, R371; the selectors are R147's); without a spectrum, without smoothing, beyond the live channels or
at a window of 0 it raises, in R370's order. The last clause is the model's own (log 14, DEDUCED): exec of a term with an
unassigned selector raises E_RESERVED with the pending word; the spec raises it in decoding (R149, R370), which never yields
such a term. -/
def Obligations.MaRdReadsTheAverage : Prop :=
  ∀ (s : State) (zd : Fin 8) (sel : BitVec 3) (ch : BitVec 18),
    (s.status.init = true → s.ma.mode ≠ .off → ch.toNat < s.nbins.toNat →
      (s.ma.cur ≠ 0 → exec (.maRd zd 0 ch) s = .next (completed { s with
        z := s.z.set zd ⟨fdiv (Memory.read 0 s.ma.sum ch.toNat) (u2f s.ma.cur.toNat), 0⟩ })) ∧
      (s.ma.cur = 0 → exec (.maRd zd 0 ch) s = .next (failed .eMaZero (ch.setWidth 64) s)) ∧
      exec (.maRd zd 1 ch) s = .next (completed { s with
        z := s.z.set zd ⟨Memory.read 0 s.ma.sum ch.toNat, 0⟩ })) ∧
    (s.status.init = true → s.ma.mode ≠ .off → s.nbins.toNat ≤ ch.toNat → sel.toNat ≤ 1 →
      exec (.maRd zd sel ch) s = .next (failed .eRange (ch.setWidth 64) s)) ∧
    (s.status.init = true → s.ma.mode = .off → sel.toNat ≤ 1 →
      exec (.maRd zd sel ch) s = .next (failed .eNoSmooth 0 s)) ∧
    (s.status.init = false → sel.toNat ≤ 1 → exec (.maRd zd sel ch) s = .next (failed .eNotInit 0 s)) ∧
    (∀ w, s.pend = some w → 1 < sel.toNat → exec (.maRd zd sel ch) s = .next (failed .eReserved w s))

/-! ### Sequencer (45_sliding_spectrum.md) -/

/-- SS_INIT completes where every check of R401 passes (maxN is the largest NN of the table): K bins are built from the
table as bin_init builds them (42_frequency_bin.md R280-R283), C is the ring capacity for maxN, the ring, the sums, the
Heavy rings and OUT read zeros, the smoothing follows the sign of SMOOTH_SECONDS; and the table, the batch, SNAPBUF, the Z
registers, the configuration, WCLAMP and the slots beyond the capacities are as before (R400-R404). -/
def Obligations.SsInitConstructsTheSpectrum : Prop :=
  ∀ (s : State) (maxN : Nat), s.params.legal → finitePositive s.cfg.sampleRate →
    1 ≤ s.ttCount.toNat → s.ttCount.toNat ≤ s.params.maxBins →
    (∀ b < s.ttCount.toNat, entryOk (Memory.read TTEntry.reset s.tt b)) →
    isLargestWindow s maxN → ringCap maxN ≤ 2 ^ s.params.rbLog2Max →
    isNaN s.cfg.smoothSeconds = false →
    (flt fzero s.cfg.smoothSeconds = true →
      (conv (fmul s.cfg.smoothSeconds s.cfg.sampleRate) (2 ^ s.params.hmaLog2Max - 1)).2 = false) →
    ∃ t, exec .ssInit s = .next t ∧
      t = completed { s with
        status := { s.status with init := true }
        nbins := s.ttCount, ssSr := s.cfg.sampleRate, bins := t.bins, rb := t.rb, ma := t.ma, out := t.out } ∧
      (∀ b < s.ttCount.toNat,
        let k := (Memory.read TTEntry.reset s.tt b).kk
        let n := (Memory.read TTEntry.reset s.tt b).nn
        let theta := fdiv (fmul twoPi64 (u2f k.toNat)) (u2f n.toNat)
        readBin t b =
          { k := k.setWidth 32, n := n.setWidth 32, bands := fdiv (u2f n.toNat) ftwo,
            coef := ⟨fmul (fnExp fzero) (fnCos theta), fmul (fnExp fzero) (fnSin theta)⟩,
            dft := ⟨fzero, fzero⟩, tp := fzero } ∧
        (k = 0 → (readBin t b).coef = ⟨fone, fzero⟩)) ∧
      (∀ b, s.ttCount.toNat ≤ b → b < s.params.maxBins → readBin t b = Bin.reset) ∧
      t.rb.cap.toNat = ringCap maxN ∧ t.rb.wc = 0 ∧
      (∀ i, Memory.read 0 t.rb.mem i = if i < t.rb.cap.toNat then 0 else Memory.read 0 s.rb.mem i) ∧
      (isZero s.cfg.smoothSeconds = true → t.ma.mode = .off ∧ t.ma.wmax = 0 ∧ t.ma.cap = 0) ∧
      (flt s.cfg.smoothSeconds fzero = true → t.ma.mode = .fast ∧ t.ma.wmax = 0 ∧ t.ma.cap = 0) ∧
      (flt fzero s.cfg.smoothSeconds = true → t.ma.mode = .heavy ∧
        t.ma.wmax.toNat = (conv (fmul s.cfg.smoothSeconds s.cfg.sampleRate) (2 ^ s.params.hmaLog2Max - 1)).1 ∧
        t.ma.cap.toNat = ringCap t.ma.wmax.toNat) ∧
      t.ma.cur = 0 ∧ t.ma.tgt = 0 ∧ t.ma.hwc = 0 ∧
      (∀ ch < s.params.maxBins, Memory.read 0 t.ma.sum ch = 0 ∧ Memory.read 0 t.out ch = 0 ∧
        ∀ slot < 2 ^ 64, Memory.read 0 t.ma.h (hIndex ch slot) =
          if slot < t.ma.cap.toNat then 0 else Memory.read 0 s.ma.h (hIndex ch slot))

/-- Where SS_INIT does not complete: the first failing check of R401, in its order, is the error, and nothing else changes. -/
def Obligations.SsInitRefusesBadConfigurations : Prop :=
  ∀ s : State,
    (¬ finitePositive s.cfg.sampleRate → exec .ssInit s = .next (failed .eCfgSr 0 s)) ∧
    (finitePositive s.cfg.sampleRate →
      (s.ttCount.toNat < 1 ∨ s.params.maxBins < s.ttCount.toNat →
        exec .ssInit s = .next (failed .eCfgKeys s.ttCount s)) ∧
      (1 ≤ s.ttCount.toNat → s.ttCount.toNat ≤ s.params.maxBins →
        (∀ b < s.ttCount.toNat, (∀ a < b, entryOk (Memory.read TTEntry.reset s.tt a)) →
          let e := Memory.read TTEntry.reset s.tt b
          (¬ finitePositive e.bw → exec .ssInit s = .next (failed .eCfgBw (BitVec.ofNat 64 b) s)) ∧
          (finitePositive e.bw → e.nn.toNat < 1 → exec .ssInit s = .next (failed .eCfgN (BitVec.ofNat 64 b) s)) ∧
          (finitePositive e.bw → 1 ≤ e.nn.toNat → 2 ^ 32 - 1 < e.nn.toNat ∨ 2 ^ 32 - 1 < e.kk.toNat →
            exec .ssInit s = .next (failed .eCfgRange (BitVec.ofNat 64 b) s))) ∧
        (∀ maxN, (∀ b < s.ttCount.toNat, entryOk (Memory.read TTEntry.reset s.tt b)) → isLargestWindow s maxN →
          (2 ^ s.params.rbLog2Max < ringCap maxN → exec .ssInit s = .next (failed .eCfgCap 0 s)) ∧
          (ringCap maxN ≤ 2 ^ s.params.rbLog2Max →
            (isNaN s.cfg.smoothSeconds = true → exec .ssInit s = .next (failed .eCfgSmooth 0 s)) ∧
            (flt fzero s.cfg.smoothSeconds = true →
              (conv (fmul s.cfg.smoothSeconds s.cfg.sampleRate) (2 ^ s.params.hmaLog2Max - 1)).2 = true →
              exec .ssInit s = .next (failed .eCfgCap 1 s))))))

/-- PROCESS completes where a spectrum exists and L ≤ BATCH_MAX: L samples go into the ring in order, BATCH[0..L-1] is zeroed and
the rest of BATCH is as before, every bin keeps its k, N, bands and coefficient, MA keeps its mode, its bound and its
capacity; and everything but RB, BIN, MA, OUT, BATCH and WCLAMP is as before (R406, R408). -/
def Obligations.ProcessConsumesItsBatch : Prop :=
  ∀ (s : State) (len : BitVec 24), s.status.init = true → len.toNat ≤ s.params.batchMax →
    ∃ t, exec (.process len) s = .next t ∧
      t = completed { s with
        status := { s.status with wclamp := t.status.wclamp }
        rb := t.rb, bins := t.bins, ma := t.ma, out := t.out, batch := t.batch } ∧
      t.rb = (List.range len.toNat).foldl (fun r i => ringWrite r (Memory.read 0 s.batch i)) s.rb ∧
      t.rb.wc = s.rb.wc + BitVec.ofNat 64 len.toNat ∧ t.rb.cap = s.rb.cap ∧
      (∀ i < len.toNat, Memory.read 0 t.batch i = 0) ∧
      (∀ i, len.toNat ≤ i → Memory.read 0 t.batch i = Memory.read 0 s.batch i) ∧
      (∀ b, (readBin t b).k = (readBin s b).k ∧ (readBin t b).n = (readBin s b).n ∧
        (readBin t b).bands = (readBin s b).bands ∧ (readBin t b).coef = (readBin s b).coef) ∧
      (∀ b, s.nbins.toNat ≤ b → readBin t b = readBin s b ∧ Memory.read 0 t.out b = Memory.read 0 s.out b) ∧
      t.ma.mode = s.ma.mode ∧ t.ma.wmax = s.ma.wmax ∧ t.ma.cap = s.ma.cap

/-- Where PROCESS does not complete: no spectrum, or a batch longer than BATCH_MAX; nothing else changes (R406). -/
def Obligations.ProcessRefusesWithoutSpectrumOrRoom : Prop :=
  ∀ (s : State) (len : BitVec 24),
    (s.status.init = false → exec (.process len) s = .next (failed .eNotInit 0 s)) ∧
    (s.status.init = true → s.params.batchMax < len.toNat →
      exec (.process len) s = .next (failed .eRange (len.setWidth 64) s))

/-- PROCESS L for every L, as the fold of the effect of one sample, in any smoothing mode. First the target window is set,
when smoothing is on (R407). Then sample i goes into the ring, every live bin is updated with it and with the sample N
writes before it, and the moving average is updated with the bins' levels (R408-R410). Last OUT holds the averages, where
smoothing is on and its window is not 0; else the levels of the last sample, or for L = 0 what it held (R411). -/
def Obligations.ProcessUpdatesEveryLiveBin : Prop :=
  ∀ (s : State) (len : BitVec 24), s.status.init = true → len.toNat ≤ s.params.batchMax →
    let L := len.toNat
    let K := s.nbins.toNat
    let x := fun i : Nat => Memory.read 0 s.batch i
    let ring := fun i : Nat => (List.range i).foldl (fun r j => ringWrite r (x j)) s.rb
    let window := conv (fmul s.cfg.winSeconds s.ssSr) (if s.ma.mode = .heavy then s.ma.wmax.toNat else 2 ^ 32 - 1)
    ∃ (t : State) (bins : Nat → Nat → Bin) (ma : Nat → MovAvg) (levels : Nat → Memory F64),
      exec (.process len) s = .next t ∧
      t.status.wclamp = (s.status.wclamp || (decide (s.ma.mode ≠ .off) && window.2)) ∧
      (∀ b, bins 0 b = readBin s b) ∧
      ma 0 = (if s.ma.mode = .off then s.ma else { s.ma with tgt := BitVec.ofNat 64 window.1 }) ∧
      (∀ i < L,
        (∀ b < K,
          bins (i + 1) b = binUpdate (ringRead (ring (i + 1)) ((readBin s b).n.setWidth 64)) (x i) (bins i b) ∧
          Memory.read 0 (levels (i + 1)) b = level (bins (i + 1) b)) ∧
        ma (i + 1) =
          (match s.ma.mode with
          | .off => ma i
          | .fast => fastUpdate K (levels (i + 1)) (ma i)
          | .heavy => heavyUpdate K (levels (i + 1)) (ma i))) ∧
      t.rb = ring L ∧ (∀ b < K, readBin t b = bins L b) ∧ t.ma = ma L ∧
      ∀ b < K, Memory.read 0 t.out b =
        if s.ma.mode ≠ .off ∧ (ma L).cur ≠ 0 then fdiv (Memory.read 0 (ma L).sum b) (u2f (ma L).cur.toNat)
        else if L = 0 then Memory.read 0 s.out b
        else Memory.read 0 (levels L) b

/-- PROCESS 0 consumes nothing and updates nothing: it sets the target window from WIN_SECONDS when smoothing is on, and
rewrites OUT with the averages when the window is not 0 (R407, R411, R413). -/
def Obligations.EmptyBatchOnlySetsTheWindow : Prop :=
  ∀ s : State, s.status.init = true →
    ∃ t, exec (.process 0) s = .next t ∧ t.rb = s.rb ∧ t.bins = s.bins ∧ t.batch = s.batch ∧
      (s.ma.mode = .off → t = completed s) ∧
      (s.ma.mode ≠ .off →
        t.ma = { s.ma with tgt := BitVec.ofNat 64 (conv (fmul s.cfg.winSeconds s.ssSr)
          (if s.ma.mode = .heavy then s.ma.wmax.toNat else 2 ^ 32 - 1)).1 } ∧
        t.status.wclamp = (s.status.wclamp || (conv (fmul s.cfg.winSeconds s.ssSr)
          (if s.ma.mode = .heavy then s.ma.wmax.toNat else 2 ^ 32 - 1)).2) ∧
        (s.ma.cur = 0 → t.out = s.out) ∧
        (s.ma.cur ≠ 0 → ∀ ch < s.nbins.toNat,
          Memory.read 0 t.out ch = fdiv (Memory.read 0 s.ma.sum ch) (u2f s.ma.cur.toNat)))

/-- Without smoothing, or with a window of 0 after the batch, PROCESS of at least one sample leaves +0.0 or a value in (0, 1]
in every live OUT word, from every state of the invariant and for every samples, NaN and infinities among them (R415,
42_frequency_bin.md R289). -/
def Obligations.UnsmoothedOutputsAreLevels : Prop :=
  ∀ (s t : State) (len : BitVec 24), s.inv → s.status.init = true → 1 ≤ len.toNat →
    len.toNat ≤ s.params.batchMax → exec (.process len) s = .next t → (s.ma.mode = .off ∨ t.ma.cur = 0) →
    ∀ b < s.nbins.toNat, isLevel (Memory.read 0 t.out b)

/-- SNAP completes with SNAPBUF[0..MAX_BINS-1] bit for bit OUT, and changes nothing else (R414). -/
def Obligations.SnapCopiesTheOutputs : Prop :=
  ∀ s : State, ∃ snap, exec .snap s = .next (completed { s with snap := snap }) ∧
    (∀ b < s.params.maxBins, Memory.read 0 snap b = Memory.read 0 s.out b) ∧
    (∀ b, s.params.maxBins ≤ b → Memory.read 0 snap b = Memory.read 0 s.snap b)

/-! ### Whole-machine rules and the invariant -/

/-- SNAPBUF changes only by SNAP, RESET and a hardware reset; OUT only by PROCESS, SS_INIT, RESET and a hardware reset;
INIT is set only by SS_INIT and cleared only by a reset (45_sliding_spectrum.md R412, R414, 10_state.md R47). -/
def Obligations.OutputsAndInitChangeOnlyByTheirCommands : Prop :=
  ∀ s t : State, step s = .next t → (∀ ts, s.turns ≠ .hwReset :: ts) → nextCommand s ≠ some .reset →
    (nextCommand s ≠ some .snap → t.snap = s.snap) ∧
    ((∀ l, nextCommand s ≠ some (.process l)) → nextCommand s ≠ some .ssInit → t.out = s.out) ∧
    (s.status.init = true → t.status.init = true) ∧
    (nextCommand s ≠ some .ssInit → t.status.init = s.status.init)

/-- The invariant of 10_state.md R79, with the memories' canonical form and extents, holds after reset. -/
def Obligations.ResetMeetsTheInvariant : Prop := State.reset.inv

/-- Every step, whoever's turn it is, keeps the invariant: 10_state.md R79(a)-(c), the bounds of R62-R65, the bins as
they were built, the error record, the memories' canonical form and extents. -/
def Obligations.EveryStepKeepsTheInvariant : Prop :=
  ∀ s t : State, s.inv → step s = .next t → t.inv
end

