-- ==== Sys2Proof/Laws/Float.lean ====
section
/-! SUPPORT. Binary64 patterns: sign and magnitude, and the classes. -/

namespace Sys2Proof.Machine

theorem fMag_lt (x : F64) : fMag x < 2 ^ 63 := by
  unfold fMag
  exact Nat.mod_lt _ (by norm_num)

/-- A pattern is its sign and its magnitude. -/
theorem toNat_eq (x : F64) : x.toNat = (if fSign x then 2 ^ 63 else 0) + fMag x := by
  have := x.isLt
  by_cases h : 2 ^ 63 ≤ x.toNat
  · simp only [fSign, fMag, h, decide_true, if_true]
    omega
  · simp only [fSign, fMag, h, decide_false]
    simp
    omega

theorem toNat_fOfMag (b : Bool) {m : Nat} (h : m < 2 ^ 63) :
    (fOfMag b m).toNat = (if b then 2 ^ 63 else 0) + m := by
  unfold fOfMag
  rw [BitVec.toNat_ofNat]
  cases b
  · simp
    omega
  · simp
    omega

theorem fSign_fOfMag (b : Bool) {m : Nat} (h : m < 2 ^ 63) : fSign (fOfMag b m) = b := by
  unfold fSign
  rw [toNat_fOfMag b h]
  cases b
  · simp
    omega
  · simp

theorem fMag_fOfMag (b : Bool) {m : Nat} (h : m < 2 ^ 63) : fMag (fOfMag b m) = m := by
  unfold fMag
  rw [toNat_fOfMag b h]
  cases b
  · simp
    omega
  · simp
    omega

theorem fOfMag_fSign_fMag (x : F64) : fOfMag (fSign x) (fMag x) = x := by
  apply BitVec.eq_of_toNat_eq
  rw [toNat_fOfMag _ (fMag_lt x), ← toNat_eq]

/-- Every value is a NaN, an infinity or finite, and only one of these. -/
theorem class_cases (x : F64) :
    (isNaN x = true ∧ isInf x = false ∧ isFinite x = false) ∨ (isNaN x = false ∧ isInf x = true ∧ isFinite x = false) ∨
    (isNaN x = false ∧ isInf x = false ∧ isFinite x = true) := by
  unfold isNaN isInf isFinite
  rcases Nat.lt_trichotomy (fMag x) infMag with h | h | h
  · right; right; simp; omega
  · right; left; simp; omega
  · left; simp; omega

theorem roundMag_le (num den : Nat) : roundMag num den ≤ infMag := Nat.min_le_right _ _

/-- A rounded value is never a NaN and has the sign it is given. -/
theorem roundTo_sign_class (b : Bool) (num den : Nat) :
    fSign (roundTo b num den) = b ∧ isNaN (roundTo b num den) = false := by
  have h : roundMag num den < 2 ^ 63 := (roundMag_le num den).trans_lt (by unfold infMag; norm_num)
  refine ⟨fSign_fOfMag b h, ?_⟩
  unfold isNaN roundTo
  rw [fMag_fOfMag b h]
  have := roundMag_le num den
  simp
  omega

theorem flt_irrefl (x : F64) : flt x x = false := by simp [flt]

theorem fle_of_flt {x y : F64} (h : flt x y = true) : fle x y = true := by
  simp only [flt, fle, Bool.and_eq_true, decide_eq_true_eq] at h ⊢
  exact ⟨h.1, h.2.le⟩

theorem fle_trans {x y z : F64} (h : fle x y = true) (h' : fle y z = true) : fle x z = true := by
  simp only [fle, Bool.and_eq_true, decide_eq_true_eq] at h h' ⊢
  exact ⟨⟨h.1.1, h'.1.2⟩, h.2.trans h'.2⟩

end Sys2Proof.Machine
end

