-- ==== Sys2Proof/Laws/Memory.lean ====
section
/-! SUPPORT. What the memory operations do, said once: what each reads as afterwards, and that each keeps the canonical
form and the extent. -/

namespace Sys2Proof.Machine

variable {α : Type}

/-! ### Listed words -/

theorem Memory.mem_erase (m : Memory α) (i : Nat) (c : Nat × α) : c ∈ Memory.erase m i ↔ c ∈ m ∧ c.1 ≠ i := by
  simp [Memory.erase]

theorem Memory.mem_insert (m : Memory α) (i : Nat) (v : α) (c : Nat × α) :
    c ∈ Memory.insert m i v ↔ c = (i, v) ∨ c ∈ m := by
  induction m with
  | nil => simp [Memory.insert]
  | cons x m ih =>
    obtain ⟨k, x⟩ := x
    by_cases h : i < k
    · simp [Memory.insert, h]
    · simp only [Memory.insert, h, if_false, List.mem_cons, ih]
      tauto

theorem Memory.mem_clear (m : Memory α) (p : Nat → Bool) (c : Nat × α) :
    c ∈ Memory.clear m p ↔ c ∈ m ∧ p c.1 = false := by
  simp [Memory.clear]

/-- A listed word of a written memory is the one written or one listed before at another index. -/
theorem Memory.mem_write [DecidableEq α] {d : α} {m : Memory α} {i : Nat} {v : α} {c : Nat × α}
    (h : c ∈ Memory.write d m i v) : (c = (i, v) ∧ v ≠ d) ∨ (c ∈ m ∧ c.1 ≠ i) := by
  unfold Memory.write at h
  split at h
  · exact .inr ((Memory.mem_erase m i c).1 h)
  · rcases (Memory.mem_insert _ i v c).1 h with h | h
    · exact .inl ⟨h, ‹_›⟩
    · exact .inr ((Memory.mem_erase m i c).1 h)

/-! ### Reads -/

@[simp] theorem Memory.read_nil (d : α) (i : Nat) : Memory.read d [] i = d := rfl

/-- An index that no listed word has reads the reset content. -/
theorem Memory.read_of_absent (d : α) (m : Memory α) (i : Nat) (h : ∀ c ∈ m, c.1 ≠ i) : Memory.read d m i = d := by
  induction m with
  | nil => rfl
  | cons x m ih =>
    obtain ⟨k, x⟩ := x
    simp only [List.mem_cons, forall_eq_or_imp] at h
    simp [Memory.read, h.1, ih h.2]

/-- A read is the reset content or a listed word. -/
theorem Memory.read_eq_or_mem (d : α) (m : Memory α) (i : Nat) :
    Memory.read d m i = d ∨ (i, Memory.read d m i) ∈ m := by
  induction m with
  | nil => simp
  | cons x m ih =>
    obtain ⟨k, x⟩ := x
    by_cases h : k = i
    · simp [Memory.read, h]
    · simp only [Memory.read, h, if_false, List.mem_cons]
      tauto

theorem Memory.read_erase (d : α) (m : Memory α) (i j : Nat) :
    Memory.read d (Memory.erase m i) j = if j = i then d else Memory.read d m j := by
  induction m with
  | nil => simp [Memory.erase]
  | cons x m ih =>
    obtain ⟨k, x⟩ := x
    simp only [Memory.erase] at ih
    by_cases hk : k = i
    · subst hk
      by_cases hj : j = k
      · simp_all [Memory.erase]
      · have : k ≠ j := fun h => hj h.symm
        simp_all [Memory.erase, Memory.read]
    · by_cases hj : k = j
      · subst hj
        simp [Memory.erase, Memory.read, hk]
      · have hk' : ((k, x) : Nat × α).1 ≠ i := hk
        simp only [Memory.erase, List.filter_cons, hk', decide_true, if_true, Memory.read, hj, if_false, ih, ne_eq,
          not_false_eq_true]

theorem Memory.read_insert (d : α) (m : Memory α) (i j : Nat) (v : α) (h : ∀ c ∈ m, c.1 ≠ i) :
    Memory.read d (Memory.insert m i v) j = if j = i then v else Memory.read d m j := by
  induction m with
  | nil => simp [Memory.insert, Memory.read, eq_comm]
  | cons x m ih =>
    obtain ⟨k, x⟩ := x
    simp only [List.mem_cons, forall_eq_or_imp] at h
    by_cases hk : i < k
    · simp [Memory.insert, hk, Memory.read, eq_comm]
    · by_cases hj : k = j
      · subst hj
        simp [Memory.insert, hk, Memory.read, h.1]
      · simp [Memory.insert, hk, Memory.read, hj, ih h.2]

/-- Read after write: the word written at its index, and every other word as before. -/
theorem Memory.read_write [DecidableEq α] (d : α) (m : Memory α) (i j : Nat) (v : α) :
    Memory.read d (Memory.write d m i v) j = if j = i then v else Memory.read d m j := by
  unfold Memory.write
  split
  · simp_all [Memory.read_erase]
  · rw [Memory.read_insert _ _ _ _ _ (fun c hc => ((Memory.mem_erase m i c).1 hc).2), Memory.read_erase]
    split <;> rfl

@[simp] theorem Memory.read_write_self [DecidableEq α] (d : α) (m : Memory α) (i : Nat) (v : α) :
    Memory.read d (Memory.write d m i v) i = v := by
  simp [Memory.read_write]

theorem Memory.read_write_ne [DecidableEq α] (d : α) (m : Memory α) {i j : Nat} (v : α) (h : j ≠ i) :
    Memory.read d (Memory.write d m i v) j = Memory.read d m j := by
  simp [Memory.read_write, h]

/-- Read after clear: the reset content inside the cleared range, and every other word as before. -/
theorem Memory.read_clear (d : α) (m : Memory α) (p : Nat → Bool) (i : Nat) :
    Memory.read d (Memory.clear m p) i = if p i = true then d else Memory.read d m i := by
  induction m with
  | nil => simp [Memory.clear]
  | cons x m ih =>
    obtain ⟨k, x⟩ := x
    simp only [Memory.clear] at ih
    by_cases hk : k = i
    · subst hk
      by_cases hp : p k = true <;> simp_all [Memory.clear, Memory.read]
    · by_cases hp : p k = true <;> simp_all [Memory.clear, Memory.read]

/-- Reading after k words were stored at the indices below k, each computed from its index. -/
theorem Memory.read_foldl_write [DecidableEq α] (d : α) (f : Nat → α) (m : Memory α) (k j : Nat) :
    Memory.read d ((List.range k).foldl (fun m i => Memory.write d m i (f i)) m) j =
      if j < k then f j else Memory.read d m j := by
  induction k with
  | zero => simp
  | succ k ih =>
    rw [List.range_succ, List.foldl_append, List.foldl_cons, List.foldl_nil, Memory.read_write]
    by_cases h : j = k
    · simp [h]
    · simp only [h, if_false, ih]
      by_cases h' : j < k
      · simp [h', Nat.lt_succ_of_lt h']
      · have : ¬ j < k + 1 := by omega
        simp [h', this]

/-! ### The canonical form -/

/-- The canonical form in words: indices strictly rising, and no listed word is the reset content. -/
theorem Memory.wf_iff [DecidableEq α] (d : α) (m : Memory α) :
    Memory.wf d m = true ↔ m.Pairwise (fun a b => a.1 < b.1) ∧ ∀ c ∈ m, c.2 ≠ d := by
  induction m with
  | nil => simp [Memory.wf]
  | cons x m ih =>
    obtain ⟨k, x⟩ := x
    simp only [Memory.wf, Bool.and_eq_true, decide_eq_true_eq, List.all_eq_true, ih, List.pairwise_cons, List.mem_cons,
      forall_eq_or_imp]
    tauto

@[simp] theorem Memory.wf_nil [DecidableEq α] (d : α) : Memory.wf d ([] : Memory α) = true := rfl

theorem Memory.wf_erase [DecidableEq α] {d : α} {m : Memory α} (i : Nat) (h : Memory.wf d m = true) :
    Memory.wf d (Memory.erase m i) = true := by
  rw [Memory.wf_iff] at h ⊢
  exact ⟨h.1.filter _, fun c hc => h.2 c ((Memory.mem_erase m i c).1 hc).1⟩

theorem Memory.wf_clear [DecidableEq α] {d : α} {m : Memory α} (p : Nat → Bool) (h : Memory.wf d m = true) :
    Memory.wf d (Memory.clear m p) = true := by
  rw [Memory.wf_iff] at h ⊢
  exact ⟨h.1.filter _, fun c hc => h.2 c ((Memory.mem_clear m p c).1 hc).1⟩

theorem Memory.insert_pairwise (m : Memory α) (i : Nat) (v : α) (h : m.Pairwise (fun a b => a.1 < b.1))
    (hi : ∀ c ∈ m, c.1 ≠ i) : (Memory.insert m i v).Pairwise (fun a b => a.1 < b.1) := by
  induction m with
  | nil => simp [Memory.insert]
  | cons x m ih =>
    obtain ⟨k, x⟩ := x
    simp only [List.mem_cons, forall_eq_or_imp] at hi
    rw [List.pairwise_cons] at h
    by_cases hk : i < k
    · simp only [Memory.insert, hk, if_true, List.pairwise_cons, List.mem_cons, forall_eq_or_imp, true_and]
      exact ⟨fun c hc => hk.trans (h.1 c hc), h⟩
    · simp only [Memory.insert, hk, if_false, List.pairwise_cons]
      refine ⟨fun c hc => ?_, ih h.2 hi.2⟩
      rcases (Memory.mem_insert m i v c).1 hc with rfl | hc
      · have := hi.1
        dsimp only at this ⊢
        omega
      · exact h.1 c hc

/-- A write keeps the canonical form. -/
theorem Memory.wf_write [DecidableEq α] {d : α} {m : Memory α} (i : Nat) (v : α) (h : Memory.wf d m = true) :
    Memory.wf d (Memory.write d m i v) = true := by
  unfold Memory.write
  split
  · exact Memory.wf_erase i h
  · have he := Memory.wf_erase i h
    rw [Memory.wf_iff] at he ⊢
    refine ⟨Memory.insert_pairwise _ i v he.1 (fun c hc => ((Memory.mem_erase m i c).1 hc).2), fun c hc => ?_⟩
    rcases (Memory.mem_insert _ i v c).1 hc with rfl | hc
    · assumption
    · exact he.2 c hc

/-! ### The extent -/

theorem Memory.below_iff (m : Memory α) (n : Nat) : Memory.below m n = true ↔ ∀ c ∈ m, c.1 < n := by
  simp [Memory.below]

@[simp] theorem Memory.below_nil (n : Nat) : Memory.below ([] : Memory α) n = true := rfl

theorem Memory.below_mono {m : Memory α} {n k : Nat} (h : Memory.below m n = true) (hn : n ≤ k) :
    Memory.below m k = true := by
  rw [Memory.below_iff] at h ⊢
  exact fun c hc => (h c hc).trans_le hn

/-- A write inside the extent keeps it. -/
theorem Memory.below_write [DecidableEq α] {d : α} {m : Memory α} {n i : Nat} (v : α) (h : Memory.below m n = true)
    (hi : i < n) : Memory.below (Memory.write d m i v) n = true := by
  rw [Memory.below_iff] at h ⊢
  intro c hc
  rcases Memory.mem_write hc with ⟨rfl, -⟩ | ⟨hc, -⟩
  · exact hi
  · exact h c hc

theorem Memory.below_clear {m : Memory α} {n : Nat} (p : Nat → Bool) (h : Memory.below m n = true) :
    Memory.below (Memory.clear m p) n = true := by
  rw [Memory.below_iff] at h ⊢
  exact fun c hc => h c ((Memory.mem_clear m p c).1 hc).1

/-- Beyond its extent a memory reads its reset content. -/
theorem Memory.read_of_below {d : α} {m : Memory α} {n i : Nat} (h : Memory.below m n = true) (hi : n ≤ i) :
    Memory.read d m i = d := by
  rw [Memory.below_iff] at h
  exact Memory.read_of_absent d m i (fun c hc => by have := h c hc; omega)

/-! ### The Heavy bank -/

/-- The channel and the slot of a place in the Heavy bank. -/
theorem hIndex_div_mod (ch slot : Nat) (h : slot < 2 ^ 64) :
    hIndex ch slot / 2 ^ 64 = ch ∧ hIndex ch slot % 2 ^ 64 = slot := by
  unfold hIndex
  omega

/-- Two places of the Heavy bank are one only for one channel and one slot. -/
theorem hIndex_inj {ch ch' slot slot' : Nat} (h : slot < 2 ^ 64) (h' : slot' < 2 ^ 64) :
    hIndex ch slot = hIndex ch' slot' ↔ ch = ch' ∧ slot = slot' := by
  unfold hIndex
  omega

end Sys2Proof.Machine
end

