-- ==== Sys2Proof/Laws/State.lean ====
section
/-! SUPPORT. What each named update leaves in each field of the state: one lemma per field per update, true by `rfl`, so
that no later proof unfolds a record update. A field that the update writes has the value it writes. -/

namespace Sys2Proof.Machine

/-- Every memory of the reset state is in its canonical form. -/
theorem reset_memoriesCanonical : memoriesCanonical State.reset := by
  simp [memoriesCanonical, State.reset]

/-! ### `Z[r] <- v` -/

@[simp] theorem writeZ_params (s : State) (r : Fin 8) (v : C64) : (writeZ s r v).params = s.params := rfl
@[simp] theorem writeZ_z (s : State) (r : Fin 8) (v : C64) : (writeZ s r v).z = s.z.set r.val v r.isLt := rfl
@[simp] theorem writeZ_status (s : State) (r : Fin 8) (v : C64) : (writeZ s r v).status = s.status := rfl
@[simp] theorem writeZ_errinfo (s : State) (r : Fin 8) (v : C64) : (writeZ s r v).errinfo = s.errinfo := rfl
@[simp] theorem writeZ_ctrl (s : State) (r : Fin 8) (v : C64) : (writeZ s r v).ctrl = s.ctrl := rfl
@[simp] theorem writeZ_cfg (s : State) (r : Fin 8) (v : C64) : (writeZ s r v).cfg = s.cfg := rfl
@[simp] theorem writeZ_pend (s : State) (r : Fin 8) (v : C64) : (writeZ s r v).pend = s.pend := rfl
@[simp] theorem writeZ_rb (s : State) (r : Fin 8) (v : C64) : (writeZ s r v).rb = s.rb := rfl
@[simp] theorem writeZ_bins (s : State) (r : Fin 8) (v : C64) : (writeZ s r v).bins = s.bins := rfl
@[simp] theorem writeZ_nbins (s : State) (r : Fin 8) (v : C64) : (writeZ s r v).nbins = s.nbins := rfl
@[simp] theorem writeZ_ssSr (s : State) (r : Fin 8) (v : C64) : (writeZ s r v).ssSr = s.ssSr := rfl
@[simp] theorem writeZ_ma (s : State) (r : Fin 8) (v : C64) : (writeZ s r v).ma = s.ma := rfl
@[simp] theorem writeZ_tt (s : State) (r : Fin 8) (v : C64) : (writeZ s r v).tt = s.tt := rfl
@[simp] theorem writeZ_ttCount (s : State) (r : Fin 8) (v : C64) : (writeZ s r v).ttCount = s.ttCount := rfl
@[simp] theorem writeZ_batch (s : State) (r : Fin 8) (v : C64) : (writeZ s r v).batch = s.batch := rfl
@[simp] theorem writeZ_out (s : State) (r : Fin 8) (v : C64) : (writeZ s r v).out = s.out := rfl
@[simp] theorem writeZ_snap (s : State) (r : Fin 8) (v : C64) : (writeZ s r v).snap = s.snap := rfl
@[simp] theorem writeZ_turns (s : State) (r : Fin 8) (v : C64) : (writeZ s r v).turns = s.turns := rfl
@[simp] theorem writeZ_busRdata (s : State) (r : Fin 8) (v : C64) : (writeZ s r v).busRdata = s.busRdata := rfl
@[simp] theorem writeZ_freeCount (s : State) (r : Fin 8) (v : C64) : (writeZ s r v).freeCount = s.freeCount := rfl

/-- Reading a Z register after a write: the value written, and every other register as before. -/
theorem readZ_writeZ (s : State) (r q : Fin 8) (v : C64) : readZ (writeZ s r v) q = if q = r then v else readZ s q := by
  simp only [readZ, writeZ, Vector.get_eq_getElem, Vector.getElem_set]
  by_cases h : q = r
  · simp [h]
  · have : ¬ (r.val = q.val) := fun e => h (Fin.ext e.symm)
    simp [h, this]

@[simp] theorem readZ_writeZ_self (s : State) (r : Fin 8) (v : C64) : readZ (writeZ s r v) r = v := by
  simp [readZ_writeZ]

/-! ### `STATUS.BUSERR <- 1` -/

@[simp] theorem setBusErr_params (s : State) : (setBusErr s).params = s.params := rfl
@[simp] theorem setBusErr_z (s : State) : (setBusErr s).z = s.z := rfl
@[simp] theorem setBusErr_status (s : State) : (setBusErr s).status = { s.status with buserr := true } := rfl
@[simp] theorem setBusErr_errinfo (s : State) : (setBusErr s).errinfo = s.errinfo := rfl
@[simp] theorem setBusErr_ctrl (s : State) : (setBusErr s).ctrl = s.ctrl := rfl
@[simp] theorem setBusErr_cfg (s : State) : (setBusErr s).cfg = s.cfg := rfl
@[simp] theorem setBusErr_pend (s : State) : (setBusErr s).pend = s.pend := rfl
@[simp] theorem setBusErr_rb (s : State) : (setBusErr s).rb = s.rb := rfl
@[simp] theorem setBusErr_bins (s : State) : (setBusErr s).bins = s.bins := rfl
@[simp] theorem setBusErr_nbins (s : State) : (setBusErr s).nbins = s.nbins := rfl
@[simp] theorem setBusErr_ssSr (s : State) : (setBusErr s).ssSr = s.ssSr := rfl
@[simp] theorem setBusErr_ma (s : State) : (setBusErr s).ma = s.ma := rfl
@[simp] theorem setBusErr_tt (s : State) : (setBusErr s).tt = s.tt := rfl
@[simp] theorem setBusErr_ttCount (s : State) : (setBusErr s).ttCount = s.ttCount := rfl
@[simp] theorem setBusErr_batch (s : State) : (setBusErr s).batch = s.batch := rfl
@[simp] theorem setBusErr_out (s : State) : (setBusErr s).out = s.out := rfl
@[simp] theorem setBusErr_snap (s : State) : (setBusErr s).snap = s.snap := rfl
@[simp] theorem setBusErr_turns (s : State) : (setBusErr s).turns = s.turns := rfl
@[simp] theorem setBusErr_busRdata (s : State) : (setBusErr s).busRdata = s.busRdata := rfl
@[simp] theorem setBusErr_freeCount (s : State) : (setBusErr s).freeCount = s.freeCount := rfl

/-! ### A write to STATUS -/

@[simp] theorem writeStatus_params (v : Word) (s : State) : (writeStatus v s).params = s.params := rfl
@[simp] theorem writeStatus_z (v : Word) (s : State) : (writeStatus v s).z = s.z := rfl
@[simp] theorem writeStatus_errinfo (v : Word) (s : State) : (writeStatus v s).errinfo = if v.getLsbD 2 then 0 else s.errinfo := rfl
@[simp] theorem writeStatus_ctrl (v : Word) (s : State) : (writeStatus v s).ctrl = s.ctrl := rfl
@[simp] theorem writeStatus_cfg (v : Word) (s : State) : (writeStatus v s).cfg = s.cfg := rfl
@[simp] theorem writeStatus_pend (v : Word) (s : State) : (writeStatus v s).pend = s.pend := rfl
@[simp] theorem writeStatus_rb (v : Word) (s : State) : (writeStatus v s).rb = s.rb := rfl
@[simp] theorem writeStatus_bins (v : Word) (s : State) : (writeStatus v s).bins = s.bins := rfl
@[simp] theorem writeStatus_nbins (v : Word) (s : State) : (writeStatus v s).nbins = s.nbins := rfl
@[simp] theorem writeStatus_ssSr (v : Word) (s : State) : (writeStatus v s).ssSr = s.ssSr := rfl
@[simp] theorem writeStatus_ma (v : Word) (s : State) : (writeStatus v s).ma = s.ma := rfl
@[simp] theorem writeStatus_tt (v : Word) (s : State) : (writeStatus v s).tt = s.tt := rfl
@[simp] theorem writeStatus_ttCount (v : Word) (s : State) : (writeStatus v s).ttCount = s.ttCount := rfl
@[simp] theorem writeStatus_batch (v : Word) (s : State) : (writeStatus v s).batch = s.batch := rfl
@[simp] theorem writeStatus_out (v : Word) (s : State) : (writeStatus v s).out = s.out := rfl
@[simp] theorem writeStatus_snap (v : Word) (s : State) : (writeStatus v s).snap = s.snap := rfl
@[simp] theorem writeStatus_turns (v : Word) (s : State) : (writeStatus v s).turns = s.turns := rfl
@[simp] theorem writeStatus_busRdata (v : Word) (s : State) : (writeStatus v s).busRdata = s.busRdata := rfl
@[simp] theorem writeStatus_freeCount (v : Word) (s : State) : (writeStatus v s).freeCount = s.freeCount := rfl

/-! ### A command that completed -/

@[simp] theorem completed_params (s : State) : (completed s).params = s.params := rfl
@[simp] theorem completed_z (s : State) : (completed s).z = s.z := rfl
@[simp] theorem completed_status (s : State) : (completed s).status = { s.status with done := true } := rfl
@[simp] theorem completed_errinfo (s : State) : (completed s).errinfo = s.errinfo := rfl
@[simp] theorem completed_ctrl (s : State) : (completed s).ctrl = s.ctrl := rfl
@[simp] theorem completed_cfg (s : State) : (completed s).cfg = s.cfg := rfl
@[simp] theorem completed_pend (s : State) : (completed s).pend = none := rfl
@[simp] theorem completed_rb (s : State) : (completed s).rb = s.rb := rfl
@[simp] theorem completed_bins (s : State) : (completed s).bins = s.bins := rfl
@[simp] theorem completed_nbins (s : State) : (completed s).nbins = s.nbins := rfl
@[simp] theorem completed_ssSr (s : State) : (completed s).ssSr = s.ssSr := rfl
@[simp] theorem completed_ma (s : State) : (completed s).ma = s.ma := rfl
@[simp] theorem completed_tt (s : State) : (completed s).tt = s.tt := rfl
@[simp] theorem completed_ttCount (s : State) : (completed s).ttCount = s.ttCount := rfl
@[simp] theorem completed_batch (s : State) : (completed s).batch = s.batch := rfl
@[simp] theorem completed_out (s : State) : (completed s).out = s.out := rfl
@[simp] theorem completed_snap (s : State) : (completed s).snap = s.snap := rfl
@[simp] theorem completed_turns (s : State) : (completed s).turns = s.turns := rfl
@[simp] theorem completed_busRdata (s : State) : (completed s).busRdata = s.busRdata := rfl
@[simp] theorem completed_freeCount (s : State) : (completed s).freeCount = s.freeCount := rfl

/-! ### A command that raised the first error -/

@[simp] theorem failedFirst_params (c : ErrCode) (w : Word) (s : State) : (failedFirst c w s).params = s.params := rfl
@[simp] theorem failedFirst_z (c : ErrCode) (w : Word) (s : State) : (failedFirst c w s).z = s.z := rfl
@[simp] theorem failedFirst_status (c : ErrCode) (w : Word) (s : State) : (failedFirst c w s).status = { s.status with done := true, err := true, errcode := c } := rfl
@[simp] theorem failedFirst_errinfo (c : ErrCode) (w : Word) (s : State) : (failedFirst c w s).errinfo = w := rfl
@[simp] theorem failedFirst_ctrl (c : ErrCode) (w : Word) (s : State) : (failedFirst c w s).ctrl = s.ctrl := rfl
@[simp] theorem failedFirst_cfg (c : ErrCode) (w : Word) (s : State) : (failedFirst c w s).cfg = s.cfg := rfl
@[simp] theorem failedFirst_pend (c : ErrCode) (w : Word) (s : State) : (failedFirst c w s).pend = none := rfl
@[simp] theorem failedFirst_rb (c : ErrCode) (w : Word) (s : State) : (failedFirst c w s).rb = s.rb := rfl
@[simp] theorem failedFirst_bins (c : ErrCode) (w : Word) (s : State) : (failedFirst c w s).bins = s.bins := rfl
@[simp] theorem failedFirst_nbins (c : ErrCode) (w : Word) (s : State) : (failedFirst c w s).nbins = s.nbins := rfl
@[simp] theorem failedFirst_ssSr (c : ErrCode) (w : Word) (s : State) : (failedFirst c w s).ssSr = s.ssSr := rfl
@[simp] theorem failedFirst_ma (c : ErrCode) (w : Word) (s : State) : (failedFirst c w s).ma = s.ma := rfl
@[simp] theorem failedFirst_tt (c : ErrCode) (w : Word) (s : State) : (failedFirst c w s).tt = s.tt := rfl
@[simp] theorem failedFirst_ttCount (c : ErrCode) (w : Word) (s : State) : (failedFirst c w s).ttCount = s.ttCount := rfl
@[simp] theorem failedFirst_batch (c : ErrCode) (w : Word) (s : State) : (failedFirst c w s).batch = s.batch := rfl
@[simp] theorem failedFirst_out (c : ErrCode) (w : Word) (s : State) : (failedFirst c w s).out = s.out := rfl
@[simp] theorem failedFirst_snap (c : ErrCode) (w : Word) (s : State) : (failedFirst c w s).snap = s.snap := rfl
@[simp] theorem failedFirst_turns (c : ErrCode) (w : Word) (s : State) : (failedFirst c w s).turns = s.turns := rfl
@[simp] theorem failedFirst_busRdata (c : ErrCode) (w : Word) (s : State) : (failedFirst c w s).busRdata = s.busRdata := rfl
@[simp] theorem failedFirst_freeCount (c : ErrCode) (w : Word) (s : State) : (failedFirst c w s).freeCount = s.freeCount := rfl

/-! ### A command that raised a later error -/

@[simp] theorem failedAgain_params (s : State) : (failedAgain s).params = s.params := rfl
@[simp] theorem failedAgain_z (s : State) : (failedAgain s).z = s.z := rfl
@[simp] theorem failedAgain_status (s : State) : (failedAgain s).status = { s.status with done := true, errovf := true } := rfl
@[simp] theorem failedAgain_errinfo (s : State) : (failedAgain s).errinfo = s.errinfo := rfl
@[simp] theorem failedAgain_ctrl (s : State) : (failedAgain s).ctrl = s.ctrl := rfl
@[simp] theorem failedAgain_cfg (s : State) : (failedAgain s).cfg = s.cfg := rfl
@[simp] theorem failedAgain_pend (s : State) : (failedAgain s).pend = none := rfl
@[simp] theorem failedAgain_rb (s : State) : (failedAgain s).rb = s.rb := rfl
@[simp] theorem failedAgain_bins (s : State) : (failedAgain s).bins = s.bins := rfl
@[simp] theorem failedAgain_nbins (s : State) : (failedAgain s).nbins = s.nbins := rfl
@[simp] theorem failedAgain_ssSr (s : State) : (failedAgain s).ssSr = s.ssSr := rfl
@[simp] theorem failedAgain_ma (s : State) : (failedAgain s).ma = s.ma := rfl
@[simp] theorem failedAgain_tt (s : State) : (failedAgain s).tt = s.tt := rfl
@[simp] theorem failedAgain_ttCount (s : State) : (failedAgain s).ttCount = s.ttCount := rfl
@[simp] theorem failedAgain_batch (s : State) : (failedAgain s).batch = s.batch := rfl
@[simp] theorem failedAgain_out (s : State) : (failedAgain s).out = s.out := rfl
@[simp] theorem failedAgain_snap (s : State) : (failedAgain s).snap = s.snap := rfl
@[simp] theorem failedAgain_turns (s : State) : (failedAgain s).turns = s.turns := rfl
@[simp] theorem failedAgain_busRdata (s : State) : (failedAgain s).busRdata = s.busRdata := rfl
@[simp] theorem failedAgain_freeCount (s : State) : (failedAgain s).freeCount = s.freeCount := rfl

/-! ### A reset -/

@[simp] theorem applyReset_params (s : State) : (applyReset s).params = s.params := rfl
@[simp] theorem applyReset_z (s : State) : (applyReset s).z = State.reset.z := rfl
@[simp] theorem applyReset_status (s : State) : (applyReset s).status = State.reset.status := rfl
@[simp] theorem applyReset_errinfo (s : State) : (applyReset s).errinfo = State.reset.errinfo := rfl
@[simp] theorem applyReset_ctrl (s : State) : (applyReset s).ctrl = State.reset.ctrl := rfl
@[simp] theorem applyReset_cfg (s : State) : (applyReset s).cfg = State.reset.cfg := rfl
@[simp] theorem applyReset_pend (s : State) : (applyReset s).pend = State.reset.pend := rfl
@[simp] theorem applyReset_rb (s : State) : (applyReset s).rb = State.reset.rb := rfl
@[simp] theorem applyReset_bins (s : State) : (applyReset s).bins = State.reset.bins := rfl
@[simp] theorem applyReset_nbins (s : State) : (applyReset s).nbins = State.reset.nbins := rfl
@[simp] theorem applyReset_ssSr (s : State) : (applyReset s).ssSr = State.reset.ssSr := rfl
@[simp] theorem applyReset_ma (s : State) : (applyReset s).ma = State.reset.ma := rfl
@[simp] theorem applyReset_tt (s : State) : (applyReset s).tt = State.reset.tt := rfl
@[simp] theorem applyReset_ttCount (s : State) : (applyReset s).ttCount = State.reset.ttCount := rfl
@[simp] theorem applyReset_batch (s : State) : (applyReset s).batch = State.reset.batch := rfl
@[simp] theorem applyReset_out (s : State) : (applyReset s).out = State.reset.out := rfl
@[simp] theorem applyReset_snap (s : State) : (applyReset s).snap = State.reset.snap := rfl
@[simp] theorem applyReset_turns (s : State) : (applyReset s).turns = s.turns := rfl
@[simp] theorem applyReset_busRdata (s : State) : (applyReset s).busRdata = s.busRdata := rfl
@[simp] theorem applyReset_freeCount (s : State) : (applyReset s).freeCount = s.freeCount := rfl

/-! ### Step 1 of PROCESS -/

@[simp] theorem setTarget_params (s : State) : (setTarget s).params = s.params := rfl
@[simp] theorem setTarget_z (s : State) : (setTarget s).z = s.z := rfl
@[simp] theorem setTarget_status (s : State) : (setTarget s).status =
      { s.status with wclamp := s.status.wclamp || (conv (fmul s.cfg.winSeconds s.ssSr) (targetBound s.ma)).2 } := rfl
@[simp] theorem setTarget_errinfo (s : State) : (setTarget s).errinfo = s.errinfo := rfl
@[simp] theorem setTarget_ctrl (s : State) : (setTarget s).ctrl = s.ctrl := rfl
@[simp] theorem setTarget_cfg (s : State) : (setTarget s).cfg = s.cfg := rfl
@[simp] theorem setTarget_pend (s : State) : (setTarget s).pend = s.pend := rfl
@[simp] theorem setTarget_rb (s : State) : (setTarget s).rb = s.rb := rfl
@[simp] theorem setTarget_bins (s : State) : (setTarget s).bins = s.bins := rfl
@[simp] theorem setTarget_nbins (s : State) : (setTarget s).nbins = s.nbins := rfl
@[simp] theorem setTarget_ssSr (s : State) : (setTarget s).ssSr = s.ssSr := rfl
@[simp] theorem setTarget_ma (s : State) : (setTarget s).ma = { s.ma with tgt := BitVec.ofNat 64 (conv (fmul s.cfg.winSeconds s.ssSr) (targetBound s.ma)).1 } := rfl
@[simp] theorem setTarget_tt (s : State) : (setTarget s).tt = s.tt := rfl
@[simp] theorem setTarget_ttCount (s : State) : (setTarget s).ttCount = s.ttCount := rfl
@[simp] theorem setTarget_batch (s : State) : (setTarget s).batch = s.batch := rfl
@[simp] theorem setTarget_out (s : State) : (setTarget s).out = s.out := rfl
@[simp] theorem setTarget_snap (s : State) : (setTarget s).snap = s.snap := rfl
@[simp] theorem setTarget_turns (s : State) : (setTarget s).turns = s.turns := rfl
@[simp] theorem setTarget_busRdata (s : State) : (setTarget s).busRdata = s.busRdata := rfl
@[simp] theorem setTarget_freeCount (s : State) : (setTarget s).freeCount = s.freeCount := rfl

/-! ### Step 2a of PROCESS -/

@[simp] theorem takeSample_params (s : State) (i : Nat) : (takeSample s i).params = s.params := rfl
@[simp] theorem takeSample_z (s : State) (i : Nat) : (takeSample s i).z = s.z := rfl
@[simp] theorem takeSample_status (s : State) (i : Nat) : (takeSample s i).status = s.status := rfl
@[simp] theorem takeSample_errinfo (s : State) (i : Nat) : (takeSample s i).errinfo = s.errinfo := rfl
@[simp] theorem takeSample_ctrl (s : State) (i : Nat) : (takeSample s i).ctrl = s.ctrl := rfl
@[simp] theorem takeSample_cfg (s : State) (i : Nat) : (takeSample s i).cfg = s.cfg := rfl
@[simp] theorem takeSample_pend (s : State) (i : Nat) : (takeSample s i).pend = s.pend := rfl
@[simp] theorem takeSample_rb (s : State) (i : Nat) : (takeSample s i).rb = ringWrite s.rb (Memory.read 0 s.batch i) := rfl
@[simp] theorem takeSample_bins (s : State) (i : Nat) : (takeSample s i).bins = s.bins := rfl
@[simp] theorem takeSample_nbins (s : State) (i : Nat) : (takeSample s i).nbins = s.nbins := rfl
@[simp] theorem takeSample_ssSr (s : State) (i : Nat) : (takeSample s i).ssSr = s.ssSr := rfl
@[simp] theorem takeSample_ma (s : State) (i : Nat) : (takeSample s i).ma = s.ma := rfl
@[simp] theorem takeSample_tt (s : State) (i : Nat) : (takeSample s i).tt = s.tt := rfl
@[simp] theorem takeSample_ttCount (s : State) (i : Nat) : (takeSample s i).ttCount = s.ttCount := rfl
@[simp] theorem takeSample_batch (s : State) (i : Nat) : (takeSample s i).batch = Memory.write 0 s.batch i 0 := rfl
@[simp] theorem takeSample_out (s : State) (i : Nat) : (takeSample s i).out = s.out := rfl
@[simp] theorem takeSample_snap (s : State) (i : Nat) : (takeSample s i).snap = s.snap := rfl
@[simp] theorem takeSample_turns (s : State) (i : Nat) : (takeSample s i).turns = s.turns := rfl
@[simp] theorem takeSample_busRdata (s : State) (i : Nat) : (takeSample s i).busRdata = s.busRdata := rfl
@[simp] theorem takeSample_freeCount (s : State) (i : Nat) : (takeSample s i).freeCount = s.freeCount := rfl

/-! ### Step 2b of PROCESS -/

@[simp] theorem binSample_params (x : F64) (s : State) (b : Nat) : (binSample x s b).params = s.params := rfl
@[simp] theorem binSample_z (x : F64) (s : State) (b : Nat) : (binSample x s b).z = s.z := rfl
@[simp] theorem binSample_status (x : F64) (s : State) (b : Nat) : (binSample x s b).status = s.status := rfl
@[simp] theorem binSample_errinfo (x : F64) (s : State) (b : Nat) : (binSample x s b).errinfo = s.errinfo := rfl
@[simp] theorem binSample_ctrl (x : F64) (s : State) (b : Nat) : (binSample x s b).ctrl = s.ctrl := rfl
@[simp] theorem binSample_cfg (x : F64) (s : State) (b : Nat) : (binSample x s b).cfg = s.cfg := rfl
@[simp] theorem binSample_pend (x : F64) (s : State) (b : Nat) : (binSample x s b).pend = s.pend := rfl
@[simp] theorem binSample_rb (x : F64) (s : State) (b : Nat) : (binSample x s b).rb = s.rb := rfl
@[simp] theorem binSample_bins (x : F64) (s : State) (b : Nat) : (binSample x s b).bins =
      Memory.write Bin.reset s.bins b (binUpdate (ringRead s.rb ((readBin s b).n.setWidth 64)) x (readBin s b)) := by simp only [binSample]
@[simp] theorem binSample_nbins (x : F64) (s : State) (b : Nat) : (binSample x s b).nbins = s.nbins := rfl
@[simp] theorem binSample_ssSr (x : F64) (s : State) (b : Nat) : (binSample x s b).ssSr = s.ssSr := rfl
@[simp] theorem binSample_ma (x : F64) (s : State) (b : Nat) : (binSample x s b).ma = s.ma := rfl
@[simp] theorem binSample_tt (x : F64) (s : State) (b : Nat) : (binSample x s b).tt = s.tt := rfl
@[simp] theorem binSample_ttCount (x : F64) (s : State) (b : Nat) : (binSample x s b).ttCount = s.ttCount := rfl
@[simp] theorem binSample_batch (x : F64) (s : State) (b : Nat) : (binSample x s b).batch = s.batch := rfl
@[simp] theorem binSample_out (x : F64) (s : State) (b : Nat) : (binSample x s b).out =
      Memory.write 0 s.out b (level (binUpdate (ringRead s.rb ((readBin s b).n.setWidth 64)) x (readBin s b))) := by simp only [binSample]
@[simp] theorem binSample_snap (x : F64) (s : State) (b : Nat) : (binSample x s b).snap = s.snap := rfl
@[simp] theorem binSample_turns (x : F64) (s : State) (b : Nat) : (binSample x s b).turns = s.turns := rfl
@[simp] theorem binSample_busRdata (x : F64) (s : State) (b : Nat) : (binSample x s b).busRdata = s.busRdata := rfl
@[simp] theorem binSample_freeCount (x : F64) (s : State) (b : Nat) : (binSample x s b).freeCount = s.freeCount := rfl

/-! ### construct() -/

@[simp] theorem construct_params (p : Plan) (s : State) : (construct p s).params = s.params := rfl
@[simp] theorem construct_z (p : Plan) (s : State) : (construct p s).z = s.z := rfl
@[simp] theorem construct_status (p : Plan) (s : State) : (construct p s).status = { s.status with init := true } := rfl
@[simp] theorem construct_errinfo (p : Plan) (s : State) : (construct p s).errinfo = s.errinfo := rfl
@[simp] theorem construct_ctrl (p : Plan) (s : State) : (construct p s).ctrl = s.ctrl := rfl
@[simp] theorem construct_cfg (p : Plan) (s : State) : (construct p s).cfg = s.cfg := rfl
@[simp] theorem construct_pend (p : Plan) (s : State) : (construct p s).pend = s.pend := rfl
@[simp] theorem construct_rb (p : Plan) (s : State) : (construct p s).rb =
      { mem := Memory.clear s.rb.mem (fun i => decide (i < p.cap)), wc := 0, cap := BitVec.ofNat 64 p.cap } := rfl
@[simp] theorem construct_bins (p : Plan) (s : State) : (construct p s).bins = constructBins s.tt s.ttCount.toNat s.params.maxBins s.bins := rfl
@[simp] theorem construct_nbins (p : Plan) (s : State) : (construct p s).nbins = s.ttCount := rfl
@[simp] theorem construct_ssSr (p : Plan) (s : State) : (construct p s).ssSr = s.cfg.sampleRate := rfl
@[simp] theorem construct_ma (p : Plan) (s : State) : (construct p s).ma = constructMa p.smoothing s.params.maxBins s.ma := rfl
@[simp] theorem construct_tt (p : Plan) (s : State) : (construct p s).tt = s.tt := rfl
@[simp] theorem construct_ttCount (p : Plan) (s : State) : (construct p s).ttCount = s.ttCount := rfl
@[simp] theorem construct_batch (p : Plan) (s : State) : (construct p s).batch = s.batch := rfl
@[simp] theorem construct_out (p : Plan) (s : State) : (construct p s).out =
      Memory.clear s.out (fun b => decide (b < s.params.maxBins)) := rfl
@[simp] theorem construct_snap (p : Plan) (s : State) : (construct p s).snap = s.snap := rfl
@[simp] theorem construct_turns (p : Plan) (s : State) : (construct p s).turns = s.turns := rfl
@[simp] theorem construct_busRdata (p : Plan) (s : State) : (construct p s).busRdata = s.busRdata := rfl
@[simp] theorem construct_freeCount (p : Plan) (s : State) : (construct p s).freeCount = s.freeCount := rfl

end Sys2Proof.Machine
end

