-- ==== Sys2Proof/Laws/Ops.lean ====
section
/-! SUPPORT. What each shared operation can do, said once: the end of a command, the error record, the rings, the
windows, the table loops. A proof about a command cites these and unfolds none of the operations. -/

namespace Sys2Proof.Machine

/-! ### The end of a command (60_exceptions.md R463) -/

/-- A recorded error: the first is kept, a later one sets only ERROVF. -/
theorem recordError_eq (c : ErrCode) (w : Word) (s : State) :
    recordError c w s = if s.status.err then { s with status := { s.status with errovf := true } }
      else { s with status := { s.status with err := true, errcode := c }, errinfo := w } := rfl

@[simp] theorem complete_eNone (w : Word) (s : State) : complete .eNone w s = completed s := by
  simp [complete, completed]

theorem complete_of_ne {c : ErrCode} (h : c ≠ .eNone) (w : Word) (s : State) : complete c w s = failed c w s := by
  unfold complete failed recordError failedFirst failedAgain
  cases hs : s.status.err <;> simp [h]

@[simp] theorem finish_eq (s : State) : finish s = .next (completed s) := by
  simp [finish]

theorem raise_eq {c : ErrCode} (h : c ≠ .eNone) (w : Word) (s : State) : raise c w s = .next (failed c w s) := by
  simp [raise, complete_of_ne h]

theorem raiseReserved_eq {s : State} {w : Word} (h : s.pend = some w) :
    raiseReserved s = .next (failed .eReserved w s) := by
  simp [raiseReserved, h, raise_eq]

/-- Whatever code it ends with, a completion clears PEND, sets DONE, and of the rest changes only the error record. -/
theorem complete_frame (c : ErrCode) (w : Word) (s : State) :
    complete c w s = { s with
      pend := none
      errinfo := (complete c w s).errinfo
      status := { s.status with
        done := true
        err := (complete c w s).status.err
        errovf := (complete c w s).status.errovf
        errcode := (complete c w s).status.errcode } } := by
  unfold complete recordError
  split
  · rfl
  · split <;> rfl

/-- A failed command changes only PEND, DONE and the error record. -/
theorem failed_frame (c : ErrCode) (w : Word) (s : State) :
    failed c w s = { s with
      pend := none
      errinfo := (failed c w s).errinfo
      status := { s.status with
        done := true
        err := true
        errovf := (failed c w s).status.errovf
        errcode := (failed c w s).status.errcode } } := by
  unfold failed failedAgain failedFirst
  cases h : s.status.err <;> simp [h]

/-! ### Rings (41_ring_buffer.md) -/

@[simp] theorem ringWrite_wc (r : Ring) (v : F64) : (ringWrite r v).wc = r.wc + 1 := rfl
@[simp] theorem ringWrite_cap (r : Ring) (v : F64) : (ringWrite r v).cap = r.cap := rfl
@[simp] theorem ringWrite_mem (r : Ring) (v : F64) :
    (ringWrite r v).mem = Memory.write 0 r.mem (writeSlot r.wc r.cap) v := rfl

/-- Offset 0 right after a write reads the value written. -/
theorem ringRead_ringWrite_zero (r : Ring) (v : F64) : ringRead (ringWrite r v) 0 = v := by
  have h : readSlot (r.wc + 1) r.cap 0 = writeSlot r.wc r.cap := by
    simp [readSlot, writeSlot]
  show Memory.read 0 (Memory.write 0 r.mem (writeSlot r.wc r.cap) v) (readSlot (r.wc + 1) r.cap 0) = v
  rw [h, Memory.read_write_self]

theorem writeSlot_lt {cnt cap : Word} (h : 1 ≤ cap.toNat) : writeSlot cnt cap < cap.toNat := Nat.mod_lt _ h
theorem readSlot_lt {cnt cap off : Word} (h : 1 ≤ cap.toNat) : readSlot cnt cap off < cap.toNat := Nat.mod_lt _ h

/-! ### Windows (44_moving_average.md) -/

/-- A converted window is within its bound. -/
theorem conv_le (x : F64) (hi : Nat) : (conv x hi).1 ≤ hi := by
  unfold conv
  split
  · exact Nat.zero_le _
  split
  · exact Nat.zero_le _
  split
  · exact Nat.le_refl _
  dsimp only
  split
  · exact Nat.le_refl _
  · exact Nat.le_of_not_lt ‹_›

/-- The ramp touches the window alone. -/
theorem ramp_frame (ma : MovAvg) : ramp ma = { ma with cur := (ramp ma).cur } := by
  unfold ramp
  split
  · rfl
  split <;> rfl

/-- A Fast update touches the sums and the window. -/
theorem fastUpdate_frame (k : Nat) (levels : Memory F64) (ma : MovAvg) :
    fastUpdate k levels ma = { ma with
      cur := (fastUpdate k levels ma).cur, sum := (fastUpdate k levels ma).sum } := by
  have h : ∀ l : List Nat, ∀ m : MovAvg, l.foldl (fastChannel levels) m =
      { m with sum := (l.foldl (fastChannel levels) m).sum } := by
    intro l
    induction l with
    | nil => intro m; rfl
    | cons x l ih => intro m; rw [List.foldl_cons, ih]; rfl
  unfold fastUpdate
  rw [ramp_frame, h]

/-- A Heavy update touches the sums, the channel rings, their counter and the window. -/
theorem heavyUpdate_frame (k : Nat) (levels : Memory F64) (ma : MovAvg) :
    heavyUpdate k levels ma = { ma with
      cur := (heavyUpdate k levels ma).cur, sum := (heavyUpdate k levels ma).sum,
      h := (heavyUpdate k levels ma).h, hwc := ma.hwc + 1 } := by
  have h : ∀ l : List Nat, ∀ m : MovAvg, l.foldl (heavyChannel levels) m =
      { m with sum := (l.foldl (heavyChannel levels) m).sum, h := (l.foldl (heavyChannel levels) m).h } := by
    intro l
    induction l with
    | nil => intro m; rfl
    | cons x l ih => intro m; rw [List.foldl_cons, ih]; rfl
  unfold heavyUpdate
  rw [ramp_frame, h]

/-- An update of the moving average keeps its mode, its target, its bound and its capacity. -/
theorem maUpdate_keeps (k : Nat) (levels : Memory F64) (ma : MovAvg) :
    (maUpdate k levels ma).mode = ma.mode ∧ (maUpdate k levels ma).tgt = ma.tgt ∧
    (maUpdate k levels ma).wmax = ma.wmax ∧ (maUpdate k levels ma).cap = ma.cap := by
  unfold maUpdate
  split
  · simp
  · rw [fastUpdate_frame]; simp
  · rw [heavyUpdate_frame]; simp

/-! ### Table loops -/

/-- checkTable finds nothing exactly where no entry fails. -/
theorem checkTable_none (tt : Memory TTEntry) (todo b : Nat) :
    checkTable tt todo b = none ↔
      ∀ i, b ≤ i → i < b + todo → checkEntry (Memory.read TTEntry.reset tt i) = none := by
  induction todo generalizing b with
  | zero => simp only [checkTable, true_iff]; intro i h h'; omega
  | succ n ih =>
    unfold checkTable
    cases hc : checkEntry (Memory.read TTEntry.reset tt b) with
    | some code =>
      simp only [reduceCtorEq, false_iff, not_forall]
      exact ⟨b, Nat.le_refl _, by omega, by simp [hc]⟩
    | none =>
      simp only [ih]
      constructor
      · intro h i h1 h2
        by_cases he : i = b
        · exact he ▸ hc
        · exact h i (by omega) (by omega)
      · intro h i h1 h2
        exact h i (by omega) (by omega)

/-- checkTable answers the first failing entry. -/
theorem checkTable_some (tt : Memory TTEntry) (todo b : Nat) (e : ErrCode × Word) :
    checkTable tt todo b = some e ↔
      ∃ i code, b ≤ i ∧ i < b + todo ∧ checkEntry (Memory.read TTEntry.reset tt i) = some code ∧
        (∀ a, b ≤ a → a < i → checkEntry (Memory.read TTEntry.reset tt a) = none) ∧ e = (code, BitVec.ofNat 64 i) := by
  induction todo generalizing b with
  | zero =>
    simp only [checkTable, reduceCtorEq, false_iff]
    rintro ⟨i, code, h1, h2, -⟩
    omega
  | succ n ih =>
    unfold checkTable
    cases hc : checkEntry (Memory.read TTEntry.reset tt b) with
    | some code =>
      simp only [Option.some.injEq]
      constructor
      · rintro rfl
        exact ⟨b, code, Nat.le_refl _, by omega, hc, fun a h1 h2 => by omega, rfl⟩
      · rintro ⟨i, code', h1, h2, h3, h4, rfl⟩
        by_cases he : i = b
        · subst he
          simp_all
        · have := h4 b (Nat.le_refl _) (by omega)
          simp_all
    | none =>
      simp only [ih]
      constructor
      · rintro ⟨i, code, h1, h2, h3, h4, rfl⟩
        refine ⟨i, code, by omega, by omega, h3, fun a h5 h6 => ?_, rfl⟩
        by_cases he : a = b
        · exact he ▸ hc
        · exact h4 a (by omega) h6
      · rintro ⟨i, code, h1, h2, h3, h4, rfl⟩
        by_cases he : i = b
        · subst he
          simp_all
        · exact ⟨i, code, by omega, by omega, h3, fun a h5 h6 => h4 a (by omega) h6, rfl⟩

/-- TM_BUILD's loop: it ends at the first key without an entry or at the last key; the entries before that are written
and every other entry is as before. -/
theorem tmLoop_spec (c : Cfg) (todo j : Nat) (tt : Memory TTEntry) :
    ∃ n ≤ todo,
      (∀ i, j ≤ i → i < j + n → tmEntry c i = .ok (Memory.read TTEntry.reset (tmLoop c todo j tt).1 i)) ∧
      (∀ i, i < j ∨ j + n ≤ i →
        Memory.read TTEntry.reset (tmLoop c todo j tt).1 i = Memory.read TTEntry.reset tt i) ∧
      ((tmLoop c todo j tt).2 = none ∧ n = todo ∨
        n < todo ∧ ∃ code, tmEntry c (j + n) = .error code ∧
          (tmLoop c todo j tt).2 = some (code, BitVec.ofNat 64 (j + n))) := by
  induction todo generalizing j tt with
  | zero => exact ⟨0, Nat.le_refl _, fun i h h' => by omega, fun i _ => by rw [tmLoop], .inl ⟨by rw [tmLoop], rfl⟩⟩
  | succ todo ih =>
    cases he : tmEntry c j with
    | error code =>
      simp only [tmLoop, he]
      refine ⟨0, Nat.zero_le _, fun i h h' => by omega, fun i _ => trivial, .inr ⟨Nat.succ_pos _, code, ?_, ?_⟩⟩
      · rw [Nat.add_zero, he]
      · rw [Nat.add_zero]
    | ok e =>
      simp only [tmLoop, he]
      obtain ⟨n, hn, h1, h2, h3⟩ := ih (j + 1) (Memory.write TTEntry.reset tt j e)
      refine ⟨n + 1, by omega, fun i hi hi' => ?_, fun i hi => ?_, ?_⟩
      · by_cases hij : i = j
        · subst hij
          rw [h2 i (.inl (by omega)), Memory.read_write_self, he]
        · exact h1 i (by omega) (by omega)
      · rw [h2 i (by omega), Memory.read_write_ne _ _ _ (by omega)]
      · rcases h3 with ⟨h3, rfl⟩ | ⟨h3, code, h4, h5⟩
        · exact .inl ⟨h3, rfl⟩
        · refine .inr ⟨by omega, code, ?_, ?_⟩
          · rw [← h4]; congr 1; omega
          · rw [h5]; congr 3; omega

end Sys2Proof.Machine
end

