-- ==== Sys2Proof/Laws/PerInstr.lean ====
section
/-! SUPPORT. A statement about every command, one lemma per constructor: its word carries its own opcode and a zero
upper half (30_encoding.md R140, R148). -/

namespace Sys2Proof.Laws.EncodeOpcode

/-- The opcode of each command (30_encoding.md R148). -/
def opcode : Instr → BitVec 8
  | .nop => 0x00
  | .reset => 0x01
  | .cadd .. => 0x10
  | .csub .. => 0x11
  | .cmul .. => 0x12
  | .cexp .. => 0x13
  | .cmag .. => 0x14
  | .rbRd .. => 0x20
  | .binRd .. => 0x21
  | .maRd .. => 0x22
  | .tmK2f .. => 0x30
  | .tmBuild => 0x31
  | .ssInit => 0x40
  | .process .. => 0x41
  | .snap => 0x42

/-- A command's bus word has its opcode in bits 7..0 and zeros in bits 63..32. -/
def Statement (i : Instr) : Prop :=
  (encode i).extractLsb' 0 8 = opcode i ∧ (encode i).extractLsb' 32 32 = 0

/-- The two halves of a bus word whose upper half is 0 and whose lower byte is an opcode. -/
theorem halves (a : BitVec 24) (c : BitVec 8) :
    (0#32 ++ (a ++ c)).extractLsb' 0 8 = c ∧ (0#32 ++ (a ++ c)).extractLsb' 32 32 = 0#32 := by
  have hc := c.isLt
  have ha := a.isLt
  have h : (0#32 ++ (a ++ c)).toNat = a.toNat * 2 ^ 8 + c.toNat := by
    rw [BitVec.toNat_append, BitVec.toNat_append, ← Nat.shiftLeft_add_eq_or_of_lt hc, Nat.shiftLeft_eq]
    simp [Nat.shiftLeft_eq]
  constructor <;> apply BitVec.eq_of_toNat_eq <;>
    rw [BitVec.extractLsb'_toNat, h, Nat.shiftRight_eq_div_pow] <;> simp <;> omega

theorem nop : Statement (.nop) := by
  exact halves _ _

theorem reset : Statement (.reset) := by
  exact halves _ _

theorem cadd (zd za zb : Fin 8) : Statement (.cadd zd za zb) := by
  exact halves _ _

theorem csub (zd za zb : Fin 8) : Statement (.csub zd za zb) := by
  exact halves _ _

theorem cmul (zd za zb : Fin 8) : Statement (.cmul zd za zb) := by
  exact halves _ _

theorem cexp (zd za : Fin 8) : Statement (.cexp zd za) := by
  exact halves _ _

theorem cmag (zd za : Fin 8) : Statement (.cmag zd za) := by
  exact halves _ _

theorem rbRd (zd : Fin 8) (off : BitVec 18) : Statement (.rbRd zd off) := by
  exact halves _ _

theorem binRd (zd : Fin 8) (sel : BitVec 3) (idx : BitVec 18) : Statement (.binRd zd sel idx) := by
  exact halves _ _

theorem maRd (zd : Fin 8) (sel : BitVec 3) (ch : BitVec 18) : Statement (.maRd zd sel ch) := by
  exact halves _ _

theorem tmK2f (zd za : Fin 8) : Statement (.tmK2f zd za) := by
  exact halves _ _

theorem tmBuild : Statement (.tmBuild) := by
  exact halves _ _

theorem ssInit : Statement (.ssInit) := by
  exact halves _ _

theorem process (len : BitVec 24) : Statement (.process len) := by
  exact halves _ _

theorem snap : Statement (.snap) := by
  exact halves _ _

end Sys2Proof.Laws.EncodeOpcode
end

