-- ==== Sys2Proof/Laws/Sequencer.lean ====
section
/-! SUPPORT. What PROCESS, SS_INIT and SNAP touch, and what the loop over the bins leaves. -/

namespace Sys2Proof.Machine

/-- The loop over the bins touches the bins and OUT. -/
theorem foldl_binSample_frame (x : F64) (l : List Nat) (s : State) :
    l.foldl (binSample x) s = { s with
      bins := (l.foldl (binSample x) s).bins, out := (l.foldl (binSample x) s).out } := by
  induction l generalizing s with
  | nil => rfl
  | cons b l ih => rw [List.foldl_cons, ih]; rfl

/-- The loop over the bins below k: each is updated once, from its own state before, and OUT holds its new level. -/
theorem foldl_binSample_read (x : F64) (k : Nat) (s : State) (b : Nat) :
    readBin ((List.range k).foldl (binSample x) s) b =
      (if b < k then binUpdate (ringRead s.rb ((readBin s b).n.setWidth 64)) x (readBin s b) else readBin s b) ∧
    Memory.read 0 ((List.range k).foldl (binSample x) s).out b =
      (if b < k then level (binUpdate (ringRead s.rb ((readBin s b).n.setWidth 64)) x (readBin s b))
       else Memory.read 0 s.out b) := by
  induction k with
  | zero => simp
  | succ k ih =>
    rw [List.range_succ, List.foldl_append, List.foldl_cons, List.foldl_nil]
    have hrb : ((List.range k).foldl (binSample x) s).rb = s.rb := by rw [foldl_binSample_frame]
    by_cases hb : b = k
    · subst hb
      simp only [Nat.lt_irrefl, if_false] at ih
      have h1 : readBin (binSample x ((List.range b).foldl (binSample x) s) b) b =
          binUpdate (ringRead s.rb ((readBin s b).n.setWidth 64)) x (readBin s b) := by
        conv_lhs => unfold readBin
        rw [binSample_bins, Memory.read_write_self, hrb, ih.1]
      refine ⟨by simp [h1], ?_⟩
      rw [binSample_out, Memory.read_write_self, hrb, ih.1]
      simp
    · have h1 : readBin (binSample x ((List.range k).foldl (binSample x) s) k) b =
          readBin ((List.range k).foldl (binSample x) s) b := by
        unfold readBin
        rw [binSample_bins, Memory.read_write_ne _ _ _ hb]
      rw [h1, binSample_out, Memory.read_write_ne _ _ _ hb, ih.1, ih.2]
      by_cases hk : b < k
      · simp [hk, Nat.lt_succ_of_lt hk]
      · have : ¬ b < k + 1 := by omega
        simp [hk, this]

theorem processTarget_frame (s : State) :
    processTarget s = { s with
      status := { s.status with wclamp := (processTarget s).status.wclamp }
      ma := { s.ma with tgt := (processTarget s).ma.tgt } } := by
  unfold processTarget
  split <;> rfl

theorem processSample_frame (s : State) (i : Nat) :
    processSample s i = { s with
      rb := ringWrite s.rb (Memory.read 0 s.batch i), bins := (processSample s i).bins,
      ma := (processSample s i).ma, out := (processSample s i).out, batch := Memory.write 0 s.batch i 0 } := by
  have h := foldl_binSample_frame (Memory.read 0 s.batch i) (List.range s.nbins.toNat) (takeSample s i)
  unfold processSample
  dsimp only
  generalize (List.range s.nbins.toNat).foldl (binSample (Memory.read 0 s.batch i)) (takeSample s i) = s1 at h ⊢
  rw [h]
  rfl

theorem processOut_frame (s : State) : processOut s = { s with out := (processOut s).out } := by
  unfold processOut
  split <;> rfl

/-- The samples of a batch touch RB, BIN, MA, OUT and BATCH. -/
theorem foldl_processSample_frame (l : List Nat) (s : State) :
    l.foldl processSample s = { s with
      rb := (l.foldl processSample s).rb, bins := (l.foldl processSample s).bins, ma := (l.foldl processSample s).ma,
      out := (l.foldl processSample s).out, batch := (l.foldl processSample s).batch } := by
  induction l generalizing s with
  | nil => rfl
  | cons i l ih => rw [List.foldl_cons, ih, processSample_frame]

/-- PROCESS touches RB, BIN, MA, OUT, BATCH and WCLAMP. -/
theorem processBatch_frame (len : Nat) (s : State) :
    processBatch len s = { s with
      status := { s.status with wclamp := (processBatch len s).status.wclamp }
      rb := (processBatch len s).rb, bins := (processBatch len s).bins, ma := (processBatch len s).ma,
      out := (processBatch len s).out, batch := (processBatch len s).batch } := by
  unfold processBatch
  rw [processOut_frame, foldl_processSample_frame, processTarget_frame]

/-- A copied word of SNAPBUF, and one beyond the copy. -/
theorem snapCopy_read (maxBins : Nat) (out snap : Memory F64) (b : Nat) :
    Memory.read 0 (snapCopy maxBins out snap) b =
      if b < maxBins then Memory.read 0 out b else Memory.read 0 snap b :=
  Memory.read_foldl_write 0 (fun b => Memory.read 0 out b) snap maxBins b

/-- A bin after construct(). -/
theorem constructBins_read (tt : Memory TTEntry) (k maxBins : Nat) (bins : Memory Bin) (b : Nat) :
    Memory.read Bin.reset (constructBins tt k maxBins bins) b =
      if k ≤ b ∧ b < maxBins then Bin.reset
      else if b < k then binOfEntry (Memory.read TTEntry.reset tt b) else Memory.read Bin.reset bins b := by
  unfold constructBins
  rw [Memory.read_clear, Memory.read_foldl_write Bin.reset (fun b => binOfEntry (Memory.read TTEntry.reset tt b))]
  simp

/-! ### The checks of a configuration -/

theorem rateOk_iff (x : F64) : rateOk x = true ↔ finitePositive x := by simp [rateOk]

theorem bwOk_iff (x : F64) : bwOk x = true ↔ finitePositive x := by simp [bwOk]

/-- An entry passes its checks exactly where none is the first to fail. -/
theorem checkEntry_none_iff (e : TTEntry) : checkEntry e = none ↔ entryOk e := by
  unfold checkEntry
  cases h : bwOk e.bw with
  | false =>
    have hb : ¬ finitePositive e.bw := fun hb => by simp [(bwOk_iff e.bw).2 hb] at h
    simp [entryOk, hb]
  | true =>
    have hb := (bwOk_iff e.bw).1 h
    by_cases h1 : e.nn.toNat < 1
    · have : ¬ 1 ≤ e.nn.toNat := by omega
      simp [entryOk, h1, this]
    · by_cases h2 : 2 ^ 32 - 1 < e.nn.toNat ∨ 2 ^ 32 - 1 < e.kk.toNat
      · simp only [Bool.not_true, Bool.false_eq_true, if_false, h1, h2, if_true, reduceCtorEq, false_iff, entryOk]
        omega
      · simp only [Bool.not_true, Bool.false_eq_true, if_false, h1, h2, true_iff, entryOk]
        exact ⟨hb, by omega⟩

/-- The largest NN bounds every NN. -/
theorem le_maxWindow (tt : Memory TTEntry) (k b : Nat) (h : b < k) :
    (Memory.read TTEntry.reset tt b).nn.toNat ≤ maxWindow tt k := by
  unfold maxWindow
  induction k with
  | zero => omega
  | succ k ih =>
    rw [List.range_succ, List.foldl_append, List.foldl_cons, List.foldl_nil]
    by_cases hb : b = k
    · subst hb
      exact Nat.le_max_right _ _
    · exact (ih (by omega)).trans (Nat.le_max_left _ _)

/-- The largest NN is the NN of an entry. -/
theorem maxWindow_attained (tt : Memory TTEntry) (k : Nat) (h : 1 ≤ k) :
    ∃ b < k, (Memory.read TTEntry.reset tt b).nn.toNat = maxWindow tt k := by
  induction k with
  | zero => omega
  | succ k ih =>
    have hs : maxWindow tt (k + 1) = max (maxWindow tt k) (Memory.read TTEntry.reset tt k).nn.toNat := by
      unfold maxWindow
      rw [List.range_succ, List.foldl_append, List.foldl_cons, List.foldl_nil]
    rcases Nat.lt_or_ge (maxWindow tt k) (Memory.read TTEntry.reset tt k).nn.toNat with hlt | hge
    · exact ⟨k, by omega, by omega⟩
    · rcases Nat.eq_zero_or_pos k with rfl | hk
      · have h0 : maxWindow tt 0 = 0 := rfl
        exact ⟨0, by omega, by omega⟩
      · obtain ⟨b, hb, he⟩ := ih hk
        exact ⟨b, by omega, by omega⟩

/-- maxWindow is R401's maxN. -/
theorem isLargestWindow_iff (s : State) (h : 1 ≤ s.ttCount.toNat) (n : Nat) :
    isLargestWindow s n ↔ n = maxWindow s.tt s.ttCount.toNat := by
  obtain ⟨b, hb, he⟩ := maxWindow_attained s.tt _ h
  constructor
  · rintro ⟨hle, c, hc, hn⟩
    have h1 := hle b hb
    have h2 := le_maxWindow s.tt _ c hc
    omega
  · rintro rfl
    exact ⟨fun c hc => le_maxWindow s.tt _ c hc, b, hb, he⟩

end Sys2Proof.Machine
end

