-- ==== Sys2Proof/Laws/Step.lean ====
section
/-! SUPPORT. What one step can be: the turn it takes, and what an access or a pending word leads to. -/

namespace Sys2Proof.Machine

/-- What an ENGINE step that answers `next t` did. -/
theorem engineStep_cases {s t : State} (h : engineStep s = .next t) :
    (s.pend = none ∧ t = s) ∨
    (∃ w i, s.pend = some w ∧ decode w = .ok i ∧ exec i s = .next t) ∨
    (∃ w e, s.pend = some w ∧ decode w = .error e ∧ t = failed (decodeErrCode e) w s) := by
  unfold engineStep at h
  cases hp : s.pend with
  | none =>
    rw [hp] at h
    injection h with h
    exact .inl ⟨rfl, h.symm⟩
  | some w =>
    rw [hp] at h
    cases hd : decode w with
    | ok i =>
      simp only [decodePending, hd] at h
      exact .inr (.inl ⟨w, i, rfl, hd, h⟩)
    | error e =>
      simp only [decodePending, hd, Host.Outcome.next.injEq] at h
      refine .inr (.inr ⟨w, e, rfl, hd, ?_⟩)
      rw [← h, complete_of_ne]
      cases e <;> simp [decodeErrCode]

/-- What a step that answers `next t` did: whose turn it was. -/
theorem step_cases {s t : State} (h : step s = .next t) :
    (s.turns = [] ∧ engineStep s = .next t) ∨
    (∃ ts, s.turns = .engine :: ts ∧ engineStep { s with turns := ts } = .next t) ∨
    (∃ addr be ts, s.turns = .busRead addr be :: ts ∧
      t = { (busRead addr be { s with turns := ts }).2 with
        busRdata := (busRead addr be { s with turns := ts }).1 }) ∨
    (∃ addr be v ts, s.turns = .busWrite addr be v :: ts ∧ t = busWrite addr be v { s with turns := ts }) ∨
    (∃ ts, s.turns = .hwReset :: ts ∧ t = applyReset { s with turns := ts }) := by
  unfold step at h
  cases hs : s.turns with
  | nil =>
    rw [hs] at h
    exact .inl ⟨rfl, h⟩
  | cons a ts =>
    rw [hs] at h
    cases a with
    | engine => exact .inr (.inl ⟨ts, rfl, h⟩)
    | busRead addr be =>
      injection h with h
      exact .inr (.inr (.inl ⟨addr, be, ts, rfl, h.symm⟩))
    | busWrite addr be v =>
      injection h with h
      exact .inr (.inr (.inr (.inl ⟨addr, be, v, ts, rfl, h.symm⟩)))
    | hwReset =>
      injection h with h
      exact .inr (.inr (.inr (.inr ⟨ts, rfl, h.symm⟩)))

/-- A reserved word of TT ignores a write. -/
@[simp] theorem writeLoc_reserved (b : Nat) (v : Word) (s : State) : writeLoc (.tt b .reserved) v s = s := rfl

/-- What a bus read does to the state. -/
theorem busRead_cases (addr : BitVec 32) (be : BitVec 8) (s : State) :
    (target s.params addr be = none ∧ busRead addr be s = (0, setBusErr s)) ∨
    (∃ l, target s.params addr be = some l ∧
      ((s.pend = none ∨ readableWhileBusy l = true) ∧ busRead addr be s = (readLoc l s, s) ∨
        s.pend ≠ none ∧ readableWhileBusy l = false ∧
          busRead addr be s = (Config.freeDraw s.freeCount, { s with freeCount := s.freeCount + 1 }))) := by
  unfold busRead
  cases ht : target s.params addr be with
  | none => simp
  | some l => cases hp : s.pend <;> cases hr : readableWhileBusy l <;> simp [busy, hp, hr]

/-- What a bus write does to the state. -/
theorem busWrite_cases (addr : BitVec 32) (be : BitVec 8) (v : Word) (s : State) :
    (target s.params addr be = none ∧ busWrite addr be v s = setBusErr s) ∨
    (∃ l, target s.params addr be = some l ∧
      (s.pend = none ∧ busWrite addr be v s = writeLoc l v s ∨
        s.pend ≠ none ∧ busWrite addr be v s = writeWhileBusy l v s)) := by
  unfold busWrite
  cases ht : target s.params addr be with
  | none => simp
  | some l => cases hp : s.pend <;> simp [busy, hp]

end Sys2Proof.Machine
end

