-- ==== Sys2Proof/Machine/Assembler.lean ====
section
/-! DEFINITION. The assembler syntax of 30_encoding.md R153 and the pseudo-instruction `csq` of R154: from a mnemonic
and its operands to a command, and back to text. No machine state is involved. -/

namespace Sys2Proof.Machine

/-- An operand as it is written: `z3`, a number, or a selector's name (30_encoding.md R153). -/
inductive AsmArg where
  | z (n : Nat)
  | num (n : Nat)
  | name (s : String)
  deriving DecidableEq, Repr

/-- A register `z0`-`z7`. -/
def asmReg : AsmArg → Option (Fin 8)
  | .z n => if h : n < 8 then some ⟨n, h⟩ else none
  | .num _ | .name _ => none

/-- An unsigned immediate of w bits; "an immediate out of its field's range is an assembler error" (R153). -/
def asmImm (w : Nat) : AsmArg → Option (BitVec w)
  | .num n => if n < 2 ^ w then some (BitVec.ofNat w n) else none
  | .z _ | .name _ => none

/-- SEL of `bin.rd`: a name or 0..5. -/
def asmBinSel : AsmArg → Option (BitVec 3)
  | .num n => if n ≤ 5 then some (BitVec.ofNat 3 n) else none
  | .name s =>
    if s = "dft" then some 0 else if s = "pow" then some 1 else if s = "lvl" then some 2
    else if s = "coef" then some 3 else if s = "kn" then some 4 else if s = "bands" then some 5 else none
  | .z _ => none

/-- SEL of `ma.rd`: a name or 0..1. -/
def asmMaSel : AsmArg → Option (BitVec 3)
  | .num n => if n ≤ 1 then some (BitVec.ofNat 3 n) else none
  | .name s => if s = "avg" then some 0 else if s = "sum" then some 1 else none
  | .z _ => none

/-- A three-register line. -/
def asmZZZ (f : Fin 8 → Fin 8 → Fin 8 → Instr) (d a b : AsmArg) : Option Instr :=
  (asmReg d).bind fun d => (asmReg a).bind fun a => (asmReg b).map fun b => f d a b

/-- A two-register line. -/
def asmZZ (f : Fin 8 → Fin 8 → Instr) (d a : AsmArg) : Option Instr :=
  (asmReg d).bind fun d => (asmReg a).map fun a => f d a

/-- One line of assembler (30_encoding.md R153, R154). -/
def asm (mnemonic : String) (args : List AsmArg) : Option Instr :=
  match args with
  | [] =>
    if mnemonic = "nop" then some .nop
    else if mnemonic = "reset" then some .reset
    else if mnemonic = "tm.build" then some .tmBuild
    else if mnemonic = "ss.init" then some .ssInit
    else if mnemonic = "snap" then some .snap
    else none
  | [l] => if mnemonic = "process" then (asmImm 24 l).map .process else none
  | [d, x] =>
    if mnemonic = "cexp" then asmZZ .cexp d x
    else if mnemonic = "cmag" then asmZZ .cmag d x
    else if mnemonic = "tm.k2f" then asmZZ .tmK2f d x
    else if mnemonic = "csq" then asmZZ Instr.csq d x
    else if mnemonic = "rb.rd" then (asmReg d).bind fun d => (asmImm 18 x).map fun off => .rbRd d off
    else none
  | [d, x, y] =>
    if mnemonic = "cadd" then asmZZZ .cadd d x y
    else if mnemonic = "csub" then asmZZZ .csub d x y
    else if mnemonic = "cmul" then asmZZZ .cmul d x y
    else if mnemonic = "bin.rd" then
      (asmReg d).bind fun d => (asmBinSel x).bind fun sel => (asmImm 18 y).map fun idx => .binRd d sel idx
    else if mnemonic = "ma.rd" then
      (asmReg d).bind fun d => (asmMaSel x).bind fun sel => (asmImm 18 y).map fun ch => .maRd d sel ch
    else none
  | _ => none

/-- The line that assembles to a command: its mnemonic and operands, immediates as numbers (30_encoding.md R153). -/
def asmLine : Instr → String × List AsmArg
  | .nop => ("nop", [])
  | .reset => ("reset", [])
  | .cadd d a b => ("cadd", [.z d, .z a, .z b])
  | .csub d a b => ("csub", [.z d, .z a, .z b])
  | .cmul d a b => ("cmul", [.z d, .z a, .z b])
  | .cexp d a => ("cexp", [.z d, .z a])
  | .cmag d a => ("cmag", [.z d, .z a])
  | .rbRd d off => ("rb.rd", [.z d, .num off.toNat])
  | .binRd d sel idx => ("bin.rd", [.z d, .num sel.toNat, .num idx.toNat])
  | .maRd d sel ch => ("ma.rd", [.z d, .num sel.toNat, .num ch.toNat])
  | .tmK2f d a => ("tm.k2f", [.z d, .z a])
  | .tmBuild => ("tm.build", [])
  | .ssInit => ("ss.init", [])
  | .process l => ("process", [.num l.toNat])
  | .snap => ("snap", [])

end Sys2Proof.Machine
end

