-- ==== Sys2Proof/Tests/Slice0.lean ====
section
/-! SUPPORT. Tests. Expected results come from the spec: 95_test_vectors.md, the examples of the command rules, words
written out from the formats of 30_encoding.md. A theorem `witness_<Obligation>` shows a concrete state and operands that
meet the hypotheses of that obligation, each clause's at a boundary. The kernel alone evaluates (`decide +kernel`): a
binary64 operation is too deep for the elaborator. -/

namespace Sys2Proof.Tests

open Sys2Proof Sys2Proof.Machine

set_option Elab.async false

/-! ### The states of the spec's programs -/

/-- 8.0. -/
def f8 : F64 := 0x4020000000000000
/-- 4.0. -/
def f4 : F64 := 0x4010000000000000
/-- 3.0. -/
def f3 : F64 := 0x4008000000000000
/-- 0.25. -/
def fQuarter : F64 := 0x3FD0000000000000
/-- -1.0. -/
def fMinus1 : F64 := 0xBFF0000000000000
/-- 44100.0. -/
def f44100 : F64 := 0x40E5888000000000
/-- 440.0. -/
def f440 : F64 := 0x407B800000000000

/-- The state after a command; the state itself where the command would not answer a next state. -/
def after (i : Instr) (s : State) : State :=
  match exec i s with
  | .next t => t
  | .fault _ | .refused _ => s

/-- The state after the command of a 32-bit word, by way of `step`. -/
def run (w : Nat) (s : State) : State :=
  match step (s.withFetchWord 32 w) with
  | .next t => t
  | .fault _ | .refused _ => s

/-- The next state of an outcome, if it is one. -/
def nextOf (o : Host.Outcome State Fault Refusal) : Option State :=
  match o with
  | .next t => some t
  | .fault _ | .refused _ => none

/-- What the kernel evaluates to a next state is one. -/
theorem next_of {o : Host.Outcome State Fault Refusal} {t : State} (h : nextOf o = some t) : o = .next t := by
  cases o <;> simp_all [nextOf]

/-- A small instance. -/
def small : Params := { maxBins := 2, batchMax := 4, rbLog2Max := 3, hmaLog2Max := 3 }

/-- Z1 = (1, 2), Z2 = (3, -1), Z4 = (3, 4): the operands of 95_test_vectors.md 4.1. -/
def cauState : State :=
  { State.reset with z := #v[⟨0, 0⟩, ⟨fone, ftwo⟩, ⟨f3, fMinus1⟩, ⟨0, 0⟩, ⟨f3, f4⟩, ⟨0, 0⟩, ⟨0, 0⟩, ⟨0, 0⟩] }

/-- 95_test_vectors.md 5.2 before `ss.init`, on the small instance, with a smoothing and a window. -/
def conf (smooth win : F64) : State :=
  { State.reset with
    params := small
    cfg := { State.reset.cfg with sampleRate := f8, smoothSeconds := smooth, winSeconds := win }
    tt := [(0, { key := 0, freq := 0, bw := f4, kk := 0, nn := 2 })]
    ttCount := 1 }

/-- Program P2 before and after `process 3` (95_test_vectors.md 5.2). -/
def p2 : State := { after .ssInit (conf 0 0) with batch := [(0, fone), (1, fone), (2, fone)] }
/-- P2 after its batch. -/
def p2done : State := after (.process 3) p2
/-- Program P3 before and after its first batch (95_test_vectors.md 5.3). -/
def p3 : State := { after .ssInit (conf fQuarter fQuarter) with batch := [(0, fone), (3, fone)] }
/-- P3 after its first batch. -/
def p3done : State := after (.process 4) p3
/-- Program P4 before its batch (95_test_vectors.md 5.4). -/
def p4 : State := { after .ssInit (conf fMinus1 fQuarter) with batch := [(0, fone), (3, fone)] }

/-- P2 with PROCESS 3 pending. -/
def busyState : State := { p2 with pend := some 0x341 }

/-! ### Well-formedness: one ill-formed term for each check (30_encoding.md R147) -/

theorem test_wellFormed_refuses_bin_selectors :
    (Instr.binRd 0 6 0).wellFormed = false ∧ (Instr.binRd 0 7 0).wellFormed = false ∧
    (Instr.binRd 0 5 0).wellFormed = true := by decide

theorem test_wellFormed_refuses_ma_selectors :
    (Instr.maRd 0 2 0).wellFormed = false ∧ (Instr.maRd 0 7 0).wellFormed = false ∧
    (Instr.maRd 0 1 0).wellFormed = true := by decide

/-! ### Decoding: a word for every constructor, bit by bit from the formats (30_encoding.md R142-R145) -/

theorem test_decode_n_format :
    decode 0b00000000 = .ok .nop ∧ decode 0b00000001 = .ok .reset ∧ decode 0b00110001 = .ok .tmBuild ∧
    decode 0b01000000 = .ok .ssInit ∧ decode 0b01000010 = .ok .snap := by decide +kernel

theorem test_decode_r_format :
    decode 0b010_001_011_00010000 = .ok (.cadd 3 1 2) ∧ decode 0b010_001_011_00010001 = .ok (.csub 3 1 2) ∧
    decode 0b111_110_101_00010010 = .ok (.cmul 5 6 7) ∧ decode 0b001_010_00010011 = .ok (.cexp 2 1) ∧
    decode 0b011_100_00010100 = .ok (.cmag 4 3) ∧ decode 0b000_001_00110000 = .ok (.tmK2f 1 0) := by decide +kernel

theorem test_decode_i_format :
    decode 0b100000000000000011_000_001_00100000 = .ok (.rbRd 1 0x20003) ∧
    decode 0b000000000000000001_101_010_00100001 = .ok (.binRd 2 5 1) ∧
    decode 0b000000000000000001_001_111_00100010 = .ok (.maRd 7 1 1) := by decide +kernel

theorem test_decode_l_format : decode 0b100000000000000000000011_01000001 = .ok (.process 0x800003) := by
  decide +kernel

/-- 30_encoding.md R149: the opcode is checked before the upper half, and both before the reserved bits. -/
theorem test_decode_refuses :
    decode 0x02 = .error .illegal ∧ decode 0x1_0000_0002 = .error .illegal ∧ decode 0x1_0000_0000 = .error .reserved ∧
    decode 0x100 = .error .reserved ∧ decode 0x820 = .error .reserved ∧ decode 0x3021 = .error .reserved ∧
    decode 0x1022 = .error .reserved ∧ decode 0x4A13 = .error .reserved := by decide +kernel

theorem test_encode_words :
    encode (.cadd 3 1 2) = 0x8B10 ∧ encode (.rbRd 1 3) = 0xC120 ∧ encode (.binRd 0 4 0) = 0x2021 ∧
    encode (.maRd 0 0 1) = 0x4022 ∧ encode (.process 4097) = 0x100141 ∧ encode .snap = 0x42 := by decide +kernel

theorem test_decodeTableWord :
    decodeTableWord 32 0x1C14 = some (.cmag 4 3) ∧ decodeTableWord 32 0x3021 = none ∧
    decodeTableWord 8 0x31 = some .tmBuild := by decide +kernel

/-- `asm` assembles the lines of 30_encoding.md R153, R154 and refuses what is out of range. -/
theorem test_assembler :
    asm "csq" [.z 2, .z 1] = some (.cmul 2 1 1) ∧ asm "bin.rd" [.z 0, .name "kn", .num 0] = some (.binRd 0 4 0) ∧
    asm "ma.rd" [.z 1, .name "sum", .num 0] = some (.maRd 1 1 0) ∧ asm "rb.rd" [.z 0, .num 0x40000] = none ∧
    asm "cadd" [.z 8, .z 0, .z 0] = none := by decide +kernel

/-! ### Commands -/

/-- CT1 and the example of 46_control.md R440. -/
theorem test_nop : statusWord (run 0x0 State.reset) = 2 := by decide +kernel

/-- The example of 46_control.md R441. -/
theorem test_reset : statusWord (run 0x1 p2done) = 2 ∧ (run 0x1 p2done).rb.cap = 0 := by decide +kernel

/-- CAU1 and CAU7: also where the destination is a source. -/
theorem test_cadd :
    readZ (run 0x8B10 cauState) 3 = ⟨f4, fone⟩ ∧ readZ (run 0x4910 cauState) 1 = ⟨ftwo, f4⟩ := by decide +kernel

/-- CAU2. -/
theorem test_csub : readZ (run 0x8B11 cauState) 3 = ⟨0xC000000000000000, f3⟩ := by decide +kernel

/-- CAU3. -/
theorem test_cmul : readZ (run 0x8B12 cauState) 3 = ⟨0x4014000000000000, 0x4014000000000000⟩ := by decide +kernel

/-- CAU15: +inf times 1 has a NaN imaginary part. -/
theorem test_cmul_inf : cmul ⟨posInf, 0⟩ ⟨fone, 0⟩ = ⟨posInf, qNaN⟩ := by decide +kernel

/-- CAU9. -/
theorem test_cexp : readZ (run 0x0213 cauState) 2 = ⟨fone, 0⟩ := by decide +kernel

/-- CAU5, with Z4 as the source. -/
theorem test_cmag : readZ (run 0x2214 cauState) 2 = ⟨0x4014000000000000, 0⟩ := by decide +kernel

/-- CAU12 and CAU13: the squares overflow, and they underflow. -/
theorem test_cmag_extremes :
    cmag ⟨0x6974E718D7D7625A, 0x6974E718D7D7625A⟩ = posInf ∧ cmag ⟨1, 1⟩ = 0 ∧
    cmag ⟨0x8000000000000000, 0x8000000000000000⟩ = 0 := by decide +kernel

/-- RB1 and RB2. -/
theorem test_rbRd : readZ (run 0x20 p2done) 0 = ⟨fone, 0⟩ ∧ readZ (run 0xC120 p2done) 1 = ⟨0, 0⟩ := by decide +kernel

/-- RB3. -/
theorem test_rbRd_range :
    statusWord (run 0x10220 p2done) = 0x546 ∧ (run 0x10220 p2done).errinfo = 4 := by decide +kernel

/-- 95_test_vectors.md 5.2: dft and totalPower. -/
theorem test_binRd : readZ (run 0x21 p2done) 0 = ⟨ftwo, 0⟩ ∧ readZ (run 0x921 p2done) 1 = ⟨ftwo, 0⟩ := by
  decide +kernel

/-- k and N, bands, and the level, 0 through the cap-exceed rule. -/
theorem test_binRd_more :
    readZ (run 0x2021 p2done) 0 = ⟨0, ftwo⟩ ∧ readZ (run 0x2A21 p2done) 2 = ⟨fone, 0⟩ ∧
    readZ (run 0x1221 p2done) 2 = ⟨0, 0⟩ := by decide +kernel

/-- 95_test_vectors.md 4.5 after P3's first batch. -/
theorem test_maRd : readZ (run 0x22 p3done) 0 = ⟨fhalf, 0⟩ ∧ readZ (run 0x922 p3done) 1 = ⟨fone, 0⟩ := by
  decide +kernel

/-- 95_test_vectors.md 4.5: no smoothing after P2. -/
theorem test_maRd_noSmooth : statusWord (run 0x22 p2done) = 0x746 := by decide +kernel

/-- 95_test_vectors.md 4.4: with REF_KEY = 0, key 0.0 gives 440.0. -/
theorem test_tmK2f :
    readZ (run 0x130 { State.reset with cfg := { State.reset.cfg with refKey := 0 } }) 1 = ⟨f440, 0⟩ := by
  decide +kernel

/-- TM2 and TM4. -/
theorem test_tmBuild_refuses :
    statusWord (run 0x31 State.reset) = 0x1006 ∧
    statusWord (run 0x31 { State.reset with cfg := { State.reset.cfg with sampleRate := f44100, keyCount := 0 } }) =
      0x1106 := by decide +kernel

/-- The search of 95_test_vectors.md 4.4 for key 48. -/
theorem test_search : search f44100 f440 17 1710 = 1704 := by decide +kernel

/-- 95_test_vectors.md 5.2: what `ss.init` sets. -/
theorem test_ssInit :
    (run 0x40 (conf 0 0)).nbins = 1 ∧ (run 0x40 (conf 0 0)).rb.cap = 4 ∧ statusWord (run 0x40 (conf 0 0)) = 0x42 ∧
    readBin (run 0x40 (conf 0 0)) 0 = { k := 0, n := 2, bands := fone, coef := ⟨fone, 0⟩, dft := ⟨0, 0⟩, tp := 0 } := by
  decide +kernel

/-- 95_test_vectors.md 5.3: Heavy with Wmax 2 and CH 4. -/
theorem test_ssInit_heavy :
    (run 0x40 (conf fQuarter 0)).ma.mode = .heavy ∧ (run 0x40 (conf fQuarter 0)).ma.wmax = 2 ∧
    (run 0x40 (conf fQuarter 0)).ma.cap = 4 := by decide +kernel

/-- PR8 and the end state of P2. -/
theorem test_process :
    Memory.read 0 (run 0x341 p2).out 0 = 0 ∧ (run 0x341 p2).rb = { mem := [(0, fone), (1, fone), (2, fone)], wc := 3, cap := 4 } ∧
    (run 0x341 p2).batch = [] ∧
    readBin (run 0x341 p2) 0 = { k := 0, n := 2, bands := fone, coef := ⟨fone, 0⟩, dft := ⟨ftwo, 0⟩, tp := ftwo } := by
  decide +kernel

/-- The ends of P3's first batch and of P4. -/
theorem test_process_smoothed :
    Memory.read 0 (run 0x441 p3).out 0 = fhalf ∧ (run 0x441 p3).ma.hwc = 4 ∧ (run 0x441 p3).ma.cur = 2 ∧
    Memory.read 0 (run 0x441 p4).out 0 = 0x3FE4000000000000 ∧ (run 0x441 p4).ma.h = [] := by decide +kernel

/-- 95_test_vectors.md 4.6: SNAP after P3's first batch. -/
theorem test_snap : (run 0x42 p3done).snap = [(0, fhalf)] := by decide +kernel

/-! ### The bus, the flags, the conversions -/

/-- A written BATCH word is read back; an unmapped access sets BUSERR (20_memory.md R109). -/
theorem test_bus :
    (busRead 0x200008 0xFF (busWrite 0x200008 0xFF 7 State.reset)).1 = 7 ∧
    statusWord (busWrite 0xB0 0xFF 7 State.reset) = 0x10 ∧ (busRead 0 0xFF State.reset).1 = 0x153444654 := by
  decide +kernel

/-- BUS5 of 95_test_vectors.md 4.7, and CTRL's reserved bits (10_state.md R49). -/
theorem test_bus_reserved :
    busWrite 0x100028 0xFF 7 p2 = p2 ∧ (busRead 0x18 0xFF (busWrite 0x18 0xFF 0xFFFFFFFFFFFFFFFF p2)).1 = 3 := by
  decide +kernel

/-- The corner cases of 40_complex_unit.md R206-R208 and of 42_frequency_bin.md R288(b), and a negative REF_KEY. -/
theorem test_float_corners :
    fadd posInf negInf = qNaN ∧ fadd fNegZero fzero = fzero ∧ fsub fNegZero fzero = fNegZero ∧
    fsub f3 f3 = fzero ∧ fmul posInf fzero = qNaN ∧ fsqrt fMinus1 = qNaN ∧ i2f 0xFFFFFFFFFFFFFFFF = fMinus1 := by
  decide +kernel

/-- The edges of the conversion table of 95_test_vectors.md 4.5. -/
theorem test_conv :
    conv 0x4004000000000000 10 = (3, false) ∧ conv 0x3FDFFFFFFFFFFFFF 10 = (0, false) ∧
    conv 0x40EFFFF000000000 65535 = (65535, true) ∧ conv posInf 7 = (7, true) ∧ conv qNaN 7 = (0, true) := by
  decide +kernel

/-! ### Witnesses: encoding -/

theorem witness_DecodeOfEncodeGivesTheCommand :
    (Instr.binRd 7 5 0x3FFFF).wellFormed = true ∧ (Instr.maRd 7 1 0x3FFFF).wellFormed = true := by decide

theorem witness_EncodeOfDecodeGivesTheWord : decode 0xFFFFFF41 = .ok (.process 0xFFFFFF) := by decide +kernel

theorem witness_DecodingRefusesExactlyTheReservedWords :
    (0x21 : Word).toNat % 256 ∈ assignedOpcodes ∧ (0x43 : Word).toNat % 256 ∉ assignedOpcodes ∧
    decode 0x2821 = .ok (.binRd 0 5 0) ∧ decode 0x3021 = .error .reserved ∧ decode 0x822 = .ok (.maRd 0 1 0) ∧
    decode 0x1022 = .error .reserved ∧ decode 0x20010 = .error .reserved := by decide +kernel

/-! ### Witnesses: the step, errors, STATUS -/

theorem witness_StepPerformsThePendingCommand :
    busyState.pend = some 0x341 ∧ decode 0x341 = .ok (.process 3) ∧ busyState.turns = [] ∧
    { busyState with turns := [.engine, .hwReset] }.turns = .engine :: [.hwReset] ∧
    decodeTableWord 32 0x341 = some (.process 3) := by decide +kernel

theorem witness_StepsThatPerformNoCommand :
    p2.turns = [] ∧ p2.pend = none ∧ { p2 with turns := [.engine, .hwReset] }.turns = .engine :: [.hwReset] ∧
    { p2 with pend := some 0x02 }.pend = some 0x02 ∧ decode 0x02 = .error .illegal ∧
    { p2 with pend := some 0x4A13 }.pend = some 0x4A13 ∧ decode 0x4A13 = .error .reserved := by decide +kernel

/-- A write of 3 to CTRL, then a read of it, with an ENGINE turn to come (20_memory.md R104, R105, R115(a); 10_state.md R49):
each turn is taken alone, and the read answers 3. -/
theorem witness_StepsThatPerformNoCommand_host :
    { p2 with turns := [.busWrite 0x18 0xFF 3, .busRead 0x18 0xFF, .engine] }.turns =
      .busWrite 0x18 0xFF 3 :: [.busRead 0x18 0xFF, .engine] ∧
    step { p2 with turns := [.busWrite 0x18 0xFF 3, .busRead 0x18 0xFF, .engine] } =
      .next { p2 with turns := [.busRead 0x18 0xFF, .engine], ctrl := { ieDone := true, ieErr := true } } ∧
    step { p2 with turns := [.busRead 0x18 0xFF, .engine], ctrl := { ieDone := true, ieErr := true } } =
      .next { p2 with turns := [.engine], ctrl := { ieDone := true, ieErr := true }, busRdata := 3 } :=
  ⟨rfl, next_of (by decide +kernel), next_of (by decide +kernel)⟩

theorem witness_EngineStepClearsBusyAndSetsDone :
    busyState.pend = some 0x341 ∧ busyState.turns = [] ∧ step busyState = .next (after (.process 3) busyState) :=
  ⟨by decide +kernel, by decide +kernel, next_of (by decide +kernel)⟩

/-- The state after a failed RB_RD, with a second failing command pending. -/
def erringState : State := { run 0x10220 p2done with pend := some 0x02 }

theorem witness_FirstErrorIsKept :
    erringState.status.err = true ∧ step erringState = .next (failedAgain erringState) ∧
    nextCommand erringState ≠ some .reset ∧ erringState.turns = [] ∧ target small 0x8 0xFF ≠ some (.csr .status) :=
  ⟨by decide +kernel, next_of (by decide +kernel), by decide +kernel, by decide +kernel, by decide +kernel⟩

theorem witness_FailingCommandsChangeNothingElse :
    Instr.rbRd 2 4 ≠ .tmBuild ∧ exec (.rbRd 2 4) p2done = .next (after (.rbRd 2 4) p2done) ∧
    exec (.rbRd 2 4) erringState = .next (after (.rbRd 2 4) erringState) ∧
    p2done.status.err = false ∧ (after (.rbRd 2 4) p2done).status.err = true ∧
    erringState.status.errovf = false ∧ (after (.rbRd 2 4) erringState).status.errovf = true :=
  ⟨by decide, next_of (by decide +kernel), next_of (by decide +kernel), by decide +kernel⟩

theorem witness_IllegalAccessesOnlySetBuserr :
    (0x7F : BitVec 8) ≠ 0xFF ∧ (0xAF : Nat) % 8 ≠ 0 ∧
    ∀ a ∈ [0xB0, 0xF8, 0x180, 0x100080, 0x200020, 0x300010, 0x400010, 0xFFFFFFF8], ¬ mapped small a := by decide

theorem witness_AddressMapIsTheSpecs :
    Params.default.legal ∧ 127 < Params.default.maxBins ∧ 4095 < Params.default.batchMax := by decide

theorem witness_WrittenWordsReadBack :
    p2.pend = none ∧ target p2.params 0x100060 0xFF = some (.tt 1 .nn) ∧ storesWord (.tt 1 .nn) = true ∧
    target p2.params 0x178 0xFF = some (.zIm 7) ∧ storesWord (.zIm 7) = true ∧
    target p2.params 0x200018 0xFF = some (.batch 3) ∧ storesWord (.batch 3) = true ∧
    target p2.params 0x58 0xFF = some (.csr .ttCount) ∧ storesWord (.csr .ttCount) = true ∧
    target p2.params 0x18 0xFF = some (.csr .ctrl) ∧ target p2.params 0x28 0xFF = some (.csr .sampleRate) ∧
    target p2.params 0x100028 0xFF = some (.tt 0 .reserved) ∧ target p2.params 0x100078 0xFF = some (.tt 1 .reserved) := by
  decide +kernel

theorem witness_LegalAccessesFollowTheBusyRule_idle :
    p2.pend = none ∧ target p2.params 0xA8 0xFF = some (.csr .params) ∧ readOnly (.csr .params) = true ∧
    target p2.params 0x300008 0xFF = some (.out 1) ∧ readOnly (.out 1) = true := by decide +kernel

theorem witness_LegalAccessesFollowTheBusyRule_busy :
    busyState.pend = some 0x341 ∧ target busyState.params 0x18 0xFF = some (.csr .ctrl) ∧
    Loc.csr .ctrl ∈ [Loc.csr .id, .csr .params, .csr .status, .csr .ctrl] ∧
    target busyState.params 0x20 0xFF = some (.csr .errinfo) ∧
    Loc.csr .errinfo ∉ [Loc.csr .id, .csr .params, .csr .status, .csr .ctrl] ∧
    Loc.csr .errinfo ∉ [Loc.csr .cmd, .csr .status] := by decide +kernel

theorem witness_CommandWriteStartsOrIsDropped :
    p2.pend = none ∧ busyState.pend ≠ none ∧ busyState.status.err = false ∧ erringState.pend ≠ none ∧
    erringState.status.err = true := by decide +kernel

theorem witness_NopAndTheTwoResets :
    { busyState with turns := [.hwReset, .engine] }.turns = .hwReset :: [.engine] := by decide +kernel

/-! ### Witnesses: registers and arithmetic -/

theorem witness_OnlyTheDestinationRegisterChanges :
    Instr.cadd 3 1 2 ≠ .reset ∧ exec (.cadd 3 1 2) cauState = .next (after (.cadd 3 1 2) cauState) ∧
    destination (.cadd 3 1 2) ≠ some 1 ∧ destination .snap ≠ some 7 :=
  ⟨by decide, next_of (by decide +kernel), by decide, by decide⟩

theorem witness_SpecialOperandsGiveTheirResults :
    isNaN 0xFFFFFFFFFFFFFFFF = true ∧ isNaN 0x7FF0000000000001 = true ∧ isNaN (fadd posInf negInf) = true ∧
    isNaN (fsqrt fMinus1) = true ∧ isNaN (fabs qNaN) = true ∧ isInf posInf = true ∧ isInf negInf = true ∧
    isNaN negInf = false ∧ fUnits fNegZero + fUnits fzero = 0 ∧ fUnits fMinus1 + fUnits fone = 0 ∧
    isFinite fMinus1 = true ∧ isZero fMinus1 = false ∧ isZero fNegZero = true ∧ fSign fMinus1 = true := by decide +kernel

theorem witness_ArithmeticRoundsToNearestEven :
    isFinite 0xFFEFFFFFFFFFFFFF = true ∧ isFinite 1 = true ∧ fUnits 1 ≠ 0 := by decide +kernel

theorem witness_SquareRootRoundsToNearest :
    isFinite 0x7FEFFFFFFFFFFFFF = true ∧ fSign 0x7FEFFFFFFFFFFFFF = false ∧ fSign 0 = false := by decide +kernel

theorem witness_ConversionsAndComparisonsAreExact :
    2 ^ 53 ≤ 2 ^ 53 ∧ (BitVec.ofInt 64 (-2 ^ 53)).toInt.natAbs ≤ 2 ^ 53 ∧ isFinite fMinus1 = true ∧
    isFinite 0x7FEFFFFFFFFFFFFF = true ∧ isNaN negInf = false ∧ flt negInf fMinus1 = true ∧ isNaN qNaN = true := by
  decide +kernel

theorem witness_TranscendentalFunctionsHaveTheirProperties :
    fNegZero ∈ [fzero, fNegZero] ∧ isNaN 0xFFF8000000000001 = true ∧ fle fMinus1 posInf = true := by decide +kernel

/-! ### Witnesses: rings, bins, the tuning map -/

theorem witness_RingCapacityIsTheLeastPowerOfTwo : 4 + 1 ≤ 2 ^ 3 ∧ 3 + 1 ≤ 2 ^ 2 := by decide

/-- A fresh ring of capacity 4. -/
def freshRing : Ring := { mem := [], wc := 0, cap := 4 }

theorem witness_RingReadsWhatWasWritten :
    2 ≤ 63 ∧ freshRing.cap.toNat = 2 ^ 2 ∧ freshRing.wc = 0 ∧ (∀ i < 2 ^ 2, Memory.read 0 freshRing.mem i = 0) ∧
    [fone, ftwo, f3, f4, f8].reverse[3]? = some ftwo ∧ [fone].length ≤ 3 := by decide +kernel

/-- The read-level vector of 95_test_vectors.md 4.2 after five writes. -/
theorem test_ring :
    [0, 1, 2, 3].map (fun off => ringRead ([fone, ftwo, f3, f4, f8].foldl ringWrite freshRing) off) =
      [f8, f4, f3, ftwo] := by decide +kernel

theorem witness_RbRdReadsTheRing :
    p2done.status.init = true ∧ (3 : BitVec 18).toNat < p2done.rb.cap.toNat ∧
    p2done.rb.cap.toNat ≤ (4 : BitVec 18).toNat ∧ 1 ≤ p2done.rb.cap.toNat ∧ State.reset.status.init = false := by
  decide +kernel

theorem witness_LevelIsZeroOrInUnitInterval :
    fSign (readBin p2 0).bands = false ∧ isZero (readBin p2 0).tp = true ∧ isFinite (readBin p2 0).bands = true ∧
    flt fzero (readBin p2 0).bands = true ∧ feq (fsqrt (fdiv (readBin p2 0).tp (readBin p2 0).bands)) fzero = true ∧
    feq (fsqrt (fdiv fone fone)) fzero = false ∧ fle (fdiv fone fone) fone = true ∧
    fle (fdiv 0x3FF0000000000001 fone) fone = false := by decide +kernel

/-- The edges of 95_test_vectors.md 4.3: bands 1, tp 1 and |dft| 1, then 1 + 2^-52. -/
theorem test_level :
    level { Bin.reset with bands := fone, tp := fone, dft := ⟨fone, 0⟩ } = fone ∧
    level { Bin.reset with bands := fone, tp := fone, dft := ⟨0x3FF0000000000001, 0⟩ } = fzero := by decide +kernel

theorem witness_BinRdReadsTheBin :
    p2done.status.init = true ∧ (0 : BitVec 18).toNat < p2done.nbins.toNat ∧ (5 : BitVec 3).toNat ≤ 5 ∧
    p2done.nbins.toNat ≤ (1 : BitVec 18).toNat ∧ State.reset.status.init = false ∧
    { p2done with pend := some 0x3021 }.pend = some 0x3021 ∧ 5 < (6 : BitVec 3).toNat := by decide +kernel

theorem witness_TmK2fWritesTheFrequency : isNaN State.reset.cfg.pitchFork = false := by decide +kernel

theorem witness_KeyFrequenciesDoNotDecrease : finitePositive State.reset.cfg.pitchFork ∧ 47 ≤ 48 := by decide +kernel

theorem witness_SearchStopsAtTheFirstNonImprovement :
    1 ≤ 1710 ∧ search f44100 f440 17 1710 ≤ 1704 ∧ 1704 < 1710 ∧ 2 ≤ search f44100 f440 17 1710 ∧
    search f44100 f440 17 1 = 1 := by decide +kernel

/-- A configuration on which every pitch is a NaN, whatever FN_EXP2 is. -/
def nanPitch : State :=
  { State.reset with cfg := { State.reset.cfg with sampleRate := f44100, pitchFork := qNaN, keyCount := 1 } }

/-- The first two clauses at TM2 and TM4's configurations and at KEY_COUNT = MAX_BINS + 1; the third at key 0. -/
theorem witness_TmBuildStopsAtTheFirstFailingKey :
    ¬ finitePositive State.reset.cfg.sampleRate ∧
    finitePositive nanPitch.cfg.sampleRate ∧ (0 : Word).toNat < 1 ∧ State.reset.params.maxBins < (129 : Word).toNat ∧
    1 ≤ nanPitch.cfg.keyCount.toNat ∧ nanPitch.cfg.keyCount.toNat ≤ nanPitch.params.maxBins := by decide +kernel

theorem fmul_nan (a b : F64) (h : isNaN a = true) : fmul a b = qNaN := by simp [fmul, h]

theorem nanPitch_k2f (x : F64) : k2f nanPitch.cfg x = qNaN := fmul_nan _ _ (by decide +kernel)

theorem witness_TmBuildStopsAtTheFirstFailingKey_key :
    0 < nanPitch.cfg.keyCount.toNat ∧ tmEntry nanPitch.cfg 0 = .error .eCfgBw := by
  refine ⟨by decide, ?_⟩
  have hb : bwOk (keyBandwidth nanPitch.cfg 0) = false := by
    unfold keyBandwidth keyFreq
    rw [nanPitch_k2f, nanPitch_k2f]
    decide +kernel
  simp [tmEntry, hb]

/-- One key, which is the reference key, at a sample rate; TM10's configuration at 44100.0. -/
def oneKey (rate : F64) : State :=
  { State.reset with cfg := { State.reset.cfg with sampleRate := rate, keyCount := 1, refKey := 0 } }

/-- The frequency of the one key, and its bandwidth from the value of FN_EXP2 at 1/24. -/
theorem oneKey_pitch (rate v : F64) (h : fnExp2 0x3FA5555555555555 = v) :
    k2f (oneKey rate).cfg (u2f 0) = f440 ∧
    fmul ftwo (fsub (k2f (oneKey rate).cfg (fadd (u2f 0) fhalf)) f440) = fmul ftwo (fsub (fmul f440 v) f440) := by
  have hx : fdiv (fsub (fadd (u2f 0) fhalf) (i2f 0)) ftwelve = 0x3FA5555555555555 := by decide +kernel
  constructor
  · show fmul f440 (fnExp2 (fdiv (fsub (u2f 0) (i2f 0)) ftwelve)) = f440
    decide +kernel
  · show fmul ftwo (fsub (fmul f440 (fnExp2 (fdiv (fsub (fadd (u2f 0) fhalf) (i2f 0)) ftwelve))) f440) = _
    rw [hx, h]

/-- The first clause, at keys 0 and 16383: with a NaN pitch every bandwidth is a NaN. -/
theorem witness_TableEntriesFollowTheirRule :
    ∀ j ∈ [0, 16383], j < 16384 ∧
      ¬ finitePositive (fmul ftwo (fsub (k2f nanPitch.cfg (fadd (u2f j) fhalf)) (k2f nanPitch.cfg (u2f j)))) := by
  intro j hj
  refine ⟨by fin_cases hj <;> decide, ?_⟩
  rw [nanPitch_k2f, nanPitch_k2f]
  decide +kernel

/-- The other clauses. 00_scope.md R27 allows the constant 1.0 as FN_EXP2, with which every bandwidth is 0; so each has
the value of FN_EXP2 at 1/24 as its premise. With the correctly rounded value: a rate of 1.0, too low (TM7), a rate of
1e12, too high (TM9), and TM10. -/
theorem witness_TableEntriesFollowTheirRule_rates (h : fnExp2 0x3FA5555555555555 = 0x3FF078059F4155D1) :
    ∀ rate, let f := k2f (oneKey rate).cfg (u2f 0)
      let bw := fmul ftwo (fsub (k2f (oneKey rate).cfg (fadd (u2f 0) fhalf)) f)
      finitePositive bw ∧ (rate = fone → flt (fdiv rate bw) fone = true) ∧
      (rate = 0x426D1A94A2000000 → fle fone (fdiv rate bw) = true ∧ fle ftwo32 (fdiv rate bw) = true) ∧
      (rate = f44100 → fle fone (fdiv rate bw) = true ∧ flt (fdiv rate bw) ftwo32 = true ∧
        fle fzero (fdiv f bw) = true ∧ flt (fdiv f bw) ftwo32 = true) := by
  intro rate
  obtain ⟨hf, hb⟩ := oneKey_pitch rate _ h
  dsimp only
  rw [hf, hb]
  exact ⟨by decide +kernel, by rintro rfl; decide +kernel, by rintro rfl; decide +kernel, by rintro rfl; decide +kernel⟩

/-- With 1 + 2^-40 at 1/24 and a rate of 1.0, f/bw is not below 2^32 while the rate is. -/
theorem witness_TableEntriesFollowTheirRule_ratio (h : fnExp2 0x3FA5555555555555 = 0x3FF0000000001000) :
    let f := k2f (oneKey fone).cfg (u2f 0)
    let bw := fmul ftwo (fsub (k2f (oneKey fone).cfg (fadd (u2f 0) fhalf)) f)
    finitePositive bw ∧ fle fone (fdiv fone bw) = true ∧ flt (fdiv fone bw) ftwo32 = true ∧
      fle ftwo32 (fdiv f bw) = true := by
  obtain ⟨hf, hb⟩ := oneKey_pitch fone _ h
  dsimp only
  rw [hf, hb]
  decide +kernel

/-- TM10's entry, for an FN_EXP2 that is correctly rounded at 1/24. No state makes TM_BUILD complete for every FN_EXP2
that 00_scope.md R27 allows; so this witness has the value of FN_EXP2 at one argument as its premise. -/
theorem witness_TmBuildWritesTheTable (h : fnExp2 0x3FA5555555555555 = 0x3FF078059F4155D1) :
    finitePositive (oneKey f44100).cfg.sampleRate ∧ 1 ≤ (oneKey f44100).cfg.keyCount.toNat ∧
    (oneKey f44100).cfg.keyCount.toNat ≤ (oneKey f44100).params.maxBins ∧
    ∀ j < (oneKey f44100).cfg.keyCount.toNat, tmEntry (oneKey f44100).cfg j =
      .ok { key := 0, freq := f440, bw := 0x4039C93537096FE0, kk := 17, nn := 1704 } := by
  refine ⟨by decide +kernel, by decide, by decide, fun j hj => ?_⟩
  obtain rfl : j = 0 := by
    have : (oneKey f44100).cfg.keyCount.toNat = 1 := by decide
    omega
  obtain ⟨hf, hb⟩ := oneKey_pitch f44100 _ h
  unfold tmEntry keyBandwidth keyFreq
  rw [hf, hb]
  decide +kernel

/-! ### Witnesses: the moving average -/

theorem witness_WindowConversionRoundsAndClamps :
    isNaN 0xFFF0000000000001 = true ∧ isZero 0x8000000000000000 = true ∧
    (isNaN 0x8000000000000001 = false ∧ isZero 0x8000000000000001 = false ∧ fSign 0x8000000000000001 = true) ∧
    (isFinite fhalf = true ∧ isZero fhalf = false ∧ fSign fhalf = false ∧
      2 ^ 1075 * ((1 : Nat) : Int) ≤ 2 * fUnits fhalf + 2 ^ 1074 ∧
      2 * fUnits fhalf + 2 ^ 1074 < 2 ^ 1075 * (((1 : Nat) : Int) + 1)) := by decide +kernel

theorem witness_RampMovesOneSampleTowardTheTarget :
    p3.ma.cur = p3.ma.tgt ∧ (processTarget p3).ma.cur.toNat < (processTarget p3).ma.tgt.toNat ∧
    { p3done.ma with tgt := 1 }.tgt.toNat < { p3done.ma with tgt := 1 }.cur.toNat := by decide +kernel

theorem witness_FastUpdateFollowsItsFormula : p4.ma.mode = .fast ∧ 0 < 1 ∧ 1 ≤ 1 := by decide +kernel

theorem witness_HeavyUpdateFollowsItsFormula :
    1 ≤ p3done.ma.cap.toNat ∧ p3done.ma.cap.toNat ≤ 4 ∧ 2 ^ 64 - 1 < 2 ^ 64 ∧ 0 < p3done.nbins.toNat := by decide +kernel

theorem witness_HeavySumsStayExact :
    0 < 1 ∧ p3done.ma.cur.toNat ≤ p3done.ma.wmax.toNat ∧ p3done.ma.tgt.toNat ≤ p3done.ma.wmax.toNat ∧
    p3done.ma.wmax.toNat + 1 ≤ p3done.ma.cap.toNat ∧ isPow2 p3done.ma.cap.toNat ∧ p3done.ma.cap.toNat ≤ 2 ^ 32 ∧
    onGrid fone ∧ (∀ slot < p3done.ma.cap.toNat, onGrid (Memory.read 0 p3done.ma.h (hIndex 0 slot))) ∧
    sumIsExact p3done.ma 0 :=
  ⟨by decide, by decide +kernel, by decide +kernel, by decide +kernel, by decide +kernel, by decide +kernel,
    by decide +kernel, by decide +kernel, by decide +kernel⟩

theorem witness_MaRdReadsTheAverage :
    p3done.status.init = true ∧ p3done.ma.mode ≠ .off ∧ (0 : BitVec 18).toNat < p3done.nbins.toNat ∧ p3done.ma.cur ≠ 0 ∧
    p3.status.init = true ∧ p3.ma.mode ≠ .off ∧ p3.ma.cur = 0 ∧ p3.nbins.toNat ≤ (1 : BitVec 18).toNat ∧
    (1 : BitVec 3).toNat ≤ 1 ∧ p2.status.init = true ∧ p2.ma.mode = .off ∧ State.reset.status.init = false ∧
    { p3 with pend := some 0x1022 }.pend = some 0x1022 ∧ 1 < (2 : BitVec 3).toNat := by decide +kernel

/-! ### Witnesses: the sequencer -/

/-- The hypotheses of SS_INIT's completion, with 2 as the largest window, but for that on a positive SMOOTH_SECONDS. -/
abbrev ssInitReady (s : State) : Prop :=
  s.params.legal ∧ finitePositive s.cfg.sampleRate ∧ 1 ≤ s.ttCount.toNat ∧ s.ttCount.toNat ≤ s.params.maxBins ∧
  (∀ b < s.ttCount.toNat, entryOk (Memory.read TTEntry.reset s.tt b)) ∧ isLargestWindow s 2 ∧
  ringCap 2 ≤ 2 ^ s.params.rbLog2Max ∧ isNaN s.cfg.smoothSeconds = false

/-- For each sign of SMOOTH_SECONDS. -/
theorem witness_SsInitConstructsTheSpectrum :
    ssInitReady (conf 0 0) ∧ ssInitReady (conf fMinus1 0) ∧ ssInitReady (conf fQuarter 0) :=
  ⟨by decide +kernel, by decide +kernel, by decide +kernel⟩

theorem witness_SsInitConstructsTheSpectrum_smoothing :
    isZero 0 = true ∧ flt fzero 0 = false ∧ flt fMinus1 fzero = true ∧ flt fzero fMinus1 = false ∧
    flt fzero fQuarter = true ∧ (conv (fmul fQuarter f8) (2 ^ small.hmaLog2Max - 1)).2 = false := by decide +kernel

/-- A table whose second entry has a window of 0. -/
def badEntry : State := { conf 0 0 with tt := [(0, ⟨0, 0, f4, 0, 2⟩), (1, ⟨1, 0, f4, 0, 0⟩)], ttCount := 2 }

/-- The second entry's check fails after a first entry that passes. -/
theorem witness_SsInitRefusesBadConfigurations :
    ¬ finitePositive State.reset.cfg.sampleRate ∧ finitePositive (conf 0 0).cfg.sampleRate ∧
    (0 : Word).toNat < 1 ∧ small.maxBins < (3 : Word).toNat ∧ finitePositive badEntry.cfg.sampleRate ∧
    1 ≤ badEntry.ttCount.toNat ∧ badEntry.ttCount.toNat ≤ badEntry.params.maxBins ∧
    (∀ a < 1, entryOk (Memory.read TTEntry.reset badEntry.tt a)) ∧
    finitePositive (Memory.read TTEntry.reset badEntry.tt 1).bw ∧
    (Memory.read TTEntry.reset badEntry.tt 1).nn.toNat < 1 := by decide +kernel

/-- The bandwidth and range clauses on single values. -/
theorem witness_SsInitRefusesBadConfigurations_values :
    ¬ finitePositive fNegZero ∧ ¬ finitePositive qNaN ∧ ¬ finitePositive posInf ∧ finitePositive 1 ∧
    2 ^ 32 - 1 < (0x100000000 : Word).toNat := by decide +kernel

/-- A table with a window of 8, which a ring of at most 8 words does not hold. -/
def wideEntry : State := { conf 0 0 with tt := [(0, ⟨0, 0, f4, 0, 8⟩)] }

/-- The capacity and smoothing clauses: the wide table, a NaN, and a window above 7. -/
theorem witness_SsInitRefusesBadConfigurations_capacity :
    (∀ b < wideEntry.ttCount.toNat, entryOk (Memory.read TTEntry.reset wideEntry.tt b)) ∧
    isLargestWindow wideEntry 8 ∧ 2 ^ wideEntry.params.rbLog2Max < ringCap 8 ∧
    ssInitReady (conf fone 0) ∧ isNaN qNaN = true ∧ flt fzero fone = true ∧
    (conv (fmul fone f8) (2 ^ small.hmaLog2Max - 1)).2 = true :=
  ⟨by decide +kernel, by decide +kernel, by decide +kernel, by decide +kernel, by decide +kernel⟩

theorem witness_ProcessConsumesItsBatch :
    p2.status.init = true ∧ (4 : BitVec 24).toNat ≤ p2.params.batchMax ∧ State.reset.status.init = false ∧
    p2.params.batchMax < (5 : BitVec 24).toNat := by decide +kernel

theorem witness_ProcessUpdatesEveryLiveBin :
    (4 : BitVec 24).toNat ≤ p3.params.batchMax ∧ 3 < (4 : BitVec 24).toNat ∧
    ∀ s ∈ [p2, p3, p4], s.status.init = true ∧ 0 < s.nbins.toNat := by decide +kernel

theorem witness_EmptyBatchOnlySetsTheWindow :
    p2.status.init = true ∧ p2.ma.mode = .off ∧ p3.status.init = true ∧ p3.ma.mode ≠ .off ∧ p3.ma.cur = 0 ∧
    p3done.ma.cur ≠ 0 ∧ 0 < p3done.nbins.toNat := by decide +kernel

/-- P2 is a state of the invariant. -/
theorem p2_inv : p2.inv :=
  ⟨by decide +kernel, by decide +kernel, by decide +kernel, by decide +kernel, by decide +kernel, by decide +kernel,
    by decide +kernel, by decide +kernel⟩

theorem witness_UnsmoothedOutputsAreLevels :
    p2.inv ∧ p2.status.init = true ∧ p2.ma.mode = .off ∧ 1 ≤ (3 : BitVec 24).toNat ∧
    (3 : BitVec 24).toNat ≤ p2.params.batchMax ∧ exec (.process 3) p2 = .next p2done ∧ 0 < p2.nbins.toNat :=
  ⟨p2_inv, by decide +kernel, by decide +kernel, by decide, by decide +kernel, next_of (by decide +kernel),
    by decide +kernel⟩

/-- P3 with a window of 0, which stays 0. -/
def p3zero : State := { after .ssInit (conf fQuarter 0) with batch := [(0, fone), (3, fone)] }

theorem witness_UnsmoothedOutputsAreLevels_zeroWindow :
    p3zero.inv ∧ p3zero.status.init = true ∧ exec (.process 4) p3zero = .next (after (.process 4) p3zero) ∧
    p3zero.ma.mode = .heavy ∧ (after (.process 4) p3zero).ma.cur = 0 :=
  ⟨⟨by decide +kernel, by decide +kernel, by decide +kernel, by decide +kernel, by decide +kernel, by decide +kernel,
      by decide +kernel, by decide +kernel⟩,
    by decide +kernel, next_of (by decide +kernel), by decide +kernel, by decide +kernel⟩

theorem witness_OutputsAndInitChangeOnlyByTheirCommands :
    step busyState = .next (after (.process 3) busyState) ∧ busyState.turns = [] ∧
    nextCommand busyState = some (.process 3) ∧ nextCommand p2 = none :=
  ⟨next_of (by decide +kernel), by decide +kernel, by decide +kernel, by decide +kernel⟩

theorem witness_EveryStepKeepsTheInvariant : p2.inv ∧ step p2 = .next p2 :=
  ⟨p2_inv, next_of (by decide +kernel)⟩

end Sys2Proof.Tests
end

section
/-! PROOFS. Binary64 patterns: classes of operands, and the exact values behind the patterns. -/

namespace Sys2Proof.Machine

/-! ### Signs and classes -/

theorem isNaN_eq_false_of_isFinite {x : F64} (h : isFinite x = true) : isNaN x = false := by
  simp only [isNaN, isFinite, decide_eq_true_eq, decide_eq_false_iff_not] at h ⊢
  omega

theorem isInf_eq_false_of_isFinite {x : F64} (h : isFinite x = true) : isInf x = false := by
  simp only [isInf, isFinite, decide_eq_true_eq, decide_eq_false_iff_not] at h ⊢
  omega

theorem isNaN_eq_false_of_isInf {x : F64} (h : isInf x = true) : isNaN x = false := by
  simp only [isNaN, isInf, decide_eq_true_eq, decide_eq_false_iff_not] at h ⊢
  omega

theorem isZero_eq_false_of_isInf {x : F64} (h : isInf x = true) : isZero x = false := by
  have hm : fMag x = infMag := by simpa [isInf] using h
  simp [isZero, hm, infMag]

theorem isNaN_eq_false_of_isZero {x : F64} (h : isZero x = true) : isNaN x = false := by
  simp only [isZero, decide_eq_true_eq] at h
  simp [isNaN, h]

theorem fMag_le_infMag {a : F64} (h : isNaN a = false) : fMag a ≤ infMag := by
  simpa [isNaN] using h

theorem eq_inf_of_isInf {x : F64} (h : isInf x = true) : x = if fSign x = true then negInf else posInf := by
  have hm : fMag x = infMag := by simpa [isInf] using h
  rw [← fOfMag_fSign_fMag x, hm, fSign_fOfMag _ (by norm_num [infMag])]
  cases fSign x <;> rfl

/-- The classes of two operands that the operations tell apart. -/
theorem operand_cases (a b : F64) :
    (isNaN a = true ∨ isNaN b = true) ∨ (isInf a = true ∧ isNaN b = false) ∨ (isFinite a = true ∧ isInf b = true) ∨
    (isFinite a = true ∧ isFinite b = true) := by
  rcases class_cases a with ⟨ha, -, -⟩ | ⟨-, ha, -⟩ | ⟨-, -, ha⟩ <;>
    rcases class_cases b with ⟨hb, -, -⟩ | ⟨hb', hb, -⟩ | ⟨hb', -, hb⟩ <;> simp [*]

theorem isNaN_fOfMag (b : Bool) {m : Nat} (h : m ≤ infMag) : isNaN (fOfMag b m) = false := by
  have hm : m < 2 ^ 63 := h.trans_lt (by norm_num [infMag])
  simpa [isNaN, fMag_fOfMag b hm] using h

theorem isNaN_roundTo (neg : Bool) (num den : Nat) : isNaN (roundTo neg num den) = false :=
  (roundTo_sign_class neg num den).2

@[simp] theorem fSign_fneg (x : F64) : fSign (fneg x) = !fSign x := fSign_fOfMag _ (fMag_lt x)

@[simp] theorem fMag_fneg (x : F64) : fMag (fneg x) = fMag x := fMag_fOfMag _ (fMag_lt x)

@[simp] theorem isNaN_fneg (x : F64) : isNaN (fneg x) = isNaN x := by simp [isNaN]

@[simp] theorem isInf_fneg (x : F64) : isInf (fneg x) = isInf x := by simp [isInf]

@[simp] theorem isFinite_fneg (x : F64) : isFinite (fneg x) = isFinite x := by simp [isFinite]

theorem fneg_of_isInf {a : F64} (h : isInf a = true) : fneg a = if fSign a = true then posInf else negInf := by
  rw [eq_inf_of_isInf (x := fneg a) (by rwa [isInf_fneg]), fSign_fneg]
  cases fSign a <;> rfl

/-- The infinity with the sign of a product or quotient. -/
theorem fOfMag_bne_infMag (p q : Bool) : fOfMag (p != q) infMag = if p = q then posInf else negInf := by
  cases p <;> cases q <;> rfl

/-- The zero with the sign of a quotient. -/
theorem fOfMag_bne_zero (p q : Bool) : fOfMag (p != q) 0 = if p = q then fzero else fNegZero := by
  cases p <;> cases q <;> rfl

/-- The zero with the sign of an exact zero sum. -/
theorem fOfMag_and_zero (p q : Bool) : fOfMag (p && q) 0 = if p = true ∧ q = true then fNegZero else fzero := by
  cases p <;> cases q <;> rfl

/-! ### Exact values of magnitude patterns -/

/-- A magnitude pattern is its exponent above its significand, which has 53 bits where the exponent is not the least. -/
theorem magExp_magSig (mag : Nat) :
    mag = magExp mag * 2 ^ 52 + magSig mag ∧ magSig mag < 2 ^ 53 ∧ (magExp mag = 0 ∨ 2 ^ 52 ≤ magSig mag) := by
  unfold magExp magSig
  split <;> omega

/-- The value of a pattern given by exponent and significand; the significand 2^53 carries into the exponent. -/
theorem magUnits_of_exp_sig {e m : Nat} (hm : m ≤ 2 ^ 53) (he : e = 0 ∨ 2 ^ 52 ≤ m) :
    magUnits (e * 2 ^ 52 + m) = m * 2 ^ e := by
  rcases hm.lt_or_eq with hlt | rfl
  · have hexp : magExp (e * 2 ^ 52 + m) = e := by unfold magExp; omega
    have hsig : magSig (e * 2 ^ 52 + m) = m := by unfold magSig; split <;> omega
    rw [magUnits, hexp, hsig]
  · have hexp : magExp (e * 2 ^ 52 + 2 ^ 53) = e + 1 := by unfold magExp; omega
    have hsig : magSig (e * 2 ^ 52 + 2 ^ 53) = 2 ^ 52 := by unfold magSig; split <;> omega
    rw [magUnits, hexp, hsig]
    ring

theorem magUnits_strictMono : StrictMono magUnits := by
  refine strictMono_nat_of_lt_succ fun mag => ?_
  obtain ⟨hmag, hsig, hexp⟩ := magExp_magSig mag
  have hsucc : magUnits (magExp mag * 2 ^ 52 + (magSig mag + 1)) = (magSig mag + 1) * 2 ^ magExp mag :=
    magUnits_of_exp_sig (by omega) (by omega)
  rw [← Nat.add_assoc, ← hmag] at hsucc
  rw [hsucc, magUnits]
  exact Nat.mul_lt_mul_of_pos_right (Nat.lt_succ_self _) (by positivity)

@[simp] theorem magUnits_zero : magUnits 0 = 0 := rfl

theorem magUnits_eq_zero {mag : Nat} : magUnits mag = 0 ↔ mag = 0 :=
  magUnits_strictMono.injective.eq_iff' magUnits_zero

/-- The grid of the values: one that is not below 2^(52 + sh) units is a multiple of 2^sh. -/
theorem pow_dvd_magUnits_or_lt (mag sh : Nat) : 2 ^ sh ∣ magUnits mag ∨ magUnits mag < 2 ^ (52 + sh) := by
  obtain ⟨-, hsig, -⟩ := magExp_magSig mag
  rcases Nat.lt_or_ge (magExp mag) sh with h | h
  · right
    calc magUnits mag < 2 ^ 53 * 2 ^ magExp mag := Nat.mul_lt_mul_of_pos_right hsig (by positivity)
      _ = 2 ^ (53 + magExp mag) := by rw [pow_add]
      _ ≤ 2 ^ (52 + sh) := Nat.pow_le_pow_right (by norm_num) (by omega)
  · exact .inl ((pow_dvd_pow 2 h).mul_left _)

/-- The largest value of an exponent is one significand unit below the next power of two. -/
theorem magUnits_le {mag e : Nat} (h : magExp mag ≤ e + 1) : magUnits mag ≤ (2 ^ 54 - 2) * 2 ^ e := by
  obtain ⟨-, hsig, -⟩ := magExp_magSig mag
  calc magUnits mag ≤ (2 ^ 53 - 1) * 2 ^ (e + 1) :=
        Nat.mul_le_mul (by omega) (Nat.pow_le_pow_right (by norm_num) h)
    _ = (2 ^ 54 - 2) * 2 ^ e := by ring

/-- Every integer of at most 53 bits, scaled by 2^e, is the value of a pattern. -/
theorem exists_magUnits_eq (e k : Nat) (hk : k ≤ 2 ^ 53) : ∃ mag ≤ e * 2 ^ 52 + 2 ^ 53, magUnits mag = k * 2 ^ e := by
  induction e generalizing k with
  | zero => exact ⟨0 * 2 ^ 52 + k, by omega, magUnits_of_exp_sig hk (.inl rfl)⟩
  | succ e ih =>
    rcases Nat.lt_or_ge k (2 ^ 52) with hlt | hge
    · obtain ⟨mag, hle, hmag⟩ := ih (2 * k) (by omega)
      exact ⟨mag, hle.trans (by omega), by rw [hmag]; ring⟩
    · exact ⟨(e + 1) * 2 ^ 52 + k, by omega, magUnits_of_exp_sig hk (.inr hge)⟩

/-! ### Exact values of f64 -/

@[simp] theorem fUnits_fneg (x : F64) : fUnits (fneg x) = -fUnits x := by
  cases h : fSign x <;> simp [fUnits, h]

theorem fUnits_fOfMag (b : Bool) {m : Nat} (h : m < 2 ^ 63) :
    fUnits (fOfMag b m) = if b = true then -(magUnits m : Int) else magUnits m := by
  simp [fUnits, fSign_fOfMag b h, fMag_fOfMag b h]

@[simp] theorem natAbs_fUnits (x : F64) : (fUnits x).natAbs = magUnits (fMag x) := by
  cases h : fSign x <;> simp [fUnits, h]

theorem fUnits_eq_zero {x : F64} : fUnits x = 0 ↔ isZero x = true := by
  rw [← Int.natAbs_eq_zero, natAbs_fUnits, magUnits_eq_zero, isZero, decide_eq_true_eq]

theorem pow_dvd_fUnits_or_lt (x : F64) (sh : Nat) :
    (2 ^ sh : Int) ∣ fUnits x ∨ (fUnits x).natAbs < 2 ^ (52 + sh) := by
  rw [natAbs_fUnits]
  refine (pow_dvd_magUnits_or_lt (fMag x) sh).imp_left fun h => ?_
  rw [← Int.natAbs_dvd_natAbs, natAbs_fUnits, Int.natAbs_pow]
  exact h

theorem natAbs_fUnits_lt_overflowUnits {x : F64} (h : isFinite x = true) : (fUnits x).natAbs < overflowUnits := by
  obtain ⟨hmag, -, hnorm⟩ := magExp_magSig (fMag x)
  have hfin : fMag x < infMag := by simpa [isFinite] using h
  have hexp : magExp (fMag x) ≤ 2044 + 1 := by unfold infMag at hfin; omega
  rw [natAbs_fUnits, overflowUnits]
  exact (magUnits_le hexp).trans_lt (Nat.mul_lt_mul_of_pos_right (by norm_num) (by positivity))

/-- Every integer of at most 53 bits, scaled into the range of the exponents, is a finite value. -/
theorem exists_fUnits_eq {e k : Nat} (hk : k ≤ 2 ^ 53) (he : e ≤ 2044) :
    ∃ c : F64, isFinite c = true ∧ fUnits c = (k : Int) * 2 ^ e := by
  obtain ⟨mag, hle, hmag⟩ := exists_magUnits_eq e k hk
  have hinf : mag < infMag := by unfold infMag; omega
  have hlt : mag < 2 ^ 63 := hinf.trans (by norm_num [infMag])
  refine ⟨fOfMag false mag, ?_, ?_⟩
  · simpa [isFinite, fMag_fOfMag _ hlt] using hinf
  · simp [fUnits_fOfMag _ hlt, hmag]

/-! ### Ranks -/

/-- The ranks are in the order of the exact values. -/
theorem fRank_lt_fRank {a b : F64} : fRank a < fRank b ↔ fUnits a < fUnits b := by
  have ha := fMag_lt a
  have hb := fMag_lt b
  have hlt : magUnits (fMag a) < magUnits (fMag b) ↔ fMag a < fMag b := magUnits_strictMono.lt_iff_lt
  have hgt : magUnits (fMag b) < magUnits (fMag a) ↔ fMag b < fMag a := magUnits_strictMono.lt_iff_lt
  have ha0 := @magUnits_eq_zero (fMag a)
  have hb0 := @magUnits_eq_zero (fMag b)
  unfold fRank fUnits
  cases fSign a <;> cases fSign b <;> simp <;> omega

theorem fRank_le_fRank {a b : F64} : fRank a ≤ fRank b ↔ fUnits a ≤ fUnits b := by
  rw [← not_lt, fRank_lt_fRank, not_lt]

theorem fRank_eq_fRank {a b : F64} : fRank a = fRank b ↔ fUnits a = fUnits b := by
  rw [le_antisymm_iff, le_antisymm_iff, fRank_le_fRank, fRank_le_fRank]

theorem fRank_negInf : fRank negInf = 2 ^ 63 - infMag := by decide +kernel

theorem fRank_posInf : fRank posInf = 2 ^ 63 + infMag := by decide +kernel

theorem fRank_bounds_of_isFinite {a : F64} (h : isFinite a = true) :
    2 ^ 63 - infMag < fRank a ∧ fRank a < 2 ^ 63 + infMag := by
  have hfin : fMag a < infMag := by simpa [isFinite] using h
  unfold infMag at *
  unfold fRank
  split <;> omega

theorem fRank_fOfMag (b : Bool) {m : Nat} (h : m ≤ infMag) :
    fRank (fOfMag b m) = if b = true then 2 ^ 63 - m else 2 ^ 63 + m := by
  have hm : m < 2 ^ 63 := h.trans_lt (by norm_num [infMag])
  rw [fRank, fSign_fOfMag _ hm, fMag_fOfMag _ hm]

/-- Below, at and above the rank of the zeros lie the negative values, the zeros and the positive values. -/
theorem fRank_eq_iff_isZero {x : F64} : fRank x = 2 ^ 63 ↔ isZero x = true := by
  have := fMag_lt x
  simp only [fRank, isZero, decide_eq_true_eq]
  split <;> omega

theorem fRank_lt_iff {x : F64} (hz : isZero x = false) : fRank x < 2 ^ 63 ↔ fSign x = true := by
  simp only [isZero, decide_eq_false_iff_not] at hz
  unfold fRank
  cases fSign x
  · simp
  · simp
    omega

end Sys2Proof.Machine
end

section
/-! PROOFS. `roundTo` rounds to nearest, ties to even (00_scope.md R19). -/

namespace Sys2Proof.Machine

/-! ### Rounding to an integer -/

/-- The rounded quotient is at most half a unit from the exact one, and even where it is half a unit away. -/
theorem roundNearestEven_bounds (num : Nat) {den : Nat} (hd : 0 < den) :
    2 * num ≤ 2 * (roundNearestEven num den * den) + den ∧
    2 * (roundNearestEven num den * den) ≤ 2 * num + den ∧
    (2 * num = 2 * (roundNearestEven num den * den) + den ∨ 2 * (roundNearestEven num den * den) = 2 * num + den →
      roundNearestEven num den % 2 = 0) := by
  have hdiv : num / den * den + num % den = num := Nat.div_add_mod' num den
  have hmod : num % den < den := Nat.mod_lt _ hd
  have hsucc : (num / den + 1) * den = num / den * den + den := Nat.succ_mul _ _
  unfold roundNearestEven
  dsimp only
  split
  · rw [hsucc]; omega
  · omega

/-- No multiple of the unit is nearer than the rounded quotient, and another one as near leaves it even. -/
theorem roundNearestEven_nearest (num : Nat) {den : Nat} (hd : 0 < den) (k : Int) :
    ((roundNearestEven num den : Int) * den - num).natAbs ≤ (k * den - num).natAbs ∧
    (((roundNearestEven num den : Int) * den - num).natAbs = (k * den - num).natAbs →
      k ≠ roundNearestEven num den → roundNearestEven num den % 2 = 0) := by
  obtain ⟨hlo, hhi, heven⟩ := roundNearestEven_bounds num hd
  generalize roundNearestEven num den = m at *
  zify at hlo hhi heven
  rcases lt_trichotomy k m with hlt | rfl | hgt
  · have hstep : k * den ≤ m * den - den := by nlinarith
    omega
  · simp
  · have hstep : m * den + den ≤ k * den := by nlinarith
    omega

/-! ### The shift and the significand of `roundMag` -/

/-- How far `roundMag` shifts the result to the right. -/
def roundShift (num den : Nat) : Nat := if num / den < 2 ^ 53 then 0 else Nat.log2 (num / den) - 52

/-- The significand to which `roundMag` rounds. -/
def roundSig (num den : Nat) : Nat := roundNearestEven num (den * 2 ^ roundShift num den)

theorem roundMag_eq (num den : Nat) :
    roundMag num den = min (roundShift num den * 2 ^ 52 + roundSig num den) infMag := rfl

/-- The shift leaves 53 bits before the point, or there were fewer and it is 0. -/
theorem roundShift_spec (num : Nat) {den : Nat} (hd : 0 < den) :
    num < 2 ^ 53 * (den * 2 ^ roundShift num den) ∧
    (roundShift num den = 0 ∨ 2 ^ 52 * (den * 2 ^ roundShift num den) ≤ num) := by
  rw [← Nat.div_lt_iff_lt_mul (by positivity), ← Nat.le_div_iff_mul_le (by positivity), ← Nat.div_div_eq_div_mul]
  unfold roundShift
  split
  case isTrue h => simpa using h
  case isFalse h =>
    have hq : num / den ≠ 0 := by omega
    have hlog : 53 ≤ Nat.log2 (num / den) := (Nat.le_log2 hq).mpr (by omega)
    have hlo := Nat.log2_self_le hq
    have hhi := Nat.lt_log2_self (n := num / den)
    obtain ⟨e, he⟩ := Nat.exists_eq_add_of_le' hlog
    rw [he] at hlo hhi ⊢
    have hsh : e + 53 - 52 = e + 1 := by omega
    rw [hsh, Nat.div_lt_iff_lt_mul (by positivity), Nat.le_div_iff_mul_le (by positivity)]
    constructor
    · exact hhi.trans_eq (by ring)
    · exact .inr ((le_of_eq (by ring)).trans hlo)

/-- The rounded significand has 53 bits, where it has not carried into the 54th or is shorter and unshifted. -/
theorem roundSig_spec (num : Nat) {den : Nat} (hd : 0 < den) :
    roundSig num den ≤ 2 ^ 53 ∧ (roundShift num den = 0 ∨ 2 ^ 52 ≤ roundSig num den) := by
  obtain ⟨hlt, hge⟩ := roundShift_spec num hd
  have hunit : 0 < den * 2 ^ roundShift num den := by positivity
  obtain ⟨hlo, hhi, -⟩ := roundNearestEven_bounds num hunit
  rw [← roundSig] at hlo hhi
  constructor
  · by_contra! h
    nlinarith
  · refine hge.imp_right fun hge => ?_
    by_contra! h
    nlinarith

/-- The rounded pattern reaches that of 2^(e + 54) units from half a unit in the last place below it on. -/
theorem carries_iff (num e : Nat) {den : Nat} (hd : 0 < den) :
    (e + 3) * 2 ^ 52 ≤ roundShift num den * 2 ^ 52 + roundSig num den ↔ (2 ^ 54 - 1) * 2 ^ e * den ≤ num := by
  obtain ⟨hlt, hge⟩ := roundShift_spec num hd
  obtain ⟨hsig, hnorm⟩ := roundSig_spec num hd
  have hunit : 0 < den * 2 ^ roundShift num den := by positivity
  obtain ⟨hlo, hhi, heven⟩ := roundNearestEven_bounds num hunit
  rw [← roundSig] at hlo hhi heven
  rw [mul_assoc, mul_comm (2 ^ e)]
  rcases Nat.lt_trichotomy (roundShift num den) (e + 1) with h | h | h
  · have hle : den * 2 ^ roundShift num den ≤ den * 2 ^ e :=
      Nat.mul_le_mul_left _ (Nat.pow_le_pow_right (by norm_num) (by omega))
    omega
  · have hdouble : den * 2 ^ roundShift num den = 2 * (den * 2 ^ e) := by rw [h]; ring
    rw [hdouble] at hlt hge hunit hlo hhi heven
    generalize den * 2 ^ e = u at *
    generalize roundSig num den = m at *
    rcases hsig.eq_or_lt with rfl | hsig
    · omega
    · have hm : m * (2 * u) ≤ (2 ^ 53 - 1) * (2 * u) := Nat.mul_le_mul_right _ (by omega)
      rcases Nat.lt_or_ge (2 * num) (2 * (m * (2 * u)) + 2 * u) with hnum | hnum
      · omega
      · have := heven (.inl (by omega))
        have hm : m * (2 * u) ≤ (2 ^ 53 - 2) * (2 * u) := Nat.mul_le_mul_right _ (by omega)
        omega
  · have hle : 4 * (den * 2 ^ e) ≤ den * 2 ^ roundShift num den :=
      (le_of_eq (by ring : _ = den * 2 ^ (e + 2))).trans
        (Nat.mul_le_mul_left _ (Nat.pow_le_pow_right (by norm_num) h))
    omega

/-- Rounding overflows from half a unit above the largest finite value on. -/
theorem roundMag_eq_infMag_iff (num : Nat) {den : Nat} (hd : 0 < den) :
    roundMag num den = infMag ↔ overflowUnits * den ≤ num := by
  rw [overflowUnits, ← carries_iff num 2044 hd, roundMag_eq, min_eq_right_iff]
  rfl

/-- The exact value of a rounded magnitude that does not overflow. -/
theorem magUnits_roundMag {num den : Nat} (hd : 0 < den) (h : roundMag num den < infMag) :
    magUnits (roundMag num den) = roundSig num den * 2 ^ roundShift num den ∧
    roundMag num den % 2 = roundSig num den % 2 := by
  obtain ⟨hsig, hnorm⟩ := roundSig_spec num hd
  have hmag : roundMag num den = roundShift num den * 2 ^ 52 + roundSig num den := by
    rw [roundMag_eq] at h ⊢
    omega
  rw [hmag]
  exact ⟨magUnits_of_exp_sig hsig hnorm, by omega⟩

/-- No value on the grid of the binary64 numbers, of either sign, is nearer to `num / den` than the rounded one, and
another one as near leaves its significand even. -/
theorem roundSig_nearest (num : Nat) {den : Nat} (hd : 0 < den) {u : Int}
    (hu : (2 ^ roundShift num den : Int) ∣ u ∨ u.natAbs < 2 ^ (52 + roundShift num den)) :
    ((roundSig num den * 2 ^ roundShift num den : Int) * den - num).natAbs ≤ (u * den - num).natAbs ∧
    (((roundSig num den * 2 ^ roundShift num den : Int) * den - num).natAbs = (u * den - num).natAbs →
      u ≠ roundSig num den * 2 ^ roundShift num den → roundSig num den % 2 = 0) := by
  have hunit : 0 < den * 2 ^ roundShift num den := by positivity
  have hnear := roundNearestEven_nearest num hunit
  rw [← roundSig] at hnear
  push_cast at hnear
  have hcomm : ∀ k : Int, k * (den * 2 ^ roundShift num den) = k * 2 ^ roundShift num den * den := fun k => by ring
  simp only [hcomm] at hnear
  by_cases hdvd : (2 ^ roundShift num den : Int) ∣ u
  · obtain ⟨k, rfl⟩ := hdvd
    rw [mul_comm _ k]
    refine ⟨(hnear k).1, fun heq hne => (hnear k).2 heq ?_⟩
    rintro rfl
    exact hne rfl
  · have hshort : u.natAbs < 2 ^ (52 + roundShift num den) := hu.resolve_left hdvd
    have hge : 2 ^ 52 * (den * 2 ^ roundShift num den) ≤ num :=
      (roundShift_spec num hd).2.resolve_left fun h0 => hdvd (by simp [h0])
    -- the power of two below the exact value is on the grid and nearer than u
    have hpow : ((2 ^ 52 * 2 ^ roundShift num den : Int) * den - num).natAbs < (u * den - num).natAbs := by
      have hlt : u < 2 ^ 52 * 2 ^ roundShift num den := by
        rw [← pow_add]
        zify at hshort
        exact (le_abs_self u).trans_lt hshort
      have hmul : u * den < 2 ^ 52 * 2 ^ roundShift num den * den := mul_lt_mul_of_pos_right hlt (by exact_mod_cast hd)
      have hge' : (2 ^ 52 * 2 ^ roundShift num den * den : Int) ≤ num := by
        zify at hge
        linarith
      omega
    have hlt := (hnear (2 ^ 52)).1.trans_lt hpow
    exact ⟨hlt.le, fun heq => absurd heq hlt.ne⟩

theorem roundMag_zero (den : Nat) : roundMag 0 den = 0 := by
  simp [roundMag, roundNearestEven]

/-! ### `RoundsTo` -/

theorem overflowUnits_mul_pos {den : Nat} (hd : 0 < den) : 0 < overflowUnits * den :=
  Nat.mul_pos (Nat.mul_pos (by norm_num) (by positivity)) hd

/-- `RoundsTo` with its cases as named fields. It also keeps the elaborator from computing `overflowUnits`. -/
structure IsRounding (r : F64) (num : Int) (den : Nat) : Prop where
  overflow : overflowUnits * den ≤ num.natAbs → isInf r = true ∧ (fSign r = true ↔ num < 0)
  finite : num.natAbs < overflowUnits * den → isFinite r = true
  nearest : num.natAbs < overflowUnits * den → ∀ c : F64, isFinite c = true →
    (fUnits r * den - num).natAbs ≤ (fUnits c * den - num).natAbs
  even : num.natAbs < overflowUnits * den → ∀ c : F64, isFinite c = true →
    (fUnits r * den - num).natAbs = (fUnits c * den - num).natAbs → fUnits c ≠ fUnits r → fMag r % 2 = 0

theorem roundsTo_iff_isRounding {r : F64} {num : Int} {den : Nat} : RoundsTo r num den ↔ IsRounding r num den := by
  rw [RoundsTo, ite_prop_iff_and, Nat.not_le]
  constructor
  · rintro ⟨hover, hnear⟩
    exact ⟨hover, fun h => (hnear h).1, fun h c hc => ((hnear h).2 c hc).1, fun h c hc => ((hnear h).2 c hc).2⟩
  · rintro ⟨hover, hfin, hnear, heven⟩
    exact ⟨hover, fun h => ⟨hfin h, fun c hc => ⟨hnear h c hc, heven h c hc⟩⟩⟩

theorem natAbs_neg_mul_sub_neg (u v w : Int) : (-u * v - -w).natAbs = (u * v - w).natAbs := by
  rw [neg_mul, neg_sub_neg, ← neg_sub, Int.natAbs_neg]

/-- Rounding to nearest, ties to even, is symmetric in the sign. -/
theorem IsRounding.neg {r : F64} {num : Int} {den : Nat} (hd : 0 < den) (h : IsRounding r num den) :
    IsRounding (fneg r) (-num) den := by
  have hdist : ∀ c : F64, (fUnits (fneg c) * den - num).natAbs = (fUnits c * den - -num).natAbs := fun c => by
    rw [← natAbs_neg_mul_sub_neg, fUnits_fneg, neg_neg]
  constructor
  · rw [Int.natAbs_neg, isInf_fneg, fSign_fneg]
    intro ho
    obtain ⟨hinf, hsign⟩ := h.overflow ho
    have hpos := (overflowUnits_mul_pos hd).trans_le ho
    refine ⟨hinf, ?_⟩
    rw [Bool.not_eq_true', ← Bool.not_eq_true, hsign]
    omega
  · rw [Int.natAbs_neg, isFinite_fneg]
    exact h.finite
  · intro ho c hc
    rw [Int.natAbs_neg] at ho
    rw [fUnits_fneg, natAbs_neg_mul_sub_neg, ← hdist]
    exact h.nearest ho _ (by rwa [isFinite_fneg])
  · intro ho c hc heq hne
    rw [Int.natAbs_neg] at ho
    rw [fUnits_fneg, natAbs_neg_mul_sub_neg, ← hdist] at heq
    rw [fMag_fneg]
    rw [fUnits_fneg] at hne
    exact h.even ho _ (by rwa [isFinite_fneg]) heq (by rw [fUnits_fneg]; omega)

theorem roundTo_true (num den : Nat) : roundTo true num den = fneg (roundTo false num den) := by
  have hmag : roundMag num den < 2 ^ 63 := (roundMag_le num den).trans_lt (by norm_num [infMag])
  simp [roundTo, fneg, fSign_fOfMag _ hmag, fMag_fOfMag _ hmag]

theorem roundTo_false_isRounding (num : Nat) {den : Nat} (hd : 0 < den) :
    IsRounding (roundTo false num den) num den := by
  have hmag : roundMag num den < 2 ^ 63 := (roundMag_le num den).trans_lt (by norm_num [infMag])
  have hsign : fSign (roundTo false num den) = false := fSign_fOfMag _ hmag
  have hfMag : fMag (roundTo false num den) = roundMag num den := fMag_fOfMag _ hmag
  have hfin : num < overflowUnits * den → roundMag num den < infMag := fun ho =>
    lt_of_le_of_ne (roundMag_le num den) fun heq => ho.not_ge ((roundMag_eq_infMag_iff num hd).mp heq)
  have hunits : num < overflowUnits * den →
      fUnits (roundTo false num den) = roundSig num den * 2 ^ roundShift num den := fun ho => by
    simp [fUnits, hsign, hfMag, (magUnits_roundMag hd (hfin ho)).1]
  have hnear := fun c : F64 => roundSig_nearest num hd (pow_dvd_fUnits_or_lt c (roundShift num den))
  constructor
  · intro ho
    have hinf := (roundMag_eq_infMag_iff num hd).mpr ho
    simp [isInf, hfMag, hinf, hsign]
  · intro ho
    simpa [isFinite, hfMag] using hfin ho
  · intro ho c _
    rw [hunits ho]
    exact (hnear c).1
  · intro ho c _ heq hne
    rw [hunits ho] at heq hne
    rw [hfMag, (magUnits_roundMag hd (hfin ho)).2]
    exact (hnear c).2 heq hne

/-- `roundTo` rounds a signed exact value to nearest, ties to even. -/
theorem roundTo_isRounding (neg : Bool) (num : Nat) {den : Nat} (hd : 0 < den) :
    IsRounding (roundTo neg num den) (if neg = true then -(num : Int) else num) den := by
  cases neg with
  | false => exact roundTo_false_isRounding num hd
  | true => exact roundTo_true num den ▸ (roundTo_false_isRounding num hd).neg hd

/-- The sign test and the absolute value of an integer give its rounding. -/
theorem roundTo_int_isRounding (v : Int) {den : Nat} (hd : 0 < den) :
    IsRounding (roundTo (decide (v < 0)) v.natAbs den) v den := by
  have hv : (if decide (v < 0) = true then -(v.natAbs : Int) else v.natAbs) = v := by
    simp only [decide_eq_true_eq]
    omega
  have h := roundTo_isRounding (decide (v < 0)) v.natAbs hd
  rwa [hv] at h

/-- A value that is exactly representable is not changed by rounding. -/
theorem IsRounding.exact {r c : F64} {num : Int} {den : Nat} (hd : 0 < den) (h : IsRounding r num den)
    (hc : isFinite c = true) (hnum : num = fUnits c * den) : isFinite r = true ∧ fUnits r = fUnits c := by
  have ho : num.natAbs < overflowUnits * den := by
    rw [hnum, Int.natAbs_mul, Int.natAbs_natCast]
    exact Nat.mul_lt_mul_of_pos_right (natAbs_fUnits_lt_overflowUnits hc) hd
  have hnear := h.nearest ho c hc
  rw [hnum, sub_self, Int.natAbs_zero, Nat.le_zero, Int.natAbs_eq_zero, ← sub_mul] at hnear
  exact ⟨h.finite ho, sub_eq_zero.mp ((mul_eq_zero.mp hnear).resolve_right (by omega))⟩

end Sys2Proof.Machine
end

section
/-! PROOFS. The operations by the classes of their operands, their special results and their rounding (O27, O28). -/

namespace Sys2Proof.Machine

/-! ### The operations, class by class of their operands -/

theorem fadd_of_isNaN {a b : F64} (h : isNaN a = true ∨ isNaN b = true) : fadd a b = qNaN := by
  simp [fadd, h]

theorem fadd_of_isInf {a b : F64} (ha : isInf a = true) (hb : isNaN b = false) :
    fadd a b = if isInf b = true ∧ fSign a ≠ fSign b then qNaN else a := by
  simp [fadd, ha, hb, isNaN_eq_false_of_isInf ha]

theorem fadd_of_isFinite {a b : F64} (ha : isFinite a = true) (hb : isFinite b = true) :
    fadd a b = if fUnits a + fUnits b = 0 then fOfMag (fSign a && fSign b) 0
      else roundTo (decide (fUnits a + fUnits b < 0)) (fUnits a + fUnits b).natAbs 1 := by
  simp [fadd, isNaN_eq_false_of_isFinite, isInf_eq_false_of_isFinite, ha, hb]

theorem fadd_comm (a b : F64) : fadd a b = fadd b a := by
  rcases class_cases a with ⟨ha, -⟩ | ⟨ha, hai, -⟩ | ⟨ha, hai, haf⟩
  · rw [fadd_of_isNaN (.inl ha), fadd_of_isNaN (.inr ha)]
  · rcases class_cases b with ⟨hb, -⟩ | ⟨hb, hbi, -⟩ | ⟨hb, hbi, -⟩
    · rw [fadd_of_isNaN (.inl hb), fadd_of_isNaN (.inr hb)]
    · rw [fadd_of_isInf hai hb, fadd_of_isInf hbi ha]
      by_cases hs : fSign a = fSign b
      · obtain rfl : a = b := by rw [eq_inf_of_isInf hai, eq_inf_of_isInf hbi, hs]
        rfl
      · simp [hai, hbi, hs, Ne.symm hs]
    · simp [fadd, ha, hai, hb, hbi]
  · rcases class_cases b with ⟨hb, -⟩ | ⟨hb, hbi, -⟩ | ⟨hb, hbi, hbf⟩
    · rw [fadd_of_isNaN (.inl hb), fadd_of_isNaN (.inr hb)]
    · simp [fadd, ha, hai, hb, hbi]
    · rw [fadd_of_isFinite haf hbf, fadd_of_isFinite hbf haf, add_comm, Bool.and_comm]

theorem fmul_of_isNaN {a b : F64} (h : isNaN a = true ∨ isNaN b = true) : fmul a b = qNaN := by
  simp [fmul, h]

theorem fmul_of_isInf {a b : F64} (ha : isInf a = true) (hb : isNaN b = false) :
    fmul a b = if isZero b = true then qNaN else fOfMag (fSign a != fSign b) infMag := by
  simp [fmul, ha, hb, isNaN_eq_false_of_isInf ha, isZero_eq_false_of_isInf ha]

theorem fmul_of_isFinite {a b : F64} (ha : isFinite a = true) (hb : isFinite b = true) :
    fmul a b = roundTo (fSign a != fSign b) (magUnits (fMag a) * magUnits (fMag b)) (2 ^ 1074) := by
  simp [fmul, isNaN_eq_false_of_isFinite, isInf_eq_false_of_isFinite, ha, hb, -Nat.reducePow]

theorem fmul_comm (a b : F64) : fmul a b = fmul b a := by
  simp only [fmul, Bool.or_comm (isNaN a), Bool.or_comm (isInf a), Bool.or_comm (isZero a), bne_comm (a := fSign a),
    Nat.mul_comm (magUnits (fMag a))]

theorem fdiv_of_isNaN {a b : F64} (h : isNaN a = true ∨ isNaN b = true) : fdiv a b = qNaN := by
  simp [fdiv, h]

theorem fdiv_of_isInf_left {a b : F64} (ha : isInf a = true) (hb : isNaN b = false) :
    fdiv a b = if isInf b = true then qNaN else fOfMag (fSign a != fSign b) infMag := by
  simp [fdiv, ha, hb, isNaN_eq_false_of_isInf ha]

theorem fdiv_of_isInf_right {a b : F64} (ha : isNaN a = false) (hb : isInf b = true) :
    fdiv a b = if isInf a = true then qNaN else fOfMag (fSign a != fSign b) 0 := by
  by_cases hai : isInf a = true <;> simp [fdiv, ha, hb, hai, isNaN_eq_false_of_isInf hb]

theorem fdiv_of_isZero {a b : F64} (ha : isFinite a = true) (hb : isFinite b = true) (hz : isZero b = true) :
    fdiv a b = if isZero a = true then qNaN else fOfMag (fSign a != fSign b) infMag := by
  simp [fdiv, isNaN_eq_false_of_isFinite, isInf_eq_false_of_isFinite, ha, hb, hz]

theorem fdiv_of_isFinite {a b : F64} (ha : isFinite a = true) (hb : isFinite b = true) (hz : isZero b = false) :
    fdiv a b = roundTo (fSign a != fSign b) (magUnits (fMag a) * 2 ^ 1074) (magUnits (fMag b)) := by
  simp [fdiv, isNaN_eq_false_of_isFinite, isInf_eq_false_of_isFinite, ha, hb, hz, -Nat.reducePow]

theorem fsub_of_isInf {a b : F64} (ha : isInf a = true) (hb : isNaN b = false) :
    fsub a b = if isInf b = true ∧ fSign a = fSign b then qNaN else a := by
  rw [fsub, fadd_of_isInf ha (by rwa [isNaN_fneg]), isInf_fneg, fSign_fneg]
  cases fSign a <;> cases fSign b <;> simp

theorem fsub_of_isInf_right {a b : F64} (ha : isInf a = true) (hb : isNaN b = false) :
    fsub b a = if isInf b = true ∧ fSign a = fSign b then qNaN
      else if fSign a = true then posInf else negInf := by
  rw [fsub, fadd_comm, fadd_of_isInf (by rwa [isInf_fneg]) hb, fneg_of_isInf ha, ← fneg_of_isInf ha, fSign_fneg]
  cases fSign a <;> cases fSign b <;> simp

theorem fsqrt_of_isZero {a : F64} (h : isZero a = true) : fsqrt a = a := by
  simp [fsqrt, h, isNaN_eq_false_of_isZero]

theorem fsqrt_of_fSign {a : F64} (hz : isZero a = false) (hs : fSign a = true) : fsqrt a = qNaN := by
  simp [fsqrt, hz, hs]

theorem fabs_of_not_isNaN {a : F64} (h : isNaN a = false) : fabs a = fOfMag false (fMag a) := by
  simp [fabs, h]

theorem fabs_spec {a : F64} (h : isNaN a = false) :
    isNaN (fabs a) = false ∧ fSign (fabs a) = false ∧ fMag (fabs a) = fMag a := by
  rw [fabs_of_not_isNaN h]
  exact ⟨isNaN_fOfMag _ (fMag_le_infMag h), fSign_fOfMag _ (fMag_lt a), fMag_fOfMag _ (fMag_lt a)⟩

/-! ### NaN results -/

/-- A NaN result is the canonical one (00_scope.md R20). -/
def NaNIsCanonical (x : F64) : Prop := isNaN x = true → x = qNaN

theorem nanIsCanonical_of_not_isNaN {x : F64} (h : isNaN x = false) : NaNIsCanonical x := by
  simp [NaNIsCanonical, h]

theorem nanIsCanonical_qNaN : NaNIsCanonical qNaN := fun _ => rfl

theorem nanIsCanonical_ite {p : Prop} [Decidable p] {x : F64} (h : isNaN x = false) :
    NaNIsCanonical (if p then qNaN else x) := by
  split
  · exact nanIsCanonical_qNaN
  · exact nanIsCanonical_of_not_isNaN h

theorem fadd_nanIsCanonical (a b : F64) : NaNIsCanonical (fadd a b) := by
  rcases operand_cases a b with hn | ⟨ha, hb⟩ | ⟨ha, hb⟩ | ⟨ha, hb⟩
  · exact fun _ => fadd_of_isNaN hn
  · rw [fadd_of_isInf ha hb]
    exact nanIsCanonical_ite (isNaN_eq_false_of_isInf ha)
  · rw [fadd_comm, fadd_of_isInf hb (isNaN_eq_false_of_isFinite ha)]
    exact nanIsCanonical_ite (isNaN_eq_false_of_isInf hb)
  · rw [fadd_of_isFinite ha hb]
    split
    · exact nanIsCanonical_of_not_isNaN (isNaN_fOfMag _ (Nat.zero_le _))
    · exact nanIsCanonical_of_not_isNaN (isNaN_roundTo _ _ _)

theorem fmul_nanIsCanonical (a b : F64) : NaNIsCanonical (fmul a b) := by
  rcases operand_cases a b with hn | ⟨ha, hb⟩ | ⟨ha, hb⟩ | ⟨ha, hb⟩
  · exact fun _ => fmul_of_isNaN hn
  · rw [fmul_of_isInf ha hb]
    exact nanIsCanonical_ite (isNaN_fOfMag _ le_rfl)
  · rw [fmul_comm, fmul_of_isInf hb (isNaN_eq_false_of_isFinite ha)]
    exact nanIsCanonical_ite (isNaN_fOfMag _ le_rfl)
  · rw [fmul_of_isFinite ha hb]
    exact nanIsCanonical_of_not_isNaN (isNaN_roundTo _ _ _)

theorem fdiv_nanIsCanonical (a b : F64) : NaNIsCanonical (fdiv a b) := by
  rcases operand_cases a b with hn | ⟨ha, hb⟩ | ⟨ha, hb⟩ | ⟨ha, hb⟩
  · exact fun _ => fdiv_of_isNaN hn
  · rw [fdiv_of_isInf_left ha hb]
    exact nanIsCanonical_ite (isNaN_fOfMag _ le_rfl)
  · rw [fdiv_of_isInf_right (isNaN_eq_false_of_isFinite ha) hb]
    exact nanIsCanonical_ite (isNaN_fOfMag _ (Nat.zero_le _))
  · cases hz : isZero b with
    | false =>
      rw [fdiv_of_isFinite ha hb hz]
      exact nanIsCanonical_of_not_isNaN (isNaN_roundTo _ _ _)
    | true =>
      rw [fdiv_of_isZero ha hb hz]
      exact nanIsCanonical_ite (isNaN_fOfMag _ le_rfl)

theorem fsqrt_nanIsCanonical (a : F64) : NaNIsCanonical (fsqrt a) := by
  cases hn : isNaN a with
  | true => exact fun _ => by simp [fsqrt, hn]
  | false =>
    simp only [fsqrt, hn, Bool.false_eq_true, if_false]
    split
    · exact nanIsCanonical_of_not_isNaN hn
    · apply nanIsCanonical_ite
      split
      · exact hn
      · exact isNaN_roundTo _ _ _

theorem fabs_nanIsCanonical (a : F64) : NaNIsCanonical (fabs a) := by
  cases h : isNaN a with
  | true => exact fun _ => by simp [fabs, h]
  | false =>
    rw [fabs_of_not_isNaN h]
    exact nanIsCanonical_of_not_isNaN (isNaN_fOfMag _ (fMag_le_infMag h))

theorem binary_nan_results : ∀ f ∈ [fadd, fsub, fmul, fdiv], ∀ a b : F64,
    (isNaN a = true ∨ isNaN b = true → f a b = qNaN) ∧ NaNIsCanonical (f a b) := by
  simp only [List.forall_mem_cons]
  exact ⟨fun a b => ⟨fadd_of_isNaN, fadd_nanIsCanonical a b⟩,
    fun a b => ⟨fun h => fadd_of_isNaN (by rwa [isNaN_fneg]), fadd_nanIsCanonical a (fneg b)⟩,
    fun a b => ⟨fmul_of_isNaN, fmul_nanIsCanonical a b⟩,
    fun a b => ⟨fdiv_of_isNaN, fdiv_nanIsCanonical a b⟩, by simp⟩

theorem unary_nan_results : ∀ f ∈ [fsqrt, fabs], ∀ a : F64,
    (isNaN a = true → f a = qNaN) ∧ NaNIsCanonical (f a) := by
  simp only [List.forall_mem_cons]
  exact ⟨fun a => ⟨fun h => by simp [fsqrt, h], fsqrt_nanIsCanonical a⟩,
    fun a => ⟨fun h => by simp [fabs, h], fabs_nanIsCanonical a⟩, by simp⟩

/-! ### Signs of results -/

theorem fadd_of_zero_sum {a b : F64} (ha : isFinite a = true) (hb : isFinite b = true) (h : fUnits a + fUnits b = 0) :
    fadd a b = if fSign a = true ∧ fSign b = true then fNegZero else fzero := by
  rw [fadd_of_isFinite ha hb, if_pos h, fOfMag_and_zero]

theorem fsub_of_zero_difference {a b : F64} (ha : isFinite a = true) (hb : isFinite b = true)
    (h : fUnits a = fUnits b) : fsub a b = if fSign a = true ∧ fSign b = false then fNegZero else fzero := by
  have hsum : fUnits a + fUnits (fneg b) = 0 := by rw [fUnits_fneg, h, add_neg_cancel]
  rw [fsub, fadd_of_zero_sum ha (by rwa [isFinite_fneg]) hsum, fSign_fneg]
  simp only [Bool.not_eq_true']

theorem fSign_fmul {a b : F64} (ha : isFinite a = true) (hb : isFinite b = true) :
    fSign (fmul a b) = true ↔ fSign a ≠ fSign b := by
  rw [fmul_of_isFinite ha hb, (roundTo_sign_class _ _ _).1, bne_iff_ne]

theorem fSign_fdiv {a b : F64} (ha : isFinite a = true) (hb : isFinite b = true) (hz : isZero b = false) :
    fSign (fdiv a b) = true ↔ fSign a ≠ fSign b := by
  rw [fdiv_of_isFinite ha hb hz, (roundTo_sign_class _ _ _).1, bne_iff_ne]

/-- Settles O27, class by class of the operands. -/
theorem specialOperandsGiveTheirResults : Obligations.SpecialOperandsGiveTheirResults := by
  refine ⟨binary_nan_results, unary_nan_results, fun a b ha hb => ?_, fun a b ha hb => ?_, fun a => ?_, ?_⟩
  · refine ⟨fadd_of_isInf ha hb, fadd_comm b a, fsub_of_isInf ha hb, fsub_of_isInf_right ha hb, ?_, fmul_comm b a, ?_, ?_⟩
    · rw [fmul_of_isInf ha hb, fOfMag_bne_infMag]
    · rw [fdiv_of_isInf_left ha hb, fOfMag_bne_infMag]
    · rw [fdiv_of_isInf_right hb ha, bne_comm, fOfMag_bne_zero]
  · refine ⟨fadd_of_zero_sum ha hb, fsub_of_zero_difference ha hb, fSign_fmul ha hb, fSign_fdiv ha hb, fun hz => ?_⟩
    rw [fdiv_of_isZero ha hb hz, fOfMag_bne_infMag]
  · exact ⟨fsqrt_of_isZero, fsqrt_of_fSign, fabs_spec⟩
  · decide +kernel

/-! ### The exact results are rounded -/

theorem fadd_isRounding {a b : F64} (ha : isFinite a = true) (hb : isFinite b = true) :
    IsRounding (fadd a b) (fUnits a + fUnits b) 1 := by
  rw [fadd_of_isFinite ha hb]
  split
  case isTrue h =>
    have hzero := roundTo_isRounding (fSign a && fSign b) 0 one_pos
    rw [roundTo, roundMag_zero] at hzero
    simpa [h] using hzero
  case isFalse h => exact roundTo_int_isRounding _ one_pos

theorem fsub_isRounding {a b : F64} (ha : isFinite a = true) (hb : isFinite b = true) :
    IsRounding (fsub a b) (fUnits a - fUnits b) 1 := by
  rw [sub_eq_add_neg, ← fUnits_fneg]
  exact fadd_isRounding ha (by rwa [isFinite_fneg])

/-- Two values' magnitudes and their signs make a signed product. -/
theorem sign_mul_magUnits (a b : F64) :
    (if (fSign a != fSign b) = true then -((magUnits (fMag a) * magUnits (fMag b) : Nat) : Int)
      else (magUnits (fMag a) * magUnits (fMag b) : Nat)) = fUnits a * fUnits b := by
  unfold fUnits
  cases fSign a <;> cases fSign b <;> simp

theorem fmul_isRounding {a b : F64} (ha : isFinite a = true) (hb : isFinite b = true) :
    IsRounding (fmul a b) (fUnits a * fUnits b) (2 ^ 1074) := by
  rw [fmul_of_isFinite ha hb, ← sign_mul_magUnits]
  exact roundTo_isRounding _ _ (by positivity)

theorem fdiv_isRounding {a b : F64} (ha : isFinite a = true) (hb : isFinite b = true) (hz : fUnits b ≠ 0) :
    IsRounding (fdiv a b) (fUnits a * 2 ^ 1074 * (fUnits b).sign) (fUnits b).natAbs := by
  have hz' : isZero b = false := by rwa [Ne, fUnits_eq_zero, Bool.not_eq_true] at hz
  have hpos : 0 < magUnits (fMag b) := by rw [← natAbs_fUnits]; omega
  have hsign : (if (fSign a != fSign b) = true then -((magUnits (fMag a) * 2 ^ 1074 : Nat) : Int)
      else (magUnits (fMag a) * 2 ^ 1074 : Nat)) = fUnits a * 2 ^ 1074 * (fUnits b).sign := by
    have hb1 : (magUnits (fMag b) : Int).sign = 1 := Int.sign_eq_one_of_pos (by exact_mod_cast hpos)
    generalize 1074 = e
    unfold fUnits
    cases fSign a <;> cases fSign b <;> simp [hb1]
  rw [fdiv_of_isFinite ha hb hz', natAbs_fUnits, ← hsign]
  exact roundTo_isRounding _ _ hpos

/-- Settles O28: each operation is `roundTo` of its exact result. -/
theorem arithmeticRoundsToNearestEven : Obligations.ArithmeticRoundsToNearestEven := by
  unfold Obligations.ArithmeticRoundsToNearestEven
  simp only [Sys2Proof.Machine.roundsTo_iff_isRounding]
  exact fun a b ha hb => ⟨fadd_isRounding ha hb, fsub_isRounding ha hb, fmul_isRounding ha hb, fdiv_isRounding ha hb⟩

end Sys2Proof.Machine
end

section
/-! PROOFS. The square root (O29): `fsqrt` rounds a root with more bits than a result has and a sticky half digit. -/

namespace Sys2Proof.Machine

/-! ### The integer square root -/

theorem isqrtDigits_spec (n k r : Nat) (hlo : r * r ≤ n) (hhi : n < (r + 2 ^ k) * (r + 2 ^ k)) :
    isqrtDigits n k r * isqrtDigits n k r ≤ n ∧ n < (isqrtDigits n k r + 1) * (isqrtDigits n k r + 1) := by
  induction k generalizing r with
  | zero => exact ⟨hlo, hhi⟩
  | succ k ih =>
    rw [isqrtDigits]
    split
    case isTrue h => exact ih _ h (by rwa [Nat.add_assoc, ← Nat.two_mul, ← Nat.pow_succ'])
    case isFalse h => exact ih _ hlo (Nat.lt_of_not_le h)

theorem isqrt_spec (n : Nat) : isqrt n * isqrt n ≤ n ∧ n < (isqrt n + 1) * (isqrt n + 1) := by
  refine isqrtDigits_spec n _ 0 (Nat.zero_le n) ?_
  calc n < 2 ^ (Nat.log2 n + 1) := Nat.lt_log2_self
    _ ≤ 2 ^ (Nat.log2 n / 2 + 1 + (Nat.log2 n / 2 + 1)) := Nat.pow_le_pow_right (by norm_num) (by omega)
    _ = (0 + 2 ^ (Nat.log2 n / 2 + 1)) * (0 + 2 ^ (Nat.log2 n / 2 + 1)) := by rw [Nat.zero_add, pow_add]

/-! ### The sticky root -/

/-- The exponent of the root's last computed digit, in units of 2^-1074. -/
def sqrtExp (a : F64) : Nat := (magExp (fMag a) + 1074) / 2 - 55

/-- The integer whose root `fsqrt` takes. -/
def sqrtRadicand (a : F64) : Nat := magSig (fMag a) * 2 ^ ((magExp (fMag a) + 1074) % 2 + 110)

/-- The root in half digits; an inexact one is moved up by a half. -/
def stickyRoot (n : Nat) : Nat := 2 * isqrt n + (if isqrt n * isqrt n = n then 0 else 1)

theorem fsqrt_of_isFinite {a : F64} (hf : isFinite a = true) (hz : isZero a = false) (hs : fSign a = false) :
    fsqrt a = roundTo false (stickyRoot (sqrtRadicand a) * 2 ^ sqrtExp a) 2 := by
  simp only [fsqrt, hz, hs, isNaN_eq_false_of_isFinite hf, isInf_eq_false_of_isFinite hf, Bool.false_eq_true, if_false]
  rfl

/-- The scaled radicand is the exact value in square units. -/
theorem sqrtRadicand_mul (a : F64) :
    sqrtRadicand a * 2 ^ (2 * sqrtExp a) = (fUnits a).natAbs * 2 ^ 1074 := by
  rw [natAbs_fUnits, magUnits, sqrtRadicand, mul_assoc, mul_assoc, ← pow_add, ← pow_add, sqrtExp]
  congr 2
  omega

theorem sqrtRadicand_bounds {a : F64} (hz : isZero a = false) :
    2 ^ 110 ≤ sqrtRadicand a ∧ sqrtRadicand a < 2 ^ 164 := by
  obtain ⟨hmag, hsig, -⟩ := magExp_magSig (fMag a)
  have hpos : 1 ≤ magSig (fMag a) := by
    have : magUnits (fMag a) ≠ 0 := by simpa [magUnits_eq_zero, isZero] using hz
    exact Nat.pos_of_ne_zero (left_ne_zero_of_mul this)
  unfold sqrtRadicand
  rcases Nat.mod_two_eq_zero_or_one (magExp (fMag a) + 1074) with h | h <;> rw [h] <;> omega

theorem sqrtExp_le {a : F64} (hf : isFinite a = true) : sqrtExp a ≤ 1504 := by
  obtain ⟨hmag, -, hnorm⟩ := magExp_magSig (fMag a)
  have hfin : fMag a < infMag := by simpa [isFinite] using hf
  unfold infMag at hfin
  unfold sqrtExp
  omega

/-- The root's digits have at least 56 and at most 82 bits. -/
theorem isqrt_bounds {n : Nat} (hlo : 2 ^ 110 ≤ n) (hhi : n < 2 ^ 164) : 2 ^ 55 ≤ isqrt n ∧ isqrt n < 2 ^ 82 := by
  obtain ⟨hsq, hlt⟩ := isqrt_spec n
  constructor <;> by_contra! h <;> nlinarith

/-- The sticky root's midpoint tests on multiples of two half digits agree with those of the exact root. -/
theorem stickyRoot_le_iff {n t : Nat} : stickyRoot n ≤ 2 * t ↔ n ≤ t * t := by
  obtain ⟨hsq, hlt⟩ := isqrt_spec n
  unfold stickyRoot
  generalize isqrt n = r at *
  split
  case isTrue h =>
    rw [← h, Nat.mul_self_le_mul_self_iff]
    omega
  case isFalse h =>
    constructor
    · intro ht
      have : r + 1 ≤ t := by omega
      nlinarith
    · intro ht
      by_contra! hc
      have : t ≤ r := by omega
      have : t * t ≤ r * r := Nat.mul_self_le_mul_self this
      omega

theorem le_stickyRoot_iff {n t : Nat} : 2 * t ≤ stickyRoot n ↔ t * t ≤ n := by
  obtain ⟨hsq, hlt⟩ := isqrt_spec n
  unfold stickyRoot
  constructor
  · intro h
    have : t ≤ isqrt n := by split at h <;> omega
    nlinarith
  · intro h
    have : t < isqrt n + 1 := Nat.mul_self_lt_mul_self_iff.mp (h.trans_lt hlt)
    omega

theorem stickyRoot_bounds {n : Nat} (hlo : 2 ^ 110 ≤ n) (hhi : n < 2 ^ 164) :
    2 ^ 56 ≤ stickyRoot n ∧ stickyRoot n < 2 ^ 83 := by
  obtain ⟨hge, hlt⟩ := isqrt_bounds hlo hhi
  unfold stickyRoot
  split <;> omega

theorem stickyRoot_mul_lt_overflowUnits {n e : Nat} (hhi : stickyRoot n < 2 ^ 83) (he : e + 30 ≤ 2044) :
    ((stickyRoot n * 2 ^ e : Nat) : Int).natAbs < overflowUnits * 2 := by
  rw [Int.natAbs_natCast, overflowUnits]
  calc stickyRoot n * 2 ^ e < 2 ^ 83 * 2 ^ e := Nat.mul_lt_mul_of_pos_right hhi (by positivity)
    _ = 2 ^ 53 * 2 ^ (e + 30) := by ring
    _ ≤ 2 ^ 53 * 2 ^ 2044 := Nat.mul_le_mul_left _ (Nat.pow_le_pow_right (by norm_num) he)
    _ ≤ (2 ^ 54 - 1) * 2 ^ 2044 * 2 := by omega

/-! ### Its rounding -/

theorem IsRounding.le_add_of_lt {r c : F64} {num : Int} (h : IsRounding r num 2)
    (ho : num.natAbs < overflowUnits * 2) (hc : isFinite c = true) (hlt : fUnits r < fUnits c) :
    num ≤ fUnits r + fUnits c := by
  have := h.nearest ho c hc
  push_cast at this
  omega

theorem IsRounding.add_le_of_lt {r c : F64} {num : Int} (h : IsRounding r num 2)
    (ho : num.natAbs < overflowUnits * 2) (hc : isFinite c = true) (hlt : fUnits c < fUnits r) :
    fUnits r + fUnits c ≤ num := by
  have := h.nearest ho c hc
  push_cast at this
  omega

/-- A value of at least 53 bits over 2^e is a multiple of 2^(e + 1). -/
theorem exists_eq_two_mul {c : F64} {e : Nat} (h : 2 ^ 53 * 2 ^ e ≤ fUnits c) : ∃ t : Nat, fUnits c = 2 * t * 2 ^ e := by
  have hpos : (0 : Int) < 2 ^ 53 * 2 ^ e := by positivity
  rcases pow_dvd_fUnits_or_lt c (e + 1) with ⟨k, hk⟩ | hlt
  · rw [pow_succ] at hk
    have hk0 : 0 ≤ k := by
      by_contra! hneg
      nlinarith [pow_pos (two_pos (α := Int)) e]
    refine ⟨k.toNat, ?_⟩
    rw [Int.toNat_of_nonneg hk0, hk]
    ring
  · have hpow : (2 ^ (52 + (e + 1)) : Nat) = 2 ^ 53 * 2 ^ e := by ring
    rw [hpow] at hlt
    zify at hlt
    have := (le_abs_self _).trans_lt hlt
    omega

section
variable {r : F64} {n e : Nat} (hlo : 2 ^ 110 ≤ n) (hhi : n < 2 ^ 164) (he : e + 30 ≤ 2044)
  (h : IsRounding r (stickyRoot n * 2 ^ e : Nat) 2)
include hlo hhi he h

/-- A rounded sticky root has more bits than a 53-bit value over 2^(e + 1). -/
theorem IsRounding.two_pow_le_fUnits : 2 ^ 55 * 2 ^ e ≤ fUnits r := by
  obtain ⟨hge, hlt⟩ := stickyRoot_bounds hlo hhi
  obtain ⟨c, hc, hunits⟩ := exists_fUnits_eq (e := e + 2) (k := 2 ^ 53) le_rfl (by omega)
  have hunits : fUnits c = 2 ^ 55 * 2 ^ e := by rw [hunits]; push_cast; ring
  by_contra! hr
  have hmid := h.le_add_of_lt (stickyRoot_mul_lt_overflowUnits hlt he) hc (hr.trans_eq hunits.symm)
  have hroot : 2 ^ 56 * 2 ^ e ≤ stickyRoot n * 2 ^ e := Nat.mul_le_mul_right _ hge
  zify at hroot
  push_cast at hmid
  omega

/-- The midpoint with a larger value is not below the exact root. -/
theorem IsRounding.root_le_midpoint {c : F64} (hc : isFinite c = true) (hlt : fUnits r < fUnits c) :
    4 * ((n * 2 ^ (2 * e) : Nat) : Int) ≤ (fUnits r + fUnits c) * (fUnits r + fUnits c) := by
  have hmid := h.le_add_of_lt (stickyRoot_mul_lt_overflowUnits (stickyRoot_bounds hlo hhi).2 he) hc hlt
  have hr := h.two_pow_le_fUnits hlo hhi he
  have hpos : (0 : Int) < 2 ^ e := by positivity
  obtain ⟨t, ht⟩ := exists_eq_two_mul (c := r) (e := e) (by omega)
  obtain ⟨t', ht'⟩ := exists_eq_two_mul (c := c) (e := e) (by omega)
  have hsum : fUnits r + fUnits c = 2 * ((t + t' : Nat) : Int) * 2 ^ e := by rw [ht, ht']; push_cast; ring
  rw [hsum] at hmid ⊢
  have hsticky : stickyRoot n ≤ 2 * (t + t') := by
    zify
    push_cast at hmid
    exact le_of_mul_le_mul_right hmid hpos
  have hroot := stickyRoot_le_iff.mp hsticky
  calc 4 * ((n * 2 ^ (2 * e) : Nat) : Int) = 4 * n * (2 ^ e * 2 ^ e) := by push_cast; ring
    _ ≤ 4 * ((t + t' : Nat) * (t + t' : Nat)) * (2 ^ e * 2 ^ e) := by gcongr; exact_mod_cast hroot
    _ = _ := by ring

/-- The sum with a smaller value is at most a double of whole digits within the root. -/
theorem IsRounding.exists_add_le {c : F64} (hc : isFinite c = true) (hlt : fUnits c < fUnits r) :
    ∃ t : Nat, t * t ≤ n ∧ fUnits r + fUnits c ≤ 2 * t * 2 ^ e := by
  have ho := stickyRoot_mul_lt_overflowUnits (stickyRoot_bounds hlo hhi).2 he
  have hr := h.two_pow_le_fUnits hlo hhi he
  have hpos : (0 : Int) < 2 ^ e := by positivity
  rcases le_or_gt (2 ^ 53 * 2 ^ e) (fUnits c) with hlarge | hsmall
  · have hmid := h.add_le_of_lt ho hc hlt
    obtain ⟨t, ht⟩ := exists_eq_two_mul (c := r) (e := e) (by omega)
    obtain ⟨t', ht'⟩ := exists_eq_two_mul hlarge
    have hsum : fUnits r + fUnits c = 2 * ((t + t' : Nat) : Int) * 2 ^ e := by rw [ht, ht']; push_cast; ring
    refine ⟨t + t', le_stickyRoot_iff.mp ?_, hsum.le⟩
    rw [hsum] at hmid
    zify
    push_cast at hmid
    exact le_of_mul_le_mul_right hmid hpos
  · obtain ⟨d, hd, hunits⟩ := exists_fUnits_eq (e := e + 1) (k := 2 ^ 53) le_rfl (by omega)
    have hunits : fUnits d = 2 ^ 54 * 2 ^ e := by rw [hunits]; push_cast; ring
    have hmid := h.add_le_of_lt ho hd (by omega)
    refine ⟨stickyRoot n / 2, le_stickyRoot_iff.mp (by omega), ?_⟩
    have hhalf : (stickyRoot n : Int) - 1 ≤ 2 * (stickyRoot n / 2 : Nat) := by omega
    have hscaled := mul_le_mul_of_nonneg_right hhalf hpos.le
    rw [sub_mul, one_mul] at hscaled
    push_cast at hmid hscaled ⊢
    omega

/-- The midpoint with a smaller nonnegative value is not above the exact root. -/
theorem IsRounding.midpoint_le_root {c : F64} (hc : isFinite c = true) (hcs : fSign c = false)
    (hlt : fUnits c < fUnits r) :
    (fUnits r + fUnits c) * (fUnits r + fUnits c) ≤ 4 * ((n * 2 ^ (2 * e) : Nat) : Int) := by
  obtain ⟨t, ht, hsum⟩ := h.exists_add_le hlo hhi he hc hlt
  have hc0 : 0 ≤ fUnits c := by simp [fUnits, hcs]
  calc (fUnits r + fUnits c) * (fUnits r + fUnits c) ≤ 2 * t * 2 ^ e * (2 * t * 2 ^ e) :=
        mul_self_le_mul_self (by omega) hsum
    _ = 4 * (t * t : Nat) * (2 ^ e * 2 ^ e) := by push_cast; ring
    _ ≤ 4 * n * (2 ^ e * 2 ^ e) := by gcongr
    _ = 4 * ((n * 2 ^ (2 * e) : Nat) : Int) := by push_cast; ring

end

theorem fsqrt_roundsToRoot {a : F64} (hf : isFinite a = true) (hs : fSign a = false) :
    RoundsToRoot (fsqrt a) ((fUnits a).natAbs * 2 ^ 1074) := by
  cases hz : isZero a with
  | true =>
    have hunits : fUnits a = 0 := fUnits_eq_zero.mpr hz
    rw [fsqrt_of_isZero hz, hunits, Int.natAbs_zero, Nat.zero_mul]
    refine ⟨hf, hs, fun c _ hc => ?_⟩
    have hc0 : 0 ≤ fUnits c := by simp [fUnits, hc]
    rw [hunits]
    exact ⟨fun _ => by simpa using mul_self_nonneg (fUnits c), fun h => by omega⟩
  | false =>
    obtain ⟨hlo, hhi⟩ := sqrtRadicand_bounds hz
    have he : sqrtExp a + 30 ≤ 2044 := by have := sqrtExp_le hf; omega
    have hround : IsRounding (fsqrt a) (stickyRoot (sqrtRadicand a) * 2 ^ sqrtExp a : Nat) 2 := by
      rw [fsqrt_of_isFinite hf hz hs]
      exact roundTo_false_isRounding _ two_pos
    have hsign : fSign (fsqrt a) = false := by
      rw [fsqrt_of_isFinite hf hz hs]
      exact (roundTo_sign_class _ _ _).1
    rw [← sqrtRadicand_mul]
    have hfin := hround.finite (stickyRoot_mul_lt_overflowUnits (stickyRoot_bounds hlo hhi).2 he)
    exact ⟨hfin, hsign, fun c hc hcs =>
      ⟨hround.root_le_midpoint hlo hhi he hc, hround.midpoint_le_root hlo hhi he hc hcs⟩⟩

/-- Settles O29: the sticky root has more bits than the rounding keeps, so its midpoints are those of the exact root. -/
theorem squareRootRoundsToNearest : Obligations.SquareRootRoundsToNearest :=
  fun _ => fsqrt_roundsToRoot

end Sys2Proof.Machine
end

section
/-! PROOFS. Conversions, floors and comparisons (O30). -/

namespace Sys2Proof.Machine

/-! ### Conversions -/

theorem u2f_isRounding (n : Nat) : IsRounding (u2f n) (n * 2 ^ 1074) 1 := by
  have h := roundTo_false_isRounding (n * 2 ^ 1074) one_pos
  rwa [Nat.cast_mul, Nat.cast_pow] at h

theorem natAbs_mul_two_pow (k : Int) (e : Nat) : (k * 2 ^ e).natAbs = k.natAbs * 2 ^ e := by
  rw [Int.natAbs_mul, Int.natAbs_pow]
  rfl

theorem i2f_isRounding (w : Word) : IsRounding (i2f w) (w.toInt * 2 ^ 1074) 1 := by
  have hneg : w.toInt * 2 ^ 1074 < 0 ↔ w.toInt < 0 := by
    rw [← not_le, ← not_le, mul_nonneg_iff_of_pos_right (by positivity)]
  have habs := natAbs_mul_two_pow w.toInt 1074
  have h := roundTo_int_isRounding (w.toInt * 2 ^ 1074) one_pos
  rwa [habs, decide_eq_decide.mpr hneg] at h

/-- Every integer of magnitude up to 2^53 is a finite value. -/
theorem exists_fUnits_eq_int {k : Int} (hk : k.natAbs ≤ 2 ^ 53) :
    ∃ c : F64, isFinite c = true ∧ fUnits c = k * 2 ^ 1074 := by
  obtain ⟨c, hc, hunits⟩ := exists_fUnits_eq (e := 1074) hk (by norm_num)
  rcases Int.natAbs_eq k with h | h
  · exact ⟨c, hc, by rw [hunits, ← h]⟩
  · exact ⟨fneg c, by rwa [isFinite_fneg], by rw [fUnits_fneg, hunits, h, Int.natAbs_neg, Int.natAbs_natCast, neg_mul]⟩

/-- A rounded integer of magnitude up to 2^53 is exact. -/
theorem IsRounding.exact_int {r : F64} {k : Int} (hk : k.natAbs ≤ 2 ^ 53) (h : IsRounding r (k * 2 ^ 1074) 1) :
    isFinite r = true ∧ fUnits r = k * 2 ^ 1074 := by
  obtain ⟨c, hc, hunits⟩ := exists_fUnits_eq_int hk
  obtain ⟨hfin, hr⟩ := h.exact one_pos hc (by rw [hunits, Nat.cast_one, mul_one])
  exact ⟨hfin, hr.trans hunits⟩

theorem i2f_ofNat {n : Nat} (hn : n ≤ 2 ^ 53) : i2f (BitVec.ofNat 64 n) = u2f n := by
  have hint : (BitVec.ofNat 64 n).toInt = n := by
    rw [BitVec.toInt_ofNat', Int.bmod_eq_of_le] <;> omega
  have hneg : ¬(n : Int) < 0 := by omega
  rw [i2f, u2f, hint, Int.natAbs_natCast, decide_eq_false hneg]

theorem floorExact_of_fUnits_eq {x : F64} {k : Int} (h : fUnits x = k * 2 ^ 1074) : floorExact x = k := by
  rw [floorExact, h]
  exact Int.mul_ediv_cancel _ (by positivity)

theorem roundHalfUp_of_fUnits_eq {x : F64} {k : Int} (h : fUnits x = k * 2 ^ 1074) : roundHalfUp x = k := by
  have hdouble : (2 : Int) ^ 1075 = 2 * 2 ^ 1074 := pow_succ' 2 1074
  have hsum : 2 * (k * 2 ^ 1074) + 2 ^ 1074 = 2 ^ 1074 + k * (2 * 2 ^ 1074 : Int) := by
    rw [mul_left_comm, add_comm]
  rw [roundHalfUp, h, hdouble, hsum, Int.add_mul_ediv_right _ _ (by positivity)]
  rw [Int.ediv_eq_zero_of_lt (by positivity) (lt_two_mul_self (by positivity)), zero_add]

/-- Integer division brackets its exact quotient. -/
theorem floorExact_bounds (x : F64) :
    floorExact x * 2 ^ 1074 ≤ fUnits x ∧ fUnits x < (floorExact x + 1) * 2 ^ 1074 :=
  ⟨Int.ediv_mul_le _ (by positivity), Int.lt_ediv_add_one_mul_self _ (by positivity)⟩

theorem roundHalfUp_bounds (x : F64) :
    roundHalfUp x * 2 ^ 1075 ≤ 2 * fUnits x + 2 ^ 1074 ∧ 2 * fUnits x + 2 ^ 1074 < (roundHalfUp x + 1) * 2 ^ 1075 :=
  ⟨Int.ediv_mul_le _ (by positivity), Int.lt_ediv_add_one_mul_self _ (by positivity)⟩

/-! ### Comparisons -/

theorem flt_iff {a b : F64} (ha : isNaN a = false) (hb : isNaN b = false) : flt a b = true ↔ fRank a < fRank b := by
  simp [flt, ha, hb]

theorem fle_iff {a b : F64} (ha : isNaN a = false) (hb : isNaN b = false) : fle a b = true ↔ fRank a ≤ fRank b := by
  simp [fle, ha, hb]

theorem feq_iff {a b : F64} (ha : isNaN a = false) (hb : isNaN b = false) : feq a b = true ↔ fRank a = fRank b := by
  simp [feq, ha, hb]

theorem comparisons_of_finite {a b : F64} (ha : isFinite a = true) (hb : isFinite b = true) :
    (flt a b = true ↔ fUnits a < fUnits b) ∧ (fle a b = true ↔ fUnits a ≤ fUnits b) ∧
    (feq a b = true ↔ fUnits a = fUnits b) := by
  have ha' := isNaN_eq_false_of_isFinite ha
  have hb' := isNaN_eq_false_of_isFinite hb
  exact ⟨(flt_iff ha' hb').trans fRank_lt_fRank, (fle_iff ha' hb').trans fRank_le_fRank,
    (feq_iff ha' hb').trans fRank_eq_fRank⟩

theorem finite_between_infinities {a : F64} (h : isFinite a = true) : flt a posInf = true ∧ flt negInf a = true := by
  have ha := isNaN_eq_false_of_isFinite h
  obtain ⟨hlo, hhi⟩ := fRank_bounds_of_isFinite h
  rw [flt_iff ha (by decide +kernel), flt_iff (by decide +kernel) ha, fRank_posInf, fRank_negInf]
  exact ⟨hhi, hlo⟩

theorem comparisons_of_not_nan {a b : F64} (ha : isNaN a = false) (hb : isNaN b = false) :
    (flt a b = true → flt b a = false) ∧ fle a b = !flt b a ∧ feq a b = (fle a b && fle b a) := by
  refine ⟨?_, ?_, ?_⟩
  · rw [← Bool.not_eq_true, flt_iff ha hb, flt_iff hb ha]
    exact fun h => h.not_gt
  · rw [Bool.eq_iff_iff, fle_iff ha hb, Bool.not_eq_true', ← Bool.not_eq_true, flt_iff hb ha, not_lt]
  · rw [Bool.eq_iff_iff, feq_iff ha hb, Bool.and_eq_true, fle_iff ha hb, fle_iff hb ha, le_antisymm_iff]

theorem comparisons_of_nan {a b : F64} (h : isNaN a = true ∨ isNaN b = true) :
    flt a b = false ∧ fle a b = false ∧ feq a b = false := by
  rcases h with h | h <;> simp [flt, fle, feq, h]

/-- Settles O30: the conversions are `roundTo` of integers, the ranks compared are in the order of the exact values. -/
theorem conversionsAndComparisonsAreExact : Obligations.ConversionsAndComparisonsAreExact := by
  unfold Obligations.ConversionsAndComparisonsAreExact
  simp only [roundsTo_iff_isRounding]
  refine ⟨u2f_isRounding, i2f_isRounding, fun n hn => ?_, fun w hw => ?_,
    fun x _ => ⟨(floorExact_bounds x).1, (floorExact_bounds x).2, roundHalfUp_bounds x⟩,
    fun a b => comparisons_of_finite, fun a => finite_between_infinities, by decide +kernel,
    fun a b => comparisons_of_not_nan, fun a b => comparisons_of_nan⟩
  · obtain ⟨hfin, hunits⟩ := (u2f_isRounding n).exact_int (by rwa [Int.natAbs_natCast])
    exact ⟨hfin, hunits, i2f_ofNat hn⟩
  · obtain ⟨hfin, hunits⟩ := (i2f_isRounding w).exact_int hw
    exact ⟨hfin, hunits, floorExact_of_fUnits_eq hunits, roundHalfUp_of_fUnits_eq hunits⟩

end Sys2Proof.Machine
end

section
/-! PROOFS. The functions of 00_scope.md R27 (O31). -/

namespace Sys2Proof.Machine

/-! ### FN_EXP2 by ranks -/

theorem isNaN_fOfRank (z : Bool) (k : Nat) : isNaN (fOfRank z k) = false := by
  unfold fOfRank
  split
  · exact isNaN_fOfMag _ (Nat.zero_le _)
  · split <;> exact isNaN_fOfMag _ (Nat.min_le_right _ _)

/-- A value of a rank has that rank, cut at the ranks of the infinities. -/
theorem fRank_fOfRank (z : Bool) (k : Nat) : fRank (fOfRank z k) = max (2 ^ 63 - infMag) (min k (2 ^ 63 + infMag)) := by
  have hinf : infMag < 2 ^ 63 := by norm_num [infMag]
  unfold fOfRank
  split
  · rw [fRank_fOfMag _ (Nat.zero_le _)]
    cases z <;> simp <;> omega
  · split
    · rw [fRank_fOfMag _ (Nat.min_le_right _ _), if_neg Bool.false_ne_true]
      omega
    · rw [fRank_fOfMag _ (Nat.min_le_right _ _), if_pos rfl]
      omega

/-- The rank that FN_EXP2 gives an argument of a rank: 1.0 at the zeros, and cut at 1.0 on either side. -/
def exp2Value (k : Nat) : Nat :=
  if k < 2 ^ 63 then min (Config.exp2Rank k) (fRank fone)
  else if k = 2 ^ 63 then fRank fone
  else max (Config.exp2Rank k) (fRank fone)

theorem exp2Value_mono : Monotone exp2Value := by
  intro j k hjk
  have hrank := Config.exp2Rank.monotone hjk
  unfold exp2Value
  split_ifs <;> omega

theorem isNaN_fone : isNaN fone = false := by decide +kernel

theorem fRank_fone_bounds : 2 ^ 63 - infMag ≤ fRank fone ∧ fRank fone ≤ 2 ^ 63 + infMag := by decide +kernel

theorem isNaN_fnExp2 {x : F64} (h : isNaN x = false) : isNaN (fnExp2 x) = false := by
  unfold fnExp2
  rw [h]
  split
  · contradiction
  · split
    · exact isNaN_fone
    · split <;> exact isNaN_fOfRank _ _

theorem fRank_fnExp2 {x : F64} (h : isNaN x = false) :
    fRank (fnExp2 x) = max (2 ^ 63 - infMag) (min (exp2Value (fRank x)) (2 ^ 63 + infMag)) := by
  unfold fnExp2 exp2Value
  rw [if_neg (by simp [h])]
  cases hz : isZero x with
  | true =>
    obtain ⟨hlo, hhi⟩ := fRank_fone_bounds
    rw [if_pos rfl, fRank_eq_iff_isZero.mpr hz, if_neg (lt_irrefl _), if_pos rfl, min_eq_left hhi, max_eq_right hlo]
  | false =>
    have hne : fRank x ≠ 2 ^ 63 := fun heq => by simp [fRank_eq_iff_isZero.mp heq] at hz
    simp only [fRank_lt_iff hz, if_neg hne, Bool.false_eq_true, if_false]
    split <;> exact fRank_fOfRank _ _

theorem fnExp2_mono {x y : F64} (h : fle x y = true) : fle (fnExp2 x) (fnExp2 y) = true := by
  have hnan : isNaN x = false ∧ isNaN y = false := by
    simp only [fle, Bool.and_eq_true, Bool.not_eq_true'] at h
    exact h.1
  obtain ⟨hx, hy⟩ := hnan
  rw [fle_iff hx hy] at h
  rw [fle_iff (isNaN_fnExp2 hx) (isNaN_fnExp2 hy), fRank_fnExp2 hx, fRank_fnExp2 hy]
  have := exp2Value_mono h
  omega

/-! ### The values at the zeros and at NaN -/

theorem functions_of_isZero {x : F64} (h : isZero x = true) :
    fnExp x = fone ∧ fnCos x = fone ∧ fnSin x = x ∧ fnExp2 x = fone := by
  simp [fnExp, fnCos, fnSin, fnExp2, h, isNaN_eq_false_of_isZero]

theorem functions_of_isNaN {x : F64} (h : isNaN x = true) :
    fnExp x = qNaN ∧ fnCos x = qNaN ∧ fnSin x = qNaN ∧ fnExp2 x = qNaN := by
  simp [fnExp, fnCos, fnSin, fnExp2, h]

/-- Settles O31: FN_EXP2 is monotone because its rank is a monotone function of the rank of its argument. -/
theorem transcendentalFunctionsHaveTheirProperties : Obligations.TranscendentalFunctionsHaveTheirProperties := by
  refine ⟨?_, fun x => functions_of_isNaN, fun x y => fnExp2_mono⟩
  simp only [List.forall_mem_cons]
  exact ⟨functions_of_isZero (by decide +kernel), functions_of_isZero (by decide +kernel), by simp⟩

end Sys2Proof.Machine
end

section
/-! PROOFS. How a command ends, said once for each command: it raised, or it completed with one update of the state
(60_exceptions.md R463); and that no command but RESET changes a Z register other than its destination (O26). -/

namespace Sys2Proof.Machine

/-! ### Raised or completed -/

/-- t is the state after a command that raised an error and left s as it was but for that. -/
def RaisedFrom (s t : State) : Prop := ∃ code ≠ ErrCode.eNone, ∃ info, t = failed code info s

/-- t is the state after a command that completed and wrote Z[zd]. -/
def WroteRegister (zd : Fin 8) (s t : State) : Prop := ∃ v, t = completed (writeZ s zd v)

theorem raisedFrom_of_raise {code : ErrCode} {info : Word} {s t : State} (hc : code ≠ .eNone)
    (h : raise code info s = .next t) : RaisedFrom s t := by
  rw [raise_eq hc] at h
  injection h with h
  exact ⟨code, hc, info, h.symm⟩

theorem eq_completed_of_finish {s t : State} (h : finish s = .next t) : t = completed s := by
  rw [finish_eq] at h
  injection h with h
  exact h.symm

theorem wroteRegister_of_finish {zd : Fin 8} {v : C64} {s t : State} (h : finish (writeZ s zd v) = .next t) :
    WroteRegister zd s t := ⟨v, eq_completed_of_finish h⟩

theorem RaisedFrom.z_eq {s t : State} (h : RaisedFrom s t) : t.z = s.z := by
  obtain ⟨code, -, info, rfl⟩ := h
  rw [failed_frame]

theorem WroteRegister.readZ_of_ne {zd r : Fin 8} {s t : State} (h : WroteRegister zd s t) (hr : r ≠ zd) :
    readZ t r = readZ s r := by
  obtain ⟨v, rfl⟩ := h
  exact (readZ_writeZ s zd r v).trans (if_neg hr)

/-! ### The commands that write a register -/

theorem execRbRd_cases {zd : Fin 8} {off : BitVec 18} {s t : State} (h : execRbRd zd off s = .next t) :
    RaisedFrom s t ∨ WroteRegister zd s t := by
  unfold execRbRd at h
  split at h
  · exact .inl (raisedFrom_of_raise (by decide) h)
  split at h
  · exact .inl (raisedFrom_of_raise (by decide) h)
  · exact .inr (wroteRegister_of_finish h)

theorem execBinRd_cases {zd : Fin 8} {sel : BitVec 3} {idx : BitVec 18} {s t : State}
    (h : execBinRd zd sel idx s = .next t) : RaisedFrom s t ∨ WroteRegister zd s t := by
  unfold execBinRd at h
  split at h
  · exact .inl (raisedFrom_of_raise (by decide) h)
  split at h
  · exact .inl (raisedFrom_of_raise (by decide) h)
  split at h
  · exact .inl (raisedFrom_of_raise (by decide) h)
  · exact .inr (wroteRegister_of_finish h)

theorem execMaRd_cases {zd : Fin 8} {sel : BitVec 3} {ch : BitVec 18} {s t : State}
    (h : execMaRd zd sel ch s = .next t) : RaisedFrom s t ∨ WroteRegister zd s t := by
  unfold execMaRd at h
  split at h
  · exact .inl (raisedFrom_of_raise (by decide) h)
  split at h
  · exact .inl (raisedFrom_of_raise (by decide) h)
  split at h
  · exact .inl (raisedFrom_of_raise (by decide) h)
  split at h
  · exact .inl (raisedFrom_of_raise (by decide) h)
  split at h
  · split at h
    · exact .inl (raisedFrom_of_raise (by decide) h)
    · exact .inr (wroteRegister_of_finish h)
  · exact .inr (wroteRegister_of_finish h)

/-- A command with a destination raises, or it completes and writes that register. -/
theorem exec_cases_of_destination {i : Instr} {zd : Fin 8} {s t : State} (hd : destination i = some zd)
    (h : exec i s = .next t) : RaisedFrom s t ∨ WroteRegister zd s t := by
  cases i with
  | nop | reset | tmBuild | ssInit | process | snap => cases hd
  | cadd | csub | cmul | cexp | cmag | tmK2f => cases hd; exact .inr (wroteRegister_of_finish h)
  | rbRd => cases hd; exact execRbRd_cases h
  | binRd => cases hd; exact execBinRd_cases h
  | maRd => cases hd; exact execMaRd_cases h

/-! ### The commands that write no register -/

/-- The tuning table that TM_BUILD leaves, with the entries written before a raise (43_tuning_map.md R327). -/
def builtTable (s : State) : Memory TTEntry := (tmLoop s.cfg s.cfg.keyCount.toNat 0 s.tt).1

theorem tmEntry_error_ne_eNone {c : Cfg} {j : Nat} {code : ErrCode} (h : tmEntry c j = .error code) :
    code ≠ .eNone := by
  unfold tmEntry at h
  dsimp only at h
  split at h
  · cases h; decide
  split at h
  · cases h; decide
  split at h
  · cases h; decide
  split at h
  · cases h; decide
  · cases h

theorem tmLoop_error_ne_eNone {c : Cfg} {todo j : Nat} {tt : Memory TTEntry} {code : ErrCode} {info : Word}
    (h : (tmLoop c todo j tt).2 = some (code, info)) : code ≠ .eNone := by
  obtain ⟨n, -, -, -, ⟨hnone, -⟩ | ⟨-, code', hentry, hsome⟩⟩ := tmLoop_spec c todo j tt
  · rw [hnone] at h
    cases h
  · rw [hsome] at h
    cases h
    exact tmEntry_error_ne_eNone hentry

/-- TM_BUILD raises before it writes; or it has a key count in range, writes entries and then raises or completes. -/
theorem execTmBuild_cases {s t : State} (h : execTmBuild s = .next t) :
    RaisedFrom s t ∨
    s.cfg.keyCount.toNat ≤ s.params.maxBins ∧
      (RaisedFrom { s with tt := builtTable s } t ∨
        t = completed { s with tt := builtTable s, ttCount := s.cfg.keyCount }) := by
  unfold execTmBuild at h
  split at h
  · exact .inl (raisedFrom_of_raise (by decide) h)
  split at h
  · exact .inl (raisedFrom_of_raise (by decide) h)
  refine .inr ⟨by omega, ?_⟩
  split at h
  next tt code info hl =>
    have htt : builtTable s = tt := congrArg Prod.fst hl
    rw [htt]
    exact .inl (raisedFrom_of_raise (tmLoop_error_ne_eNone (congrArg Prod.snd hl)) h)
  next tt hl =>
    have htt : builtTable s = tt := congrArg Prod.fst hl
    rw [htt]
    exact .inr (eq_completed_of_finish h)

theorem checkEntry_error_ne_eNone {e : TTEntry} {code : ErrCode} (h : checkEntry e = some code) : code ≠ .eNone := by
  unfold checkEntry at h
  split at h
  · cases h; decide
  split at h
  · cases h; decide
  split at h
  · cases h; decide
  · cases h

theorem checkTable_error_ne_eNone {tt : Memory TTEntry} {todo b : Nat} {e : ErrCode × Word}
    (h : checkTable tt todo b = some e) : e.1 ≠ .eNone := by
  obtain ⟨i, code, -, -, hentry, -, rfl⟩ := (checkTable_some tt todo b e).1 h
  exact checkEntry_error_ne_eNone hentry

theorem chooseSmoothing_error_ne_eNone {x sr : F64} {n : Nat} {e : ErrCode × Word}
    (h : chooseSmoothing x sr n = .error e) : e.1 ≠ .eNone := by
  unfold chooseSmoothing at h
  split at h
  · cases h; decide
  split at h
  · split at h
    · cases h; decide
    · cases h
  split at h
  · cases h
  · cases h

theorem validate_error_ne_eNone {s : State} {e : ErrCode × Word} (h : validate s = .error e) : e.1 ≠ .eNone := by
  unfold validate at h
  dsimp only at h
  split at h
  · cases h; decide
  split at h
  · cases h; simp
  split at h
  next e' htable =>
    cases h
    exact checkTable_error_ne_eNone htable
  split at h
  · cases h; decide
  split at h
  next e' hsmooth =>
    cases h
    exact chooseSmoothing_error_ne_eNone hsmooth
  · cases h

/-- SS_INIT raises, or it constructs what its validation planned. -/
theorem execSsInit_cases {s t : State} (h : execSsInit s = .next t) :
    RaisedFrom s t ∨ ∃ p, validate s = .ok p ∧ t = completed (construct p s) := by
  unfold execSsInit at h
  split at h
  next code info hv => exact .inl (raisedFrom_of_raise (validate_error_ne_eNone hv) h)
  next p hv => exact .inr ⟨p, hv, eq_completed_of_finish h⟩

/-- PROCESS raises, or it has a spectrum and a batch in range and processes it. -/
theorem execProcess_cases {len : BitVec 24} {s t : State} (h : execProcess len s = .next t) :
    RaisedFrom s t ∨
    s.status.init = true ∧ (imm24 len).toNat ≤ s.params.batchMax ∧
      t = completed (processBatch (imm24 len).toNat s) := by
  unfold execProcess at h
  split at h
  · exact .inl (raisedFrom_of_raise (by decide) h)
  next hinit =>
    split at h
    · exact .inl (raisedFrom_of_raise (by decide) h)
    · exact .inr ⟨by simpa using hinit, by omega, eq_completed_of_finish h⟩

/-- A command without a destination, other than RESET, leaves the Z file as it was. -/
theorem exec_z_of_no_destination {i : Instr} {s t : State} (hi : i ≠ .reset) (hd : destination i = none)
    (h : exec i s = .next t) : t.z = s.z := by
  cases i with
  | cadd | csub | cmul | cexp | cmag | rbRd | binRd | maRd | tmK2f => cases hd
  | reset => exact absurd rfl hi
  | nop | snap => rw [eq_completed_of_finish h]; rfl
  | tmBuild =>
    obtain hr | ⟨-, hr | rfl⟩ := execTmBuild_cases h
    · exact hr.z_eq
    · exact hr.z_eq
    · rfl
  | ssInit =>
    obtain hr | ⟨p, -, rfl⟩ := execSsInit_cases h
    · exact hr.z_eq
    · rfl
  | process len =>
    obtain hr | ⟨-, -, rfl⟩ := execProcess_cases h
    · exact hr.z_eq
    · rw [processBatch_frame, completed_z]

/-- Settles O26, by whether the command has a destination. -/
theorem onlyTheDestinationRegisterChanges : Obligations.OnlyTheDestinationRegisterChanges := by
  intro i s t r hi h hr
  cases hd : destination i with
  | none => simp only [readZ, exec_z_of_no_destination hi hd h]
  | some zd =>
    obtain hraised | hwrote := exec_cases_of_destination hd h
    · simp only [readZ, hraised.z_eq]
    · exact hwrote.readZ_of_ne (fun he => hr (hd.trans (he ▸ rfl)))

end Sys2Proof.Machine
end

section
/-! PROOFS. The host's side of the machine: STATUS and its write (O11, O12), the address map (O15), what an access
leaves of the ENGINE's state (O19), and whose step performs a command (O5). -/

namespace Sys2Proof.Machine

/-! ### Bit fields as numbers -/

/-- A concatenation as a number. -/
theorem toNat_append_eq {n m : Nat} (x : BitVec n) (y : BitVec m) : (x ++ y).toNat = x.toNat * 2 ^ m + y.toNat := by
  rw [BitVec.toNat_append, ← Nat.shiftLeft_add_eq_or_of_lt y.isLt, Nat.shiftLeft_eq]

theorem toNat_ofBool_eq (b : Bool) : (BitVec.ofBool b).toNat = b.toNat := by cases b <;> rfl

theorem getLsbD_of_toNat {n i : Nat} {x : BitVec n} {b : Bool} (h : x.toNat / 2 ^ i % 2 = b.toNat) :
    x.getLsbD i = b := by
  rw [← BitVec.testBit_toNat, Nat.testBit_eq_decide_div_mod_eq, h]
  cases b <;> rfl

/-! ### STATUS -/

/-- STATUS as a number: each field times the weight of its lowest bit (10_state.md R47). -/
theorem toNat_statusWord (s : State) :
    (statusWord s).toNat = (errByte s.status.errcode).toNat * 256 + s.status.init.toNat * 64 +
      s.status.wclamp.toNat * 32 + s.status.buserr.toNat * 16 + s.status.errovf.toNat * 8 + s.status.err.toNat * 4 +
      s.status.done.toNat * 2 + s.pend.isSome.toNat := by
  have h (e : BitVec 8) (b6 b5 b4 b3 b2 b1 b0 : Bool) :
      (0#48 ++ e ++ 0#1 ++ BitVec.ofBool b6 ++ BitVec.ofBool b5 ++ BitVec.ofBool b4 ++ BitVec.ofBool b3 ++
        BitVec.ofBool b2 ++ BitVec.ofBool b1 ++ BitVec.ofBool b0).toNat = e.toNat * 256 + b6.toNat * 64 +
      b5.toNat * 32 + b4.toNat * 16 + b3.toNat * 8 + b2.toNat * 4 + b1.toNat * 2 + b0.toNat := by
    simp only [toNat_append_eq, toNat_ofBool_eq, BitVec.toNat_ofNat]
    omega
  exact h ..

/-- Settles O12: each field is the quotient of STATUS by its weight, modulo its size. -/
theorem statusFieldsStandInTheirBits : Obligations.StatusFieldsStandInTheirBits := by
  refine ⟨fun s => ?_, by decide⟩
  have hs := toNat_statusWord s
  have hcode := (errByte s.status.errcode).isLt
  have hbusy := s.pend.isSome.toNat_le
  have hdone := s.status.done.toNat_le
  have herr := s.status.err.toNat_le
  have hovf := s.status.errovf.toNat_le
  have hbuserr := s.status.buserr.toNat_le
  have hclamp := s.status.wclamp.toNat_le
  have hinit := s.status.init.toNat_le
  refine ⟨getLsbD_of_toNat (by omega), getLsbD_of_toNat (by omega), getLsbD_of_toNat (by omega),
    getLsbD_of_toNat (by omega), getLsbD_of_toNat (by omega), getLsbD_of_toNat (by omega),
    getLsbD_of_toNat (by omega), getLsbD_of_toNat (by rw [Bool.toNat_false]; omega), ?_, by omega⟩
  apply BitVec.eq_of_toNat_eq
  rw [BitVec.extractLsb'_toNat, Nat.shiftRight_eq_div_pow]
  omega

/-- A write to STATUS reaches it, idle or busy (20_memory.md R111(b)). -/
theorem busWrite_status (v : Word) (s : State) : busWrite 0x10 0xFF v s = writeStatus v s := by
  unfold busWrite
  rw [show target s.params 0x10 0xFF = some (.csr .status) from rfl]
  exact ite_self _

/-- Settles O11: `busWrite_status`, and each bit by whether v names it. -/
theorem statusWriteClearsTheNamedBits : Obligations.StatusWriteClearsTheNamedBits := by
  intro s v
  have hclear (old named : Bool) : (old && !named) = if named = true then false else old := by
    cases named <;> simp
  rw [busWrite_status]
  simp only [writeStatus, hclear]

/-! ### The address map (20_memory.md R101-R103) -/

theorem target_ofNat (p : Params) {a : Nat} (ha : a < 2 ^ 32) (h8 : a % 8 = 0) :
    target p (BitVec.ofNat 32 a) 0xFF = locate p a := by
  unfold target
  rw [BitVec.toNat_ofNat, Nat.mod_eq_of_lt ha, if_neg (by simp [h8])]

theorem locate_csr (p : Params) {a : Nat} {c : Csr} (ha : a < 0x100) (hc : csrAt a = some c) :
    locate p a = some (.csr c) := by
  unfold locate csrBlock
  rw [if_pos (by omega), if_neg (by omega), hc]
  rfl

theorem locate_zRe (p : Params) (i : Fin 8) : locate p (0x100 + 16 * i.val) = some (.zRe i) := by
  have hi : Fin.ofNat 8 ((0x100 + 16 * i.val - 0x100) / 16) = i := Fin.ext (by simp [Fin.ofNat])
  unfold locate csrBlock
  dsimp only
  rw [if_pos (by omega), if_pos (by omega), if_pos (by omega), hi]

theorem locate_zIm (p : Params) (i : Fin 8) : locate p (0x108 + 16 * i.val) = some (.zIm i) := by
  have hi : Fin.ofNat 8 ((0x108 + 16 * i.val - 0x100) / 16) = i := Fin.ext (by simp [Fin.ofNat]; omega)
  unfold locate csrBlock
  dsimp only
  rw [if_pos (by omega), if_pos (by omega), if_neg (by omega), hi]

theorem locate_tt (p : Params) {b off : Nat} (hb : b < p.maxBins) (ho : off < 64) :
    locate p (0x100000 + 64 * b + off) = some (.tt b (ttFieldAt off)) := by
  have hdiv : (0x100000 + 64 * b + off - 0x100000) / 64 = b := by omega
  have hmod : (0x100000 + 64 * b + off - 0x100000) % 64 = off := by omega
  unfold locate
  rw [if_neg (by omega), if_pos (by omega), hdiv, hmod]

theorem locate_batch {p : Params} (hp : p.legal) {i : Nat} (hi : i < p.batchMax) :
    locate p (0x200000 + 8 * i) = some (.batch i) := by
  have hdiv : (0x200000 + 8 * i - 0x200000) / 8 = i := by omega
  unfold locate
  rw [if_neg (by omega), if_neg (by omega), if_pos (by omega), hdiv]

theorem locate_out {p : Params} (hp : p.legal) {b : Nat} (hb : b < p.maxBins) :
    locate p (0x300000 + 8 * b) = some (.out b) := by
  have hdiv : (0x300000 + 8 * b - 0x300000) / 8 = b := by omega
  unfold locate
  rw [if_neg (by omega), if_neg (by omega), if_neg (by omega), if_pos (by omega), hdiv]

theorem locate_snap {p : Params} (hp : p.legal) {b : Nat} (hb : b < p.maxBins) :
    locate p (0x400000 + 8 * b) = some (.snap b) := by
  have hdiv : (0x400000 + 8 * b - 0x400000) / 8 = b := by omega
  unfold locate
  rw [if_neg (by omega), if_neg (by omega), if_neg (by omega), if_neg (by omega), if_pos (by omega), hdiv]

/-- PARAMS as a number (10_state.md R68). -/
theorem toNat_paramsWord {p : Params} (hp : p.legal) :
    (paramsWord p).toNat = p.maxBins + p.rbLog2Max * 2 ^ 16 + p.hmaLog2Max * 2 ^ 24 + p.batchMax * 2 ^ 32 := by
  have h (b : BitVec 24) (hm r : BitVec 8) (m : BitVec 16) :
      (0#8 ++ b ++ hm ++ r ++ m).toNat = m.toNat + r.toNat * 2 ^ 16 + hm.toNat * 2 ^ 24 + b.toNat * 2 ^ 32 := by
    simp only [toNat_append_eq, BitVec.toNat_ofNat]
    omega
  refine (h ..).trans ?_
  simp only [BitVec.toNat_ofNat]
  omega

/-- Settles O15: each window by its own `locate` lemma, each reading by `readLoc`. -/
theorem addressMapIsTheSpecs : Obligations.AddressMapIsTheSpecs := by
  refine ⟨fun p => ⟨?csr, ?z, fun hp => ⟨fun b hb => ⟨?tt, ?out, ?snap⟩, ?batch, toNat_paramsWord hp⟩⟩,
    fun s => ⟨?readCsr, fun i => ⟨rfl, rfl⟩, fun b => rfl, fun i => ⟨rfl, rfl, rfl⟩⟩⟩
  case csr =>
    intro e he
    have h : e.1 < 0x100 ∧ e.1 % 8 = 0 ∧ csrAt e.1 = some e.2 := by
      revert e
      decide
    obtain ⟨ha, h8, hc⟩ := h
    rw [target_ofNat p (by omega) h8, locate_csr p ha hc]
  case z =>
    intro i
    rw [target_ofNat p (by omega) (by omega), target_ofNat p (by omega) (by omega)]
    exact ⟨locate_zRe p i, locate_zIm p i⟩
  case tt =>
    intro f hf
    have h : f.1 < 64 ∧ f.1 % 8 = 0 ∧ ttFieldAt f.1 = f.2 := by
      revert f
      decide
    obtain ⟨ho, h8, hfield⟩ := h
    rw [target_ofNat p (by omega) (by omega), locate_tt p hb ho, hfield]
  case out => rw [target_ofNat p (by omega) (by omega), locate_out hp hb]
  case snap => rw [target_ofNat p (by omega) (by omega), locate_snap hp hb]
  case batch =>
    intro i hi
    rw [target_ofNat p (by omega) (by omega), locate_batch hp hi]
  case readCsr =>
    have hctrl : ctrlWord s.ctrl = (if s.ctrl.ieDone then 1 else 0) + (if s.ctrl.ieErr then 2 else 0) := by
      unfold ctrlWord
      cases s.ctrl.ieErr <;> cases s.ctrl.ieDone <;> rfl
    simp only [List.forall_mem_cons]
    refine ⟨rfl, rfl, rfl, hctrl, rfl, rfl, rfl, rfl, rfl, rfl, rfl, rfl, rfl, rfl, ?_, rfl, rfl, rfl, rfl, rfl, rfl,
      rfl, List.forall_mem_nil _⟩
    show maModeWord s.ma.mode = _
    cases s.ma.mode <;> rfl

/-! ### What an access leaves of the ENGINE's state (10_state.md R78) -/

/-- t is s after an access: what the ENGINE owns is as before, but that DONE may be cleared. -/
def KeepsEngineState (s t : State) : Prop :=
  sameEngineState s { t with status := { t.status with done := s.status.done } } ∧
  (t.status.done = true → s.status.done = true)

theorem sameEngineState_refl (s : State) : sameEngineState s s :=
  ⟨rfl, rfl, rfl, rfl, rfl, rfl, rfl, rfl, rfl, rfl⟩

theorem setBusErr_keepsEngineState (s : State) : KeepsEngineState s (setBusErr s) :=
  ⟨sameEngineState_refl s, id⟩

theorem writeStatus_keepsEngineState (v : Word) (s : State) : KeepsEngineState s (writeStatus v s) := by
  refine ⟨sameEngineState_refl s, fun h => ?_⟩
  simp only [writeStatus, Bool.and_eq_true] at h
  exact h.1

theorem recordError_keepsEngineState (c : ErrCode) (w : Word) (s : State) : KeepsEngineState s (recordError c w s) := by
  rw [recordError_eq]
  split
  · exact ⟨sameEngineState_refl s, id⟩
  · exact ⟨sameEngineState_refl s, id⟩

theorem writeCsr_keepsEngineState (c : Csr) (v : Word) (s : State) : KeepsEngineState s (writeCsr c v s) := by
  cases c with
  | status => exact writeStatus_keepsEngineState v s
  | _ => exact ⟨sameEngineState_refl s, id⟩

theorem writeLoc_keepsEngineState (l : Loc) (v : Word) (s : State) : KeepsEngineState s (writeLoc l v s) := by
  cases l with
  | csr c => exact writeCsr_keepsEngineState c v s
  | tt b f => cases f <;> exact ⟨sameEngineState_refl s, id⟩
  | _ => exact ⟨sameEngineState_refl s, id⟩

theorem writeWhileBusy_keepsEngineState (l : Loc) (v : Word) (s : State) :
    KeepsEngineState s (writeWhileBusy l v s) := by
  unfold writeWhileBusy
  split
  · exact recordError_keepsEngineState _ v s
  · exact writeStatus_keepsEngineState v s
  · exact setBusErr_keepsEngineState s

theorem busWrite_keepsEngineState (addr : BitVec 32) (be : BitVec 8) (v : Word) (s : State) :
    KeepsEngineState s (busWrite addr be v s) := by
  obtain ⟨-, h⟩ | ⟨l, -, ⟨-, h⟩ | ⟨-, h⟩⟩ := busWrite_cases addr be v s
  · exact h ▸ setBusErr_keepsEngineState s
  · exact h ▸ writeLoc_keepsEngineState l v s
  · exact h ▸ writeWhileBusy_keepsEngineState l v s

theorem busRead_sameEngineState (addr : BitVec 32) (be : BitVec 8) (s : State) :
    sameEngineState s (busRead addr be s).2 := by
  obtain ⟨-, h⟩ | ⟨l, -, ⟨-, h⟩ | ⟨-, -, h⟩⟩ := busRead_cases addr be s
  · rw [h]
    exact sameEngineState_refl s
  · rw [h]
    exact sameEngineState_refl s
  · rw [h]
    exact sameEngineState_refl s

/-- Settles O19, by what an access can do to the state. -/
theorem hostAccessesLeaveTheSpectrumAlone : Obligations.HostAccessesLeaveTheSpectrumAlone :=
  fun s addr be v => ⟨busRead_sameEngineState addr be s, busWrite_keepsEngineState addr be v s⟩

/-! ### The ENGINE's step -/

theorem engineStep_of_decode {s : State} {w : Word} {i : Instr} (hp : s.pend = some w) (hd : decode w = .ok i) :
    engineStep s = exec i s := by
  simp only [engineStep, hp, decodePending, hd]

/-- Settles O5: the next step is the ENGINE's, and `engineStep_of_decode`. -/
theorem stepPerformsThePendingCommand : Obligations.StepPerformsThePendingCommand := by
  have hengine (s : State) (w : Word) (i : Instr) (hp : s.pend = some w) (hd : decode w = .ok i) :
      (s.turns = [] → step s = exec i s) ∧
      (∀ ts, s.turns = .engine :: ts → step s = exec i { s with turns := ts }) := by
    refine ⟨fun hs => ?_, fun ts hs => ?_⟩
    · simp only [step, hs, engineStep_of_decode hp hd]
    · simp only [step, hs]
      exact engineStep_of_decode hp hd
  refine ⟨hengine, fun s nbits w i hd => ?_⟩
  have hd' : decode (tableBusWord nbits w) = .ok i := by
    unfold decodeTableWord at hd
    cases hdec : decode (tableBusWord nbits w) with
    | error e => rw [hdec] at hd; cases hd
    | ok j => rw [hdec] at hd; cases hd; rfl
  obtain ⟨hnil, hcons⟩ := hengine (s.withFetchWord nbits w) _ i rfl hd'
  cases hs : s.turns with
  | nil =>
    have hw : s.withFetchWord nbits w = { s with pend := some (tableBusWord nbits w) } := by
      simp only [State.withFetchWord, placeCommand, hs]
    rw [hw] at hnil ⊢
    simpa only [hs] using hnil hs
  | cons t ts =>
    rw [hcons (t :: ts) (by simp only [State.withFetchWord, placeCommand, hs])]
    simp only [State.withFetchWord, placeCommand, ← hs]

end Sys2Proof.Machine
end

section
/-! PROOFS. The invariant of 10_state.md R79: it holds after reset and every step keeps it (O59, O60). -/

namespace Sys2Proof.Machine

/-! ### The parts of the invariant -/

/-- The invariant with a name for each of its parts, so that a proof gives only the parts that an update touches. -/
structure State.InvParts (s : State) : Prop where
  legal : s.params.legal
  ring_wf : Memory.wf 0 s.rb.mem = true
  bins_wf : Memory.wf Bin.reset s.bins = true
  sums_wf : Memory.wf 0 s.ma.sum = true
  heavy_wf : Memory.wf 0 s.ma.h = true
  table_wf : Memory.wf TTEntry.reset s.tt = true
  batch_wf : Memory.wf 0 s.batch = true
  out_wf : Memory.wf 0 s.out = true
  snap_wf : Memory.wf 0 s.snap = true
  ring_below : Memory.below s.rb.mem (2 ^ s.params.rbLog2Max) = true
  bins_below : Memory.below s.bins s.nbins.toNat = true
  sums_below : Memory.below s.ma.sum s.params.maxBins = true
  heavy_slots : ∀ c ∈ s.ma.h, c.1 / 2 ^ 64 < s.params.maxBins ∧ c.1 % 2 ^ 64 < 2 ^ s.params.hmaLog2Max
  table_below : Memory.below s.tt s.params.maxBins = true
  batch_below : Memory.below s.batch s.params.batchMax = true
  out_below : Memory.below s.out s.nbins.toNat = true
  snap_below : Memory.below s.snap s.params.maxBins = true
  sized : spectrumSized s
  empty : emptyUntilInit s
  built : binsBuilt s
  windows : windowsBounded s
  errors : errorRecorded s

theorem State.inv_iff_invParts (s : State) : s.inv ↔ s.InvParts := by
  constructor
  · rintro ⟨hlegal, ⟨hring, hbins, hsums, hheavy, htable, hbatch, hout, hsnap⟩,
      ⟨hringB, hbinsB, hsumsB, hheavyB, htableB, hbatchB, houtB, hsnapB⟩, hsized, hempty, hbuilt, hwindows, herrors⟩
    exact ⟨hlegal, hring, hbins, hsums, hheavy, htable, hbatch, hout, hsnap, hringB, hbinsB, hsumsB,
      by simpa using hheavyB, htableB, hbatchB, houtB, hsnapB, hsized, hempty, hbuilt, hwindows, herrors⟩
  · intro h
    exact ⟨h.legal,
      ⟨h.ring_wf, h.bins_wf, h.sums_wf, h.heavy_wf, h.table_wf, h.batch_wf, h.out_wf, h.snap_wf⟩,
      ⟨h.ring_below, h.bins_below, h.sums_below, by simpa using h.heavy_slots, h.table_below, h.batch_below,
        h.out_below, h.snap_below⟩,
      h.sized, h.empty, h.built, h.windows, h.errors⟩

theorem emptyUntilInit_of_init {s : State} (h : s.status.init = true) : emptyUntilInit s :=
  fun h0 => Bool.noConfusion (h.symm.trans h0)

theorem one_le_of_isPow2 {n : Nat} (h : isPow2 n) : 1 ≤ n := h ▸ Nat.one_le_two_pow

/-- A Heavy ring has at most 2^32 slots (00_scope.md R13). -/
theorem two_pow_hmaLog2Max_le {p : Params} (h : p.legal) : 2 ^ p.hmaLog2Max ≤ 2 ^ 32 :=
  Nat.pow_le_pow_right (by decide) h.2.2.2

/-- The sample ring has at most 2^18 slots (00_scope.md R12). -/
theorem two_pow_rbLog2Max_le {p : Params} (h : p.legal) : 2 ^ p.rbLog2Max ≤ 2 ^ 18 :=
  Nat.pow_le_pow_right (by decide) h.2.2.1.2

theorem State.InvParts.nbins_le {s : State} (h : s.InvParts) : s.nbins.toNat ≤ s.params.maxBins := by
  cases hi : s.status.init with
  | true => exact (h.sized hi).2.1
  | false =>
    rw [(h.empty hi).1]
    exact Nat.zero_le _

/-! ### Resets -/

theorem applyReset_invParts {s : State} (h : s.params.legal) : (applyReset s).InvParts where
  legal := h
  ring_wf := rfl
  bins_wf := rfl
  sums_wf := rfl
  heavy_wf := rfl
  table_wf := rfl
  batch_wf := rfl
  out_wf := rfl
  snap_wf := rfl
  ring_below := rfl
  bins_below := rfl
  sums_below := rfl
  heavy_slots := nofun
  table_below := rfl
  batch_below := rfl
  out_below := rfl
  snap_below := rfl
  sized := nofun
  empty := fun _ => ⟨rfl, rfl, rfl, rfl⟩
  built := nofun
  windows := ⟨nofun, fun _ => ⟨rfl, rfl⟩, fun _ => ⟨rfl, rfl⟩, Nat.zero_le _, Nat.zero_le _⟩
  errors := ⟨by simp [State.reset], fun _ => rfl⟩

/-- Settles O59: the reset state is the reset of itself, and its parameters are legal. -/
theorem resetMeetsTheInvariant : Obligations.ResetMeetsTheInvariant :=
  (State.inv_iff_invParts _).2 (applyReset_invParts (s := State.reset) (by decide))

/-! ### The end of a command and the error record -/

theorem completed_invParts {s : State} (h : s.InvParts) : (completed s).InvParts := { h with }

theorem writeZ_invParts {s : State} (h : s.InvParts) (r : Fin 8) (v : C64) : (writeZ s r v).InvParts := { h with }

theorem setBusErr_invParts {s : State} (h : s.InvParts) : (setBusErr s).InvParts := { h with }

theorem failed_invParts {s : State} (h : s.InvParts) {code : ErrCode} (hc : code ≠ .eNone) (info : Word) :
    (failed code info s).InvParts := by
  unfold failed
  split
  · exact { h with }
  · exact { h with errors := ⟨by simp [hc], by simp⟩ }

theorem RaisedFrom.invParts {s t : State} (ht : RaisedFrom s t) (h : s.InvParts) : t.InvParts := by
  obtain ⟨code, hc, info, rfl⟩ := ht
  exact failed_invParts h hc info

theorem WroteRegister.invParts {zd : Fin 8} {s t : State} (ht : WroteRegister zd s t) (h : s.InvParts) :
    t.InvParts := by
  obtain ⟨v, rfl⟩ := ht
  exact completed_invParts (writeZ_invParts h zd v)

theorem recordError_invParts {s : State} (h : s.InvParts) {code : ErrCode} (hc : code ≠ .eNone) (info : Word) :
    (recordError code info s).InvParts := by
  rw [recordError_eq]
  split
  · exact { h with }
  · exact { h with errors := ⟨by simp [hc], by simp⟩ }

/-- A STATUS write that clears ERR clears its code and its detail with it (10_state.md R48). -/
theorem writeStatus_invParts {s : State} (h : s.InvParts) (v : Word) : (writeStatus v s).InvParts := by
  obtain ⟨hcode, hinfo⟩ := h.errors
  refine { h with errors := ?_ }
  cases hv : v.getLsbD 2 with
  | true => simp [errorRecorded, writeStatus, hv]
  | false => simpa only [errorRecorded, writeStatus, hv, Bool.not_false, Bool.and_true] using ⟨hcode, hinfo⟩

/-! ### The table, SNAPBUF and OUT -/

theorem Memory.wf_foldl_write {α : Type} [DecidableEq α] {d : α} (f : Nat → α) (l : List Nat) {m : Memory α}
    (h : Memory.wf d m = true) : Memory.wf d (l.foldl (fun m i => Memory.write d m i (f i)) m) = true := by
  induction l generalizing m with
  | nil => exact h
  | cons i l ih => exact ih (Memory.wf_write i (f i) h)

theorem Memory.below_foldl_write {α : Type} [DecidableEq α] {d : α} (f : Nat → α) {n : Nat} (l : List Nat)
    (hl : ∀ i ∈ l, i < n) {m : Memory α} (h : Memory.below m n = true) :
    Memory.below (l.foldl (fun m i => Memory.write d m i (f i)) m) n = true := by
  induction l generalizing m with
  | nil => exact h
  | cons i l ih =>
    rw [List.forall_mem_cons] at hl
    exact ih hl.2 (Memory.below_write (f i) h hl.1)

theorem tmLoop_wf (c : Cfg) (todo j : Nat) {tt : Memory TTEntry} (h : Memory.wf TTEntry.reset tt = true) :
    Memory.wf TTEntry.reset (tmLoop c todo j tt).1 = true := by
  induction todo generalizing j tt with
  | zero => exact h
  | succ todo ih =>
    unfold tmLoop
    split
    · exact h
    · exact ih (j + 1) (Memory.wf_write j _ h)

theorem tmLoop_below (c : Cfg) {n : Nat} (todo j : Nat) (hn : j + todo ≤ n) {tt : Memory TTEntry}
    (h : Memory.below tt n = true) : Memory.below (tmLoop c todo j tt).1 n = true := by
  induction todo generalizing j tt with
  | zero => exact h
  | succ todo ih =>
    unfold tmLoop
    split
    · exact h
    · exact ih (j + 1) (by omega) (Memory.below_write _ h (by omega))

theorem builtTable_invParts {s : State} (h : s.InvParts) (hk : s.cfg.keyCount.toNat ≤ s.params.maxBins) :
    State.InvParts { s with tt := builtTable s } :=
  { h with
    table_wf := tmLoop_wf _ _ _ h.table_wf
    table_below := tmLoop_below _ _ _ ((Nat.zero_add _).trans_le hk) h.table_below }

theorem snapCopy_invParts {s : State} (h : s.InvParts) :
    State.InvParts { s with snap := snapCopy s.params.maxBins s.out s.snap } :=
  { h with
    snap_wf := Memory.wf_foldl_write _ _ h.snap_wf
    snap_below := Memory.below_foldl_write _ _ (fun _ => List.mem_range.1) h.snap_below }

theorem processOut_invParts {s : State} (h : s.InvParts) : (processOut s).InvParts := by
  unfold processOut
  split
  · exact h
  · exact { h with
      out_wf := Memory.wf_foldl_write _ _ h.out_wf
      out_below := Memory.below_foldl_write _ _ (fun _ => List.mem_range.1) h.out_below }

end Sys2Proof.Machine
end

section
/-! PROOFS. PROCESS keeps the invariant: the windows, the channel updates and the samples (O60). -/

namespace Sys2Proof.Machine

/-! ### The target window and the ramp (44_moving_average.md R362, R363) -/

theorem setTarget_tgt_le (s : State) : (setTarget s).ma.tgt.toNat ≤ targetBound s.ma := by
  rw [setTarget_ma, BitVec.toNat_ofNat]
  exact (Nat.mod_le _ _).trans (conv_le _ _)

theorem targetBound_of_heavy {ma : MovAvg} (h : ma.mode = .heavy) : targetBound ma = ma.wmax.toNat := by
  simp only [targetBound, h]

theorem targetBound_of_ne_heavy {ma : MovAvg} (h : ma.mode ≠ .heavy) : targetBound ma = 2 ^ 32 - 1 := by
  unfold targetBound
  split
  · contradiction
  · rfl
  · rfl

theorem setTarget_invParts {s : State} (h : s.InvParts) (hmode : s.ma.mode ≠ .off) : (setTarget s).InvParts := by
  obtain ⟨hheavy, hnot, -, hcur, -⟩ := h.windows
  have htgt := setTarget_tgt_le s
  have hle : (setTarget s).ma.tgt.toNat ≤ 2 ^ 32 - 1 := by
    by_cases hm : s.ma.mode = .heavy
    · obtain ⟨-, -, hcap, -, hmax⟩ := hheavy hm
      have := two_pow_hmaLog2Max_le h.legal
      rw [targetBound_of_heavy hm] at htgt
      omega
    · rwa [targetBound_of_ne_heavy hm] at htgt
  refine { h with windows := ⟨fun hm => ?_, hnot, fun hoff => absurd hoff hmode, hcur, hle⟩ }
  obtain ⟨hc, -, hrest⟩ := hheavy hm
  exact ⟨hc, (targetBound_of_heavy hm) ▸ htgt, hrest⟩

theorem processTarget_invParts {s : State} (h : s.InvParts) : (processTarget s).InvParts := by
  unfold processTarget
  split
  · exact h
  · exact setTarget_invParts h ‹_›

/-- The ramp stays within every bound of the window and its target. -/
theorem ramp_cur_le {ma : MovAvg} {n : Nat} (hc : ma.cur.toNat ≤ n) (ht : ma.tgt.toNat ≤ n) :
    (ramp ma).cur.toNat ≤ n := by
  unfold ramp
  split
  · show (ma.cur + 1).toNat ≤ n
    bv_omega
  split
  · show (ma.cur - 1).toNat ≤ n
    bv_omega
  · exact hc

theorem ramp_invParts {s : State} (h : s.InvParts) : State.InvParts { s with ma := ramp s.ma } := by
  obtain ⟨hheavy, hnot, hoff, hcur, htgt⟩ := h.windows
  rw [ramp_frame]
  refine { h with windows := ⟨fun hm => ?_, hnot, fun hm => ?_, ramp_cur_le hcur htgt, htgt⟩ }
  · obtain ⟨hc, ht, hrest⟩ := hheavy hm
    exact ⟨ramp_cur_le hc ht, ht, hrest⟩
  · obtain ⟨hc, ht⟩ := hoff hm
    have hle : (ramp s.ma).cur.toNat ≤ 0 := ramp_cur_le (by simp [hc]) (by simp [ht])
    exact ⟨BitVec.eq_of_toNat_eq (Nat.le_zero.1 hle), ht⟩

/-! ### The channels (44_moving_average.md R365, R368) -/

theorem fastChannel_invParts {s : State} (h : s.InvParts) (levels : Memory F64) {ch : Nat}
    (hch : ch < s.params.maxBins) : State.InvParts { s with ma := fastChannel levels s.ma ch } :=
  { h with
    sums_wf := Memory.wf_write _ _ h.sums_wf
    sums_below := Memory.below_write _ h.sums_below hch }

/-- A Heavy channel writes one slot below the capacity of its ring. -/
theorem heavyChannel_invParts {s : State} (h : s.InvParts) (hm : s.ma.mode = .heavy) (levels : Memory F64) {ch : Nat}
    (hch : ch < s.params.maxBins) : State.InvParts { s with ma := heavyChannel levels s.ma ch } := by
  refine { h with
    sums_wf := Memory.wf_write _ _ h.sums_wf
    sums_below := Memory.below_write _ h.sums_below hch
    heavy_wf := Memory.wf_write _ _ h.heavy_wf
    heavy_slots := fun c hc => ?_ }
  obtain ⟨hheavy, -⟩ := h.windows
  obtain ⟨-, -, -, hpow, hmax⟩ := hheavy hm
  have hslot : writeSlot s.ma.hwc s.ma.cap < s.ma.cap.toNat := writeSlot_lt (one_le_of_isPow2 hpow)
  obtain ⟨rfl, -⟩ | ⟨hc, -⟩ := Memory.mem_write hc
  · obtain ⟨hdiv, hmod⟩ := hIndex_div_mod ch _ (hslot.trans s.ma.cap.isLt)
    exact ⟨hdiv.trans_lt hch, hmod.trans_lt (hslot.trans_le hmax)⟩
  · exact h.heavy_slots c hc

theorem foldl_fastChannel_invParts (levels : Memory F64) (l : List Nat) {s : State} (h : s.InvParts)
    (hl : ∀ ch ∈ l, ch < s.params.maxBins) :
    State.InvParts { s with ma := l.foldl (fastChannel levels) s.ma } := by
  induction l generalizing s with
  | nil => exact h
  | cons ch l ih =>
    rw [List.forall_mem_cons] at hl
    exact ih (fastChannel_invParts h levels hl.1) hl.2

theorem foldl_heavyChannel_invParts (levels : Memory F64) (l : List Nat) {s : State} (h : s.InvParts)
    (hm : s.ma.mode = .heavy) (hl : ∀ ch ∈ l, ch < s.params.maxBins) :
    State.InvParts { s with ma := l.foldl (heavyChannel levels) s.ma } := by
  induction l generalizing s with
  | nil => exact h
  | cons ch l ih =>
    rw [List.forall_mem_cons] at hl
    exact ih (heavyChannel_invParts h hm levels hl.1) hm hl.2

theorem maUpdate_invParts {s : State} (h : s.InvParts) (levels : Memory F64) :
    State.InvParts { s with ma := maUpdate s.nbins.toNat levels s.ma } := by
  have hl : ∀ ch ∈ List.range s.nbins.toNat, ch < s.params.maxBins :=
    fun ch hch => (List.mem_range.1 hch).trans_le h.nbins_le
  cases hm : s.ma.mode with
  | off => simpa only [maUpdate, hm] using h
  | fast =>
    simp only [maUpdate, hm]
    exact ramp_invParts (foldl_fastChannel_invParts levels _ h hl)
  | heavy =>
    simp only [maUpdate, hm]
    have hfold := foldl_heavyChannel_invParts levels _ h hm hl
    exact ramp_invParts (s := { s with ma := { (List.range s.nbins.toNat).foldl (heavyChannel levels) s.ma with
      hwc := ((List.range s.nbins.toNat).foldl (heavyChannel levels) s.ma).hwc + 1 } }) { hfold with }

/-! ### A sample (45_sliding_spectrum.md R408-R410) -/

theorem takeSample_invParts {s : State} (h : s.InvParts) (hinit : s.status.init = true) {i : Nat}
    (hi : i < s.params.batchMax) : (takeSample s i).InvParts := by
  obtain ⟨-, -, hpow, hmax, -⟩ := h.sized hinit
  have hslot : writeSlot s.rb.wc s.rb.cap < 2 ^ s.params.rbLog2Max :=
    (writeSlot_lt (one_le_of_isPow2 hpow)).trans_le hmax
  exact { h with
    ring_wf := Memory.wf_write _ _ h.ring_wf
    ring_below := Memory.below_write _ h.ring_below hslot
    batch_wf := Memory.wf_write i 0 h.batch_wf
    batch_below := Memory.below_write (d := 0) 0 h.batch_below hi
    empty := emptyUntilInit_of_init hinit }

/-- An update of a bin keeps what construction gave every bin (42_frequency_bin.md R286). -/
theorem binSample_keeps_construction (x : F64) (s : State) (b j : Nat) :
    (readBin (binSample x s b) j).k = (readBin s j).k ∧ (readBin (binSample x s b) j).n = (readBin s j).n ∧
    (readBin (binSample x s b) j).bands = (readBin s j).bands ∧
    (readBin (binSample x s b) j).coef = (readBin s j).coef := by
  have h : readBin (binSample x s b) j =
      if j = b then binUpdate (ringRead s.rb ((readBin s b).n.setWidth 64)) x (readBin s b) else readBin s j :=
    Memory.read_write ..
  rw [h]
  split
  · subst j
    exact ⟨rfl, rfl, rfl, rfl⟩
  · exact ⟨rfl, rfl, rfl, rfl⟩

theorem binSample_invParts {s : State} (h : s.InvParts) (x : F64) {b : Nat} (hb : b < s.nbins.toNat) :
    (binSample x s b).InvParts := by
  refine { h with
    bins_wf := Memory.wf_write _ _ h.bins_wf
    bins_below := Memory.below_write _ h.bins_below hb
    out_wf := Memory.wf_write _ _ h.out_wf
    out_below := Memory.below_write _ h.out_below hb
    sized := fun hinit => ?_
    built := fun j hj => ?_ }
  · obtain ⟨hpos, hle, hpow, hmax, hfits⟩ := h.sized hinit
    refine ⟨hpos, hle, hpow, hmax, fun j hj => ?_⟩
    obtain ⟨-, hn, -, -⟩ := binSample_keeps_construction x s b j
    exact hn ▸ hfits j hj
  · obtain ⟨hk, hn, hbands, hcoef⟩ := binSample_keeps_construction x s b j
    rw [hk, hn, hbands, hcoef]
    exact h.built j hj

theorem foldl_binSample_invParts (x : F64) (l : List Nat) {s : State} (h : s.InvParts)
    (hl : ∀ b ∈ l, b < s.nbins.toNat) : (l.foldl (binSample x) s).InvParts := by
  induction l generalizing s with
  | nil => exact h
  | cons b l ih =>
    rw [List.forall_mem_cons] at hl
    exact ih (binSample_invParts h x hl.1) hl.2

theorem processSample_invParts {s : State} (h : s.InvParts) (hinit : s.status.init = true) {i : Nat}
    (hi : i < s.params.batchMax) : (processSample s i).InvParts :=
  have hbins := foldl_binSample_invParts (Memory.read 0 s.batch i) (List.range s.nbins.toNat)
    (takeSample_invParts h hinit hi) (fun _ => List.mem_range.1)
  maUpdate_invParts hbins _

theorem foldl_processSample_invParts (l : List Nat) {s : State} (h : s.InvParts) (hinit : s.status.init = true)
    (hl : ∀ i ∈ l, i < s.params.batchMax) : (l.foldl processSample s).InvParts := by
  induction l generalizing s with
  | nil => exact h
  | cons i l ih =>
    rw [List.forall_mem_cons] at hl
    have hframe := processSample_frame s i
    exact ih (processSample_invParts h hinit hl.1) (by rw [hframe]; exact hinit) (by rw [hframe]; exact hl.2)

theorem processBatch_invParts {s : State} (h : s.InvParts) (hinit : s.status.init = true) {len : Nat}
    (hlen : len ≤ s.params.batchMax) : (processBatch len s).InvParts := by
  have hframe := processTarget_frame s
  refine processOut_invParts (foldl_processSample_invParts _ (processTarget_invParts h) ?_ fun i hi => ?_)
  · rw [hframe]
    exact hinit
  · rw [hframe]
    exact (List.mem_range.1 hi).trans_le hlen

end Sys2Proof.Machine
end

section
/-! PROOFS. SS_INIT, the host's writes and the step keep the invariant (O60). -/

namespace Sys2Proof.Machine

/-! ### Validation (45_sliding_spectrum.md R401) -/

theorem isPow2_ringCap (r : Nat) : isPow2 (ringCap r) := by
  unfold ringCap isPow2
  split
  · decide
  · rw [Nat.log2_two_pow]

theorem lt_ringCap (r : Nat) : r < ringCap r := by
  unfold ringCap
  split
  · omega
  · exact Nat.lt_log2_self

theorem ringCap_le_two_pow {r n : Nat} (h : r < 2 ^ n) : ringCap r ≤ 2 ^ n := by
  unfold ringCap
  split
  · exact Nat.one_le_two_pow
  · exact Nat.pow_le_pow_right (by decide) ((Nat.log2_lt ‹_›).2 h)

/-- A smoothing that was chosen: Heavy with a bounded window and its ring, or another mode without either. -/
theorem chooseSmoothing_ok {x sr : F64} {n : Nat} {sm : Smoothing} (h : chooseSmoothing x sr n = .ok sm) :
    (sm.mode = .heavy ∧ sm.wmax ≤ 2 ^ n - 1 ∧ sm.cap = ringCap sm.wmax) ∨
    (sm.mode ≠ .heavy ∧ sm.wmax = 0 ∧ sm.cap = 0) := by
  unfold chooseSmoothing at h
  split at h
  · cases h
  split at h
  · split at h
    · cases h
    next w hconv =>
      cases h
      have hw := conv_le (fmul x sr) (2 ^ n - 1)
      rw [hconv] at hw
      exact .inl ⟨rfl, hw, rfl⟩
  split at h
  · cases h
    exact .inr ⟨by decide, rfl, rfl⟩
  · cases h
    exact .inr ⟨by decide, rfl, rfl⟩

/-- What a validated configuration meets, and what its plan holds. -/
theorem validate_ok {s : State} {p : Plan} (h : validate s = .ok p) :
    1 ≤ s.ttCount.toNat ∧ s.ttCount.toNat ≤ s.params.maxBins ∧
    (∀ b < s.ttCount.toNat, entryOk (Memory.read TTEntry.reset s.tt b)) ∧
    p.cap = ringCap (maxWindow s.tt s.ttCount.toNat) ∧ p.cap ≤ 2 ^ s.params.rbLog2Max ∧
    chooseSmoothing s.cfg.smoothSeconds s.cfg.sampleRate s.params.hmaLog2Max = .ok p.smoothing := by
  unfold validate at h
  dsimp only at h
  split at h
  · cases h
  split at h
  · cases h
  split at h
  · cases h
  next hcount _ htable =>
    split at h
    · cases h
    next hmax =>
      split at h
      · cases h
      next sm hsmooth =>
        cases h
        have hentries := (checkTable_none s.tt s.ttCount.toNat 0).1 htable
        exact ⟨by omega, by omega, fun b hb => (checkEntry_none_iff _).1 (hentries b (Nat.zero_le b) (by omega)), rfl,
          Nat.le_of_not_lt hmax, hsmooth⟩

/-! ### Construction (45_sliding_spectrum.md R402) -/

theorem constructBins_wf (tt : Memory TTEntry) (k maxBins : Nat) {bins : Memory Bin}
    (h : Memory.wf Bin.reset bins = true) : Memory.wf Bin.reset (constructBins tt k maxBins bins) = true :=
  Memory.wf_clear _ (Memory.wf_foldl_write _ _ h)

theorem constructBins_below (tt : Memory TTEntry) {k maxBins : Nat} (hk : k ≤ maxBins) {bins : Memory Bin}
    (h : Memory.below bins maxBins = true) : Memory.below (constructBins tt k maxBins bins) k = true := by
  have hwritten := Memory.below_foldl_write (d := Bin.reset)
    (fun b => binOfEntry (Memory.read TTEntry.reset tt b)) (List.range k)
    (fun b hb => (List.mem_range.1 hb).trans_le hk) h
  rw [Memory.below_iff] at hwritten ⊢
  intro c hc
  obtain ⟨hc, hkept⟩ := (Memory.mem_clear _ _ c).1 hc
  have hlt := hwritten c hc
  simp only [decide_eq_false_iff_not] at hkept
  omega

@[simp] theorem constructMa_sum (sm : Smoothing) (maxBins : Nat) (ma : MovAvg) :
    (constructMa sm maxBins ma).sum = Memory.clear ma.sum (fun ch => decide (ch < maxBins)) := rfl

@[simp] theorem constructMa_h (sm : Smoothing) (maxBins : Nat) (ma : MovAvg) :
    (constructMa sm maxBins ma).h =
      Memory.clear ma.h (fun i => decide (i / 2 ^ 64 < maxBins ∧ i % 2 ^ 64 < sm.cap)) := rfl

theorem construct_ring_mem (p : Plan) (s : State) :
    (construct p s).rb.mem = Memory.clear s.rb.mem (fun i => decide (i < p.cap)) := rfl

theorem readBin_construct (p : Plan) (s : State) {b : Nat} (hb : b < s.ttCount.toNat) :
    readBin (construct p s) b = binOfEntry (Memory.read TTEntry.reset s.tt b) := by
  unfold readBin
  rw [construct_bins, constructBins_read, if_neg (by omega), if_pos hb]

theorem binOfEntry_n {e : TTEntry} (h : e.nn.toNat ≤ 2 ^ 32 - 1) : (binOfEntry e).n.toNat = e.nn.toNat := by
  show (e.nn.setWidth 32).toNat = _
  rw [BitVec.toNat_setWidth, Nat.mod_eq_of_lt (by omega)]

theorem construct_spectrumSized {s : State} (hlegal : s.params.legal) {p : Plan} (hv : validate s = .ok p) :
    spectrumSized (construct p s) := by
  obtain ⟨hpos, hle, hentries, hcap, hmax, -⟩ := validate_ok hv
  have hbound := two_pow_rbLog2Max_le hlegal
  have htoNat : (construct p s).rb.cap.toNat = p.cap := by
    rw [construct_rb, BitVec.toNat_ofNat, Nat.mod_eq_of_lt (by omega)]
  intro _
  rw [htoNat]
  refine ⟨hpos, hle, hcap ▸ isPow2_ringCap _, hmax, fun b hb => ?_⟩
  obtain ⟨-, -, hnn, -⟩ := hentries b hb
  rw [readBin_construct p s hb, binOfEntry_n hnn, hcap]
  exact (le_maxWindow s.tt _ b hb).trans_lt (lt_ringCap _)

theorem construct_binsBuilt {s : State} {p : Plan} (hv : validate s = .ok p) : binsBuilt (construct p s) := by
  obtain ⟨-, -, hentries, -⟩ := validate_ok hv
  intro b hb
  obtain ⟨-, hpos, hnn, -⟩ := hentries b hb
  rw [readBin_construct p s hb]
  exact ⟨(binOfEntry_n hnn).symm ▸ hpos, rfl, rfl⟩

theorem construct_windowsBounded {s : State} (hlegal : s.params.legal) {p : Plan} (hv : validate s = .ok p) :
    windowsBounded (construct p s) := by
  obtain ⟨-, -, -, -, -, hsmooth⟩ := validate_ok hv
  refine ⟨fun hm => ?heavy, fun hm => ?rest, fun _ => ⟨rfl, rfl⟩, Nat.zero_le _, Nat.zero_le _⟩
  case heavy =>
    obtain ⟨-, hw, hcap⟩ | ⟨hne, -⟩ := chooseSmoothing_ok hsmooth
    · have hbound := two_pow_hmaLog2Max_le hlegal
      have hpos := Nat.one_le_two_pow (n := s.params.hmaLog2Max)
      have hmax : p.smoothing.cap ≤ 2 ^ s.params.hmaLog2Max := hcap ▸ ringCap_le_two_pow (by omega)
      have hwmax : (construct p s).ma.wmax.toNat = p.smoothing.wmax := by
        show (BitVec.ofNat 64 p.smoothing.wmax).toNat = _
        rw [BitVec.toNat_ofNat, Nat.mod_eq_of_lt (by omega)]
      have hmaCap : (construct p s).ma.cap.toNat = p.smoothing.cap := by
        show (BitVec.ofNat 64 p.smoothing.cap).toNat = _
        rw [BitVec.toNat_ofNat, Nat.mod_eq_of_lt (by omega)]
      rw [hwmax, hmaCap]
      exact ⟨Nat.zero_le _, Nat.zero_le _, hcap ▸ lt_ringCap _, hcap ▸ isPow2_ringCap _, hmax⟩
    · exact absurd hm hne
  case rest =>
    obtain ⟨heq, -⟩ | ⟨-, hw, hcap⟩ := chooseSmoothing_ok hsmooth
    · exact absurd heq hm
    · exact ⟨congrArg (BitVec.ofNat 64) hw, congrArg (BitVec.ofNat 64) hcap⟩

theorem construct_out_below {s : State} (h : s.InvParts) (p : Plan) (n : Nat) :
    Memory.below (construct p s).out n = true := by
  rw [construct_out, Memory.below_iff]
  intro c hc
  obtain ⟨hc, hkept⟩ := (Memory.mem_clear _ _ c).1 hc
  have hlt := (Memory.below_iff _ _).1 (Memory.below_mono h.out_below h.nbins_le) c hc
  exact absurd hlt (of_decide_eq_false hkept)

theorem construct_invParts {s : State} (h : s.InvParts) {p : Plan} (hv : validate s = .ok p) :
    (construct p s).InvParts := by
  obtain ⟨-, hle, -⟩ := validate_ok hv
  exact { h with
    ring_wf := by rw [construct_ring_mem]; exact Memory.wf_clear _ h.ring_wf
    ring_below := by rw [construct_ring_mem]; exact Memory.below_clear _ h.ring_below
    bins_wf := constructBins_wf _ _ _ h.bins_wf
    bins_below := constructBins_below _ hle (Memory.below_mono h.bins_below h.nbins_le)
    sums_wf := by rw [construct_ma, constructMa_sum]; exact Memory.wf_clear _ h.sums_wf
    sums_below := by rw [construct_ma, constructMa_sum]; exact Memory.below_clear _ h.sums_below
    heavy_wf := by rw [construct_ma, constructMa_h]; exact Memory.wf_clear _ h.heavy_wf
    heavy_slots := by
      rw [construct_ma, constructMa_h]
      exact fun c hc => h.heavy_slots c ((Memory.mem_clear _ _ c).1 hc).1
    out_wf := by rw [construct_out]; exact Memory.wf_clear _ h.out_wf
    out_below := construct_out_below h p _
    sized := construct_spectrumSized h.legal hv
    empty := emptyUntilInit_of_init rfl
    built := construct_binsBuilt hv
    windows := construct_windowsBounded h.legal hv }

/-! ### Every command -/

theorem exec_invParts {i : Instr} {s t : State} (h : s.InvParts) (hexec : exec i s = .next t) : t.InvParts := by
  cases hd : destination i with
  | some zd =>
    obtain hraised | hwrote := exec_cases_of_destination hd hexec
    · exact hraised.invParts h
    · exact hwrote.invParts h
  | none =>
    cases i with
    | cadd | csub | cmul | cexp | cmag | rbRd | binRd | maRd | tmK2f => cases hd
    | nop => exact eq_completed_of_finish hexec ▸ completed_invParts h
    | reset => exact eq_completed_of_finish hexec ▸ completed_invParts (applyReset_invParts h.legal)
    | snap => exact eq_completed_of_finish hexec ▸ completed_invParts (snapCopy_invParts h)
    | tmBuild =>
      obtain hraised | ⟨hk, hraised | rfl⟩ := execTmBuild_cases hexec
      · exact hraised.invParts h
      · exact hraised.invParts (builtTable_invParts h hk)
      · exact { builtTable_invParts h hk with }
    | ssInit =>
      obtain hraised | ⟨p, hv, rfl⟩ := execSsInit_cases hexec
      · exact hraised.invParts h
      · exact completed_invParts (construct_invParts h hv)
    | process len =>
      obtain hraised | ⟨hinit, hlen, rfl⟩ := execProcess_cases hexec
      · exact hraised.invParts h
      · exact completed_invParts (processBatch_invParts h hinit hlen)

theorem engineStep_invParts {s t : State} (h : s.InvParts) (hstep : engineStep s = .next t) : t.InvParts := by
  obtain ⟨-, rfl⟩ | ⟨w, i, -, -, hexec⟩ | ⟨w, e, -, -, rfl⟩ := engineStep_cases hstep
  · exact h
  · exact exec_invParts h hexec
  · exact failed_invParts h (by cases e <;> decide) w

/-! ### Every access -/

/-- A location of TT or BATCH is inside its memory. -/
def Loc.InExtent (p : Params) : Loc → Prop
  | .tt b _ => b < p.maxBins
  | .batch i => i < p.batchMax
  | .csr _ | .zRe _ | .zIm _ | .out _ | .snap _ => True

theorem csrBlock_inExtent (p : Params) {off : Nat} {l : Loc} (h : csrBlock off = some l) : l.InExtent p := by
  unfold csrBlock at h
  split at h
  · split at h
    · cases h; trivial
    · cases h; trivial
  · obtain ⟨c, -, rfl⟩ := Option.map_eq_some_iff.1 h
    trivial

theorem locate_inExtent {p : Params} {a : Nat} {l : Loc} (h : locate p a = some l) : l.InExtent p := by
  unfold locate at h
  split at h
  · exact csrBlock_inExtent p h
  split at h
  · cases h
    show (a - 0x100000) / 64 < p.maxBins
    omega
  split at h
  · cases h
    show (a - 0x200000) / 8 < p.batchMax
    omega
  split at h
  · cases h; trivial
  split at h
  · cases h; trivial
  · cases h

theorem target_inExtent {p : Params} {addr : BitVec 32} {be : BitVec 8} {l : Loc} (h : target p addr be = some l) :
    l.InExtent p := by
  unfold target at h
  split at h
  · cases h
  · exact locate_inExtent h

theorem writeCsr_invParts {s : State} (h : s.InvParts) (c : Csr) (v : Word) : (writeCsr c v s).InvParts := by
  cases c with
  | status => exact writeStatus_invParts h v
  | cmd | ctrl | sampleRate | pitchFork | keyCount | refKey | smoothSeconds | winSeconds | ttCount =>
    exact { h with }
  | _ => exact setBusErr_invParts h

theorem writeLoc_invParts {s : State} (h : s.InvParts) {l : Loc} (hl : l.InExtent s.params) (v : Word) :
    (writeLoc l v s).InvParts := by
  cases l with
  | csr c => exact writeCsr_invParts h c v
  | zRe i | zIm i => exact writeZ_invParts h i _
  | out | snap => exact setBusErr_invParts h
  | batch i =>
    exact { h with
      batch_wf := Memory.wf_write i v h.batch_wf
      batch_below := Memory.below_write v h.batch_below hl }
  | tt b f =>
    cases f with
    | reserved => exact h
    | _ => exact { h with
        table_wf := Memory.wf_write _ _ h.table_wf
        table_below := Memory.below_write _ h.table_below hl }

theorem writeWhileBusy_invParts {s : State} (h : s.InvParts) (l : Loc) (v : Word) :
    (writeWhileBusy l v s).InvParts := by
  unfold writeWhileBusy
  split
  · exact recordError_invParts h (by decide) v
  · exact writeStatus_invParts h v
  · exact setBusErr_invParts h

theorem busWrite_invParts {s : State} (h : s.InvParts) (addr : BitVec 32) (be : BitVec 8) (v : Word) :
    (busWrite addr be v s).InvParts := by
  obtain ⟨-, hw⟩ | ⟨l, ht, ⟨-, hw⟩ | ⟨-, hw⟩⟩ := busWrite_cases addr be v s
  · exact hw ▸ setBusErr_invParts h
  · exact hw ▸ writeLoc_invParts h (target_inExtent ht) v
  · exact hw ▸ writeWhileBusy_invParts h l v

theorem busRead_invParts {s : State} (h : s.InvParts) (addr : BitVec 32) (be : BitVec 8) :
    (busRead addr be s).2.InvParts := by
  obtain ⟨-, hr⟩ | ⟨l, -, ⟨-, hr⟩ | ⟨-, -, hr⟩⟩ := busRead_cases addr be s
  · exact hr ▸ setBusErr_invParts h
  · exact hr ▸ h
  · rw [hr]
    exact { h with }

/-! ### The step -/

theorem step_invParts {s t : State} (h : s.InvParts) (hstep : step s = .next t) : t.InvParts := by
  have hturns (ts : List Turn) : State.InvParts { s with turns := ts } := { h with }
  obtain ⟨-, he⟩ | ⟨ts, -, he⟩ | ⟨addr, be, ts, -, rfl⟩ | ⟨addr, be, v, ts, -, rfl⟩ | ⟨ts, -, rfl⟩ :=
    step_cases hstep
  · exact engineStep_invParts h he
  · exact engineStep_invParts (hturns ts) he
  · exact { busRead_invParts (hturns ts) addr be with }
  · exact busWrite_invParts (hturns ts) addr be v
  · exact applyReset_invParts h.legal

/-- Settles O60: by whose turn it is, and by the command that an ENGINE turn performs. -/
theorem everyStepKeepsTheInvariant : Obligations.EveryStepKeepsTheInvariant :=
  fun s t h hstep => (State.inv_iff_invParts t).2 (step_invParts ((State.inv_iff_invParts s).1 h) hstep)

end Sys2Proof.Machine
end

section
/-! PROOFS. The host's accesses (20_memory.md): illegal ones (O14), the words that idle writes store (O16), and legal
reads and refused writes, idle and busy (O17). -/

namespace Sys2Proof.Machine

/-! ### Addresses and locations (20_memory.md R101-R103, R106, R107, R109) -/

/-- The CSRs stand eight bytes apart in the order of their constructors (10_state.md R45). -/
theorem csrAt_offset {off : Nat} {c : Csr} (h : csrAt off = some c) : off = 8 * c.ctorIdx := by
  unfold csrAt at h
  split at h <;> cases h <;> rfl

theorem csrAt_lt {off : Nat} {c : Csr} (h : csrAt off = some c) : off < 0xB0 := by
  have hc : c.ctorIdx < 22 := by cases c <;> decide
  have := csrAt_offset h
  omega

/-- So do the words of a tuning-table entry; the three reserved ones share one constructor (20_memory.md R103). -/
theorem ttFieldAt_offset {off : Nat} (h : ttFieldAt off ≠ .reserved) : off = 8 * (ttFieldAt off).ctorIdx := by
  unfold ttFieldAt at h ⊢
  split at h
  · rfl
  · rfl
  · rfl
  · rfl
  · rfl
  · exact absurd rfl h

theorem mapped_of_locate {p : Params} {a : Nat} {l : Loc} (h : locate p a = some l) : mapped p a := by
  unfold mapped
  unfold locate at h
  split at h
  · unfold csrBlock at h
    split at h
    · omega
    · obtain ⟨c, hc, -⟩ := Option.map_eq_some_iff.1 h
      exact .inl (csrAt_lt hc)
  · split_ifs at h <;> omega

theorem target_eq_some_iff {p : Params} {addr : BitVec 32} {be : BitVec 8} {l : Loc} :
    target p addr be = some l ↔ be = 0xFF ∧ addr.toNat % 8 = 0 ∧ locate p addr.toNat = some l := by
  unfold target
  by_cases hbe : be = 0xFF <;> by_cases h8 : addr.toNat % 8 = 0 <;> simp [hbe, h8]

/-- The byte address of a location; for the reserved words of a table entry, which are one location, that of the first.
It inverts `locate` (`locate_address`). -/
def Loc.address : Loc → Nat
  | .csr c => 8 * c.ctorIdx
  | .zRe i => 0x100 + 16 * i.val
  | .zIm i => 0x108 + 16 * i.val
  | .tt b f => 0x100000 + 64 * b + 8 * f.ctorIdx
  | .batch i => 0x200000 + 8 * i
  | .out b => 0x300000 + 8 * b
  | .snap b => 0x400000 + 8 * b

theorem csrBlock_address {a : Nat} {l : Loc} (h8 : a % 8 = 0) (h : csrBlock a = some l) : a = l.address := by
  unfold csrBlock at h
  split at h
  · have hi : (Fin.ofNat 8 ((a - 0x100) / 16)).val = (a - 0x100) / 16 := Nat.mod_eq_of_lt (by omega)
    split at h <;> cases h <;> simp only [Loc.address, hi] <;> omega
  · obtain ⟨c, hc, rfl⟩ := Option.map_eq_some_iff.1 h
    exact csrAt_offset hc

theorem locate_address {p : Params} {a : Nat} {l : Loc} (h8 : a % 8 = 0) (hl : ∀ b, l ≠ .tt b .reserved)
    (h : locate p a = some l) : a = l.address := by
  unfold locate at h
  split at h
  · exact csrBlock_address h8 h
  split at h
  · cases h
    have := ttFieldAt_offset fun hf => hl _ (congrArg (Loc.tt _) hf)
    simp only [Loc.address]
    omega
  · split_ifs at h <;> cases h <;> simp only [Loc.address] <;> omega

/-- Only a reserved word of TT is reached from two addresses. -/
theorem target_inj {p : Params} {a a' : BitVec 32} {be be' : BitVec 8} {l : Loc} (hl : ∀ b, l ≠ .tt b .reserved)
    (h : target p a be = some l) (h' : target p a' be' = some l) : a = a' := by
  obtain ⟨-, h8, hloc⟩ := target_eq_some_iff.1 h
  obtain ⟨-, h8', hloc'⟩ := target_eq_some_iff.1 h'
  exact BitVec.eq_of_toNat_eq ((locate_address h8 hl hloc).trans (locate_address h8' hl hloc').symm)

/-! ### An access by its target -/

theorem busRead_of_no_target {s : State} {addr : BitVec 32} {be : BitVec 8} (h : target s.params addr be = none) :
    busRead addr be s = (0, setBusErr s) := by
  simp only [busRead, h]

theorem busWrite_of_no_target {s : State} {addr : BitVec 32} {be : BitVec 8} (v : Word)
    (h : target s.params addr be = none) : busWrite addr be v s = setBusErr s := by
  simp only [busWrite, h]

/-- Settles O14: an illegal access has no target. -/
theorem illegalAccessesOnlySetBuserr : Obligations.IllegalAccessesOnlySetBuserr := by
  intro s addr be v hill
  have ht : target s.params addr be = none := by
    rw [Option.eq_none_iff_forall_ne_some]
    intro l hl
    obtain ⟨hbe, h8, hloc⟩ := target_eq_some_iff.1 hl
    obtain h | h | h := hill
    · exact h hbe
    · exact h h8
    · exact h (mapped_of_locate hloc)
  exact ⟨busRead_of_no_target ht, busWrite_of_no_target v ht⟩

section
variable {s : State} {addr : BitVec 32} {be : BitVec 8} {l : Loc}

theorem busRead_idle (hp : s.pend = none) (ht : target s.params addr be = some l) :
    busRead addr be s = (readLoc l s, s) := by
  simp [busRead, ht, busy, hp]

theorem busWrite_idle (hp : s.pend = none) (ht : target s.params addr be = some l) (v : Word) :
    busWrite addr be v s = writeLoc l v s := by
  simp [busWrite, ht, busy, hp]

theorem busRead_readable (hr : readableWhileBusy l = true) (ht : target s.params addr be = some l) :
    busRead addr be s = (readLoc l s, s) := by
  simp [busRead, ht, hr]

theorem busRead_draw {w : Word} (hp : s.pend = some w) (hr : readableWhileBusy l = false)
    (ht : target s.params addr be = some l) :
    busRead addr be s = (Config.freeDraw s.freeCount, { s with freeCount := s.freeCount + 1 }) := by
  simp [busRead, ht, busy, hp, hr]

theorem busWrite_busy {w : Word} (hp : s.pend = some w) (ht : target s.params addr be = some l) (v : Word) :
    busWrite addr be v s = writeWhileBusy l v s := by
  simp [busWrite, ht, busy, hp]

end

/-! ### Refused writes (20_memory.md R110, R111(c)) -/

theorem writeLoc_readOnly {l : Loc} (h : readOnly l = true) (v : Word) (s : State) : writeLoc l v s = setBusErr s := by
  cases l with
  | csr c =>
    cases c with
    | cmd | status | ctrl | sampleRate | pitchFork | keyCount | refKey | smoothSeconds | winSeconds | ttCount => cases h
    | _ => rfl
  | zRe | zIm | tt | batch => cases h
  | out | snap => rfl

theorem writeWhileBusy_dropped {l : Loc} (h : l ∉ [Loc.csr .cmd, .csr .status]) (v : Word) (s : State) :
    writeWhileBusy l v s = setBusErr s := by
  unfold writeWhileBusy
  split
  · exact absurd (by simp) h
  · exact absurd (by simp) h
  · rfl

theorem readableWhileBusy_iff (l : Loc) :
    readableWhileBusy l = true ↔ l ∈ [Loc.csr .id, .csr .params, .csr .status, .csr .ctrl] := by
  simp [readableWhileBusy]

/-- Settles O17, by whether a command is pending. -/
theorem legalAccessesFollowTheBusyRule : Obligations.LegalAccessesFollowTheBusyRule := by
  intro s addr v l ht
  refine ⟨fun hp => ⟨busRead_idle hp ht, fun hro => ?_⟩, fun w hp => ⟨fun hl => ?_, fun hl => ?_, fun hl => ?_⟩⟩
  · exact (busWrite_idle hp ht v).trans (writeLoc_readOnly hro v s)
  · exact busRead_readable ((readableWhileBusy_iff l).2 hl) ht
  · exact busRead_draw hp (Bool.eq_false_iff.2 (mt (readableWhileBusy_iff l).1 hl)) ht
  · exact (busWrite_busy hp ht v).trans (writeWhileBusy_dropped hl v s)

/-! ### Reading a location after an idle write to it or to another -/

/-- What a write to a storing CSR leaves: all but the configuration and TT_COUNT. -/
theorem writeCsr_frame {c : Csr} (h : storesWord (.csr c) = true) (v : Word) (s : State) :
    writeCsr c v s = { s with cfg := (writeCsr c v s).cfg, ttCount := (writeCsr c v s).ttCount } := by
  cases c with
  | sampleRate | pitchFork | keyCount | refKey | smoothSeconds | winSeconds | ttCount => rfl
  | _ => cases h

theorem readCsr_writeCsr {c : Csr} (h : storesWord (.csr c) = true) (c' : Csr) (v : Word) (s : State) :
    readCsr c' (writeCsr c v s) = if c' = c then v else readCsr c' s := by
  cases c with
  | sampleRate | pitchFork | keyCount | refKey | smoothSeconds | winSeconds | ttCount => cases c' <;> rfl
  | _ => cases h

theorem ttWord_setTTWord {f : TTField} (h : f ≠ .reserved) (f' : TTField) (v : Word) (e : TTEntry) :
    ttWord f' (setTTWord f v e) = if f' = f then v else ttWord f' e := by
  cases f with
  | reserved => exact absurd rfl h
  | _ => cases f' <;> rfl

theorem writeLoc_tt {f : TTField} (h : f ≠ .reserved) (b : Nat) (v : Word) (s : State) :
    writeLoc (.tt b f) v s =
      { s with tt := Memory.write TTEntry.reset s.tt b (setTTWord f v (Memory.read TTEntry.reset s.tt b)) } := by
  cases f with
  | reserved => exact absurd rfl h
  | _ => rfl

/-- A write to a storing location leaves the parameters and starts no command. -/
theorem writeLoc_params_pend {l : Loc} (h : storesWord l = true) (v : Word) (s : State) :
    (writeLoc l v s).params = s.params ∧ (writeLoc l v s).pend = s.pend := by
  cases l with
  | csr c =>
    show (writeCsr c v s).params = s.params ∧ (writeCsr c v s).pend = s.pend
    rw [writeCsr_frame h]
    exact ⟨rfl, rfl⟩
  | tt b f =>
    rw [writeLoc_tt (of_decide_eq_true h)]
    exact ⟨rfl, rfl⟩
  | zRe | zIm | batch => exact ⟨rfl, rfl⟩
  | out | snap => cases h

/-- Read after write: the word written at its location, and every other location as before (20_memory.md R105). -/
theorem readLoc_writeLoc {l : Loc} (h : storesWord l = true) (l' : Loc) (v : Word) (s : State) :
    readLoc l' (writeLoc l v s) = if l' = l then v else readLoc l' s := by
  cases l with
  | csr c =>
    cases l' with
    | csr c' =>
      simp only [Loc.csr.injEq]
      exact readCsr_writeCsr h c' v s
    | _ =>
      show readLoc _ (writeCsr c v s) = _
      rw [writeCsr_frame h]
      rfl
  | zRe i =>
    cases l' with
    | zRe j | zIm j =>
      simp only [readLoc, writeLoc, readZ_writeZ, Loc.zRe.injEq, reduceCtorEq]
      split <;> simp [*]
    | _ => rfl
  | zIm i =>
    cases l' with
    | zRe j | zIm j =>
      simp only [readLoc, writeLoc, readZ_writeZ, Loc.zIm.injEq, reduceCtorEq]
      split <;> simp [*]
    | _ => rfl
  | tt b f =>
    have hf : f ≠ .reserved := of_decide_eq_true h
    rw [writeLoc_tt hf]
    cases l' with
    | tt b' f' =>
      simp only [readLoc, Memory.read_write, Loc.tt.injEq]
      by_cases hb : b' = b
      · simp [hb, ttWord_setTTWord hf]
      · simp [hb]
    | _ => rfl
  | batch i =>
    cases l' with
    | batch j => simp only [readLoc, writeLoc, Memory.read_write, Loc.batch.injEq]
    | _ => rfl
  | out | snap => cases h

/-- CTRL keeps bits 1:0 of what is written; the others read 0 (10_state.md R49). -/
theorem ctrlWord_ctrlOf (v : Word) : ctrlWord (ctrlOf v) = v &&& 3 := by
  have hbit (b : Nat) : (v.getLsbD b).toNat = v.toNat / 2 ^ b % 2 := by
    rw [← BitVec.testBit_toNat, Nat.toNat_testBit]
  have hmask : (v &&& 3).toNat = v.toNat % 4 := Nat.and_two_pow_sub_one_eq_mod v.toNat 2
  apply BitVec.eq_of_toNat_eq
  simp only [ctrlWord, ctrlOf, toNat_append_eq, toNat_ofBool_eq, hbit, hmask, BitVec.toNat_ofNat]
  omega

/-- An idle write to a storing location changes what a read answers at its own address alone. -/
theorem busRead_busWrite_idle {s : State} {addr : BitVec 32} {l : Loc} (hp : s.pend = none)
    (ht : target s.params addr 0xFF = some l) (hl : storesWord l = true) (v : Word) (a : BitVec 32) (be : BitVec 8) :
    (busRead a be (busWrite addr 0xFF v s)).1 =
      if target s.params a be = some l then v else (busRead a be s).1 := by
  obtain ⟨hparams, hpend⟩ := writeLoc_params_pend hl v s
  rw [busWrite_idle hp ht]
  cases ha : target s.params a be with
  | none =>
    rw [busRead_of_no_target ha, busRead_of_no_target (hparams.symm ▸ ha)]
    rfl
  | some l' =>
    rw [busRead_idle hp ha, busRead_idle (hpend.trans hp) (hparams.symm ▸ ha)]
    simpa only [Option.some.injEq] using readLoc_writeLoc hl l' v s

/-- Settles O16: `busRead_busWrite_idle`, and that two addresses do not reach one storing location. -/
theorem writtenWordsReadBack : Obligations.WrittenWordsReadBack := by
  intro s addr v l hp ht
  refine ⟨fun hl => ⟨?same, fun a be hne => ?other⟩, ?ctrl, ?reserved⟩
  case same => rw [busRead_busWrite_idle hp ht hl, if_pos ht]
  case other =>
    have hres : ∀ b, l ≠ .tt b .reserved := by
      rintro b rfl
      cases hl
    rw [busRead_busWrite_idle hp ht hl, if_neg fun ha => hne (target_inj hres ha ht)]
  case ctrl =>
    rintro rfl
    have hw : busWrite addr 0xFF v s = { s with ctrl := ctrlOf v } := busWrite_idle hp ht v
    refine ⟨hw, ?_⟩
    rw [hw, busRead_idle (s := { s with ctrl := ctrlOf v }) hp ht]
    exact ctrlWord_ctrlOf v
  case reserved =>
    rintro b rfl
    exact ⟨busWrite_idle hp ht v, busRead_idle hp ht⟩

end Sys2Proof.Machine
end

section
/-! PROOFS. The encoding (30_encoding.md): which words decoding refuses (O3), the two round trips (O1, O2) and the
spec's example words (O4). -/

namespace Sys2Proof.Machine

open Sys2Proof.Laws.EncodeOpcode (opcode)

/-! ### Fields as numbers (30_encoding.md R142-R145) -/

theorem toNat_opcodeField (w : BitVec 32) : (opcodeField w).toNat = w.toNat % 2 ^ 8 := by
  simp [opcodeField]

theorem val_zdField (w : BitVec 32) : (zdField w).val = w.toNat / 2 ^ 8 % 2 ^ 3 := by
  simp [zdField, Nat.shiftRight_eq_div_pow]

theorem val_zaField (w : BitVec 32) : (zaField w).val = w.toNat / 2 ^ 11 % 2 ^ 3 := by
  simp [zaField, Nat.shiftRight_eq_div_pow]

theorem val_zbField (w : BitVec 32) : (zbField w).val = w.toNat / 2 ^ 14 % 2 ^ 3 := by
  simp [zbField, Nat.shiftRight_eq_div_pow]

theorem toNat_selField (w : BitVec 32) : (selField w).toNat = w.toNat / 2 ^ 11 % 2 ^ 3 := by
  simp [selField, Nat.shiftRight_eq_div_pow]

theorem toNat_imm18Field (w : BitVec 32) : (imm18Field w).toNat = w.toNat / 2 ^ 14 % 2 ^ 18 := by
  simp [imm18Field, Nat.shiftRight_eq_div_pow]

theorem toNat_imm24Field (w : BitVec 32) : (imm24Field w).toNat = w.toNat / 2 ^ 8 % 2 ^ 24 := by
  simp [imm24Field, Nat.shiftRight_eq_div_pow]

theorem toNat_formatN (opc : BitVec 8) : (formatN opc).toNat = opc.toNat :=
  (toNat_append_eq 0#24 opc).trans (by simp)

theorem toNat_formatR (opc : BitVec 8) (zd za zb : Fin 8) :
    (formatR opc zd za zb).toNat = zb.val * 2 ^ 14 + za.val * 2 ^ 11 + zd.val * 2 ^ 8 + opc.toNat := by
  simp only [formatR, toNat_append_eq, BitVec.toNat_ofFin, BitVec.toNat_ofNat]
  omega

theorem toNat_formatI (opc : BitVec 8) (zd : Fin 8) (sel : BitVec 3) (imm : BitVec 18) :
    (formatI opc zd sel imm).toNat = imm.toNat * 2 ^ 14 + sel.toNat * 2 ^ 11 + zd.val * 2 ^ 8 + opc.toNat := by
  simp only [formatI, toNat_append_eq, BitVec.toNat_ofFin]
  omega

theorem toNat_formatL (opc : BitVec 8) (imm : BitVec 24) : (formatL opc imm).toNat = imm.toNat * 2 ^ 8 + opc.toNat :=
  toNat_append_eq imm opc

/-! ### Reading back the fields of a format -/

@[simp] theorem zdField_formatR (opc : BitVec 8) (zd za zb : Fin 8) : zdField (formatR opc zd za zb) = zd := by
  apply Fin.ext
  rw [val_zdField, toNat_formatR]
  omega

@[simp] theorem zaField_formatR (opc : BitVec 8) (zd za zb : Fin 8) : zaField (formatR opc zd za zb) = za := by
  apply Fin.ext
  rw [val_zaField, toNat_formatR]
  omega

@[simp] theorem zbField_formatR (opc : BitVec 8) (zd za zb : Fin 8) : zbField (formatR opc zd za zb) = zb := by
  apply Fin.ext
  rw [val_zbField, toNat_formatR]
  omega

section
variable (opc : BitVec 8) (zd : Fin 8) (sel : BitVec 3) (imm : BitVec 18)

@[simp] theorem zdField_formatI : zdField (formatI opc zd sel imm) = zd := by
  apply Fin.ext
  rw [val_zdField, toNat_formatI]
  omega

@[simp] theorem selField_formatI : selField (formatI opc zd sel imm) = sel := by
  apply BitVec.eq_of_toNat_eq
  rw [toNat_selField, toNat_formatI]
  omega

@[simp] theorem imm18Field_formatI : imm18Field (formatI opc zd sel imm) = imm := by
  apply BitVec.eq_of_toNat_eq
  rw [toNat_imm18Field, toNat_formatI]
  omega

end

@[simp] theorem imm24Field_formatL (opc : BitVec 8) (imm : BitVec 24) : imm24Field (formatL opc imm) = imm :=
  BitVec.extractLsb'_append_eq_left

/-! ### Reserved bits (30_encoding.md R150) -/

theorem extractLsb'_eq_zero_iff {m : Nat} (w : BitVec m) (k n : Nat) :
    w.extractLsb' k n = 0 ↔ w.toNat / 2 ^ k % 2 ^ n = 0 := by
  rw [← BitVec.toNat_inj, BitVec.extractLsb'_toNat, Nat.shiftRight_eq_div_pow]
  rfl

/-- A mask of the n bits from bit k up meets a word in nothing exactly where the word's field there is 0. -/
theorem and_field_eq_zero_iff {w mask : BitVec 32} (k n : Nat)
    (hmask : ∀ j < 32, mask.getLsbD j = decide (k ≤ j ∧ j < k + n)) (hk : k + n ≤ 32) :
    w &&& mask = 0 ↔ w.toNat / 2 ^ k % 2 ^ n = 0 := by
  rw [← extractLsb'_eq_zero_iff]
  constructor
  · intro h
    apply BitVec.eq_of_getLsbD_eq
    intro i hi
    have hbit := congrArg (BitVec.getLsbD · (k + i)) h
    simpa [hmask (k + i) (by omega), hi] using hbit
  · intro h
    apply BitVec.eq_of_getLsbD_eq
    intro j hj
    have hbit := congrArg (BitVec.getLsbD · (j - k)) h
    by_cases hin : k ≤ j ∧ j < k + n
    · have hjk : k + (j - k) = j := by omega
      simpa [hmask j hj, hin, hjk, show j - k < n by omega] using hbit
    · simp [hmask j hj, hin]

/-- The mask of a row is its opcode's byte and the reserved bits; its value is the opcode. -/
theorem row_mask_value : ∀ r ∈ opcodeMap,
    r.mask = reservedBits r.opcode.toNat ||| 0xFF ∧ r.value = r.opcode.setWidth 32 ∧
      reservedBits r.opcode.toNat &&& 0xFF = 0 := by
  decide

theorem and_lowByte (w : BitVec 32) : w &&& 0xFF = (opcodeField w).setWidth 32 := by
  apply BitVec.eq_of_toNat_eq
  rw [BitVec.toNat_and, BitVec.toNat_setWidth, toNat_opcodeField]
  refine (Nat.and_two_pow_sub_one_eq_mod w.toNat 8).trans ?_
  omega

/-- A word that carries a row's opcode matches the row exactly where its reserved bits are 0. -/
theorem matches_row_iff {r : OpRow} (hr : r ∈ opcodeMap) {w : BitVec 32} (hw : opcodeField w = r.opcode) :
    w &&& r.mask = r.value ↔ w &&& reservedBits r.opcode.toNat = 0 := by
  obtain ⟨hmask, hvalue, hdisj⟩ := row_mask_value r hr
  have hlow : r.value = w &&& 0xFF := by rw [and_lowByte, hw, hvalue]
  rw [hmask, hlow, BitVec.and_or_distrib_left]
  constructor
  · intro h
    apply BitVec.eq_of_getElem_eq
    intro j hj
    have hbit := congrArg (fun x : BitVec 32 => x[j]) h
    have hdisjoint := congrArg (fun x : BitVec 32 => x[j]) hdisj
    simp only [BitVec.getElem_and, BitVec.getElem_or] at hbit hdisjoint ⊢
    grind
  · intro h
    rw [h]
    exact BitVec.zero_or

/-! ### What decoding answers (30_encoding.md R149) -/

theorem rowOf_eq_none_iff (opc : BitVec 8) : rowOf opc = none ↔ opc.toNat ∉ assignedOpcodes := by
  have hmap : assignedOpcodes = opcodeMap.map (·.opcode.toNat) := rfl
  simp [hmap, rowOf, ← BitVec.toNat_inj]

theorem mem_opcodeMap_of_rowOf {opc : BitVec 8} {r : OpRow} (h : rowOf opc = some r) :
    r ∈ opcodeMap ∧ r.opcode = opc :=
  ⟨List.mem_of_find?_eq_some h, by simpa using List.find?_some h⟩

/-- The command that a row's fields give has the row's opcode. -/
theorem opcode_instrOf {r : OpRow} (hr : r ∈ opcodeMap) (w : BitVec 32) : opcode (instrOf r.op w) = r.opcode := by
  have h : ∀ r ∈ opcodeMap, opcode (instrOf r.op 0) = r.opcode := by decide
  rw [← h r hr]
  cases r.op <;> rfl

/-- The command that a row's fields give has an encoding unless its selector is unassigned (30_encoding.md R147). -/
theorem wellFormed_instrOf_iff (op : Op) (w : BitVec 32) :
    (instrOf op w).wellFormed = true ↔
      ¬ (opcode (instrOf op w) = 0x21 ∧ ¬ binSelAssigned (selField w)) ∧
      ¬ (opcode (instrOf op w) = 0x22 ∧ ¬ maSelAssigned (selField w)) := by
  cases op <;> simp [instrOf, opcode, Instr.wellFormed]

theorem decode_of_rowOf_none {w : Word} (h : rowOf (opcodeField (w.setWidth 32)) = none) :
    decode w = .error .illegal := by
  unfold decode
  dsimp only
  rw [← BitVec.setWidth_eq_extractLsb' (by decide), h]

/-- Decoding a word with an assigned opcode: it is refused exactly where its upper half or a reserved bit is not zero or
its selector is unassigned. -/
theorem decode_of_rowOf {w : Word} {r : OpRow} (h : rowOf (opcodeField (w.setWidth 32)) = some r) :
    decode w =
      if w.toNat / 2 ^ 32 = 0 ∧ w.setWidth 32 &&& reservedBits r.opcode.toNat = 0 ∧
          (instrOf r.op (w.setWidth 32)).wellFormed = true then
        .ok (instrOf r.op (w.setWidth 32))
      else .error .reserved := by
  obtain ⟨hr, hopc⟩ := mem_opcodeMap_of_rowOf h
  have hupper : w.extractLsb' 32 32 = 0 ↔ w.toNat / 2 ^ 32 = 0 := by
    have := w.isLt
    rw [extractLsb'_eq_zero_iff]
    omega
  unfold decode
  dsimp only
  rw [← BitVec.setWidth_eq_extractLsb' (by decide), h]
  simp only [ne_eq, hupper, ← hopc, matches_row_iff hr hopc.symm, wellFormed_instrOf_iff, opcode_instrOf hr,
    ite_and, ite_not]

/-- Settles O3: a word without a row is illegal, one with a row is refused by `decode_of_rowOf`. -/
theorem decodingRefusesExactlyTheReservedWords : Obligations.DecodingRefusesExactlyTheReservedWords := by
  intro w
  have hopc : (opcodeField (w.setWidth 32)).toNat = w.toNat % 256 := by
    rw [toNat_opcodeField, BitVec.toNat_setWidth]
    omega
  have hsel : (selField (w.setWidth 32)).toNat = w.toNat / 2 ^ 11 % 8 := by
    rw [toNat_selField, BitVec.toNat_setWidth]
    omega
  have hnone := rowOf_eq_none_iff (opcodeField (w.setWidth 32))
  rw [hopc] at hnone
  cases hrow : rowOf (opcodeField (w.setWidth 32)) with
  | none =>
    have hun := hnone.1 hrow
    exact ⟨⟨fun _ => hun, fun _ => decode_of_rowOf_none hrow⟩, fun hass => absurd hass hun⟩
  | some r =>
    obtain ⟨hr, hropc⟩ := mem_opcodeMap_of_rowOf hrow
    have hass : w.toNat % 256 ∈ assignedOpcodes := by
      simpa [hrow] using hnone
    have hwf : (instrOf r.op (w.setWidth 32)).wellFormed = true ↔
        ¬ (w.toNat % 256 = 0x21 ∧ 5 < w.toNat / 2 ^ 11 % 8) ∧ ¬ (w.toNat % 256 = 0x22 ∧ 1 < w.toNat / 2 ^ 11 % 8) := by
      simp only [wellFormed_instrOf_iff, opcode_instrOf hr, hropc, ← BitVec.toNat_inj, hopc, binSelAssigned,
        maSelAssigned, hsel, Nat.not_le]
      rfl
    simp only [decode_of_rowOf hrow, hropc, hopc, hwf]
    refine ⟨?illegal, fun _ => ?reserved⟩
    case illegal => split_ifs <;> simp [hass]
    case reserved => simp only [ite_eq_right_iff, reduceCtorEq, imp_false, not_and_or, not_or, not_not, ne_eq]

/-! ### The round trips (30_encoding.md R140, R149) -/

@[simp] theorem setWidth_encode (i : Instr) : (encode i).setWidth 32 = encode32 i :=
  (BitVec.setWidth_eq_extractLsb' (by decide)).trans BitVec.extractLsb'_append_eq_right

theorem encode_of_setWidth {w : Word} {i : Instr} (hupper : w.toNat / 2 ^ 32 = 0) (h : encode32 i = w.setWidth 32) :
    encode i = w := by
  apply BitVec.eq_of_toNat_eq
  rw [encode, toNat_append_eq, h, BitVec.toNat_setWidth, BitVec.toNat_ofNat]
  omega

theorem toNat_encode_upper (i : Instr) : (encode i).toNat / 2 ^ 32 = 0 := by
  rw [encode, toNat_append_eq, BitVec.toNat_ofNat]
  omega

theorem opcodeField_encode32 (i : Instr) : opcodeField (encode32 i) = opcode i := by
  have hbyte : (encode i).extractLsb' 0 8 = opcode i := by
    cases i <;> exact (Laws.EncodeOpcode.halves _ _).1
  rw [← hbyte, ← setWidth_encode]
  exact BitVec.extractLsb'_setWidth_of_le (by decide)

/-- Every command has a row, and the row's fields of the command's word are its operands. -/
theorem exists_rowOf_opcode (i : Instr) : ∃ r, rowOf (opcode i) = some r ∧ instrOf r.op (encode32 i) = i := by
  cases i <;> exact ⟨_, rfl, by simp [instrOf, encode32]⟩

section
variable {w : BitVec 32}

/-! The masks of R150: the N format's, the R format's with two sources and with one, and RB_RD's. -/

theorem reservedN_iff : w &&& 0xFFFFFF00 = 0 ↔ w.toNat < 2 ^ 8 := by
  have := w.isLt
  rw [and_field_eq_zero_iff 8 24 (by decide) (by decide)]
  omega

theorem reservedR_iff : w &&& 0xFFFE0000 = 0 ↔ w.toNat < 2 ^ 17 := by
  have := w.isLt
  rw [and_field_eq_zero_iff 17 15 (by decide) (by decide)]
  omega

theorem reservedR_oneSource_iff : w &&& 0xFFFFC000 = 0 ↔ w.toNat < 2 ^ 14 := by
  have := w.isLt
  rw [and_field_eq_zero_iff 14 18 (by decide) (by decide)]
  omega

theorem reservedRbRd_iff : w &&& 0x00003800 = 0 ↔ selField w = 0 := by
  rw [and_field_eq_zero_iff 11 3 (by decide) (by decide), ← toNat_selField, ← BitVec.toNat_inj]
  rfl

end

/-- A command's word has its reserved bits 0. -/
theorem encode32_and_reservedBits (i : Instr) : encode32 i &&& reservedBits (opcode i).toNat = 0 := by
  cases i with
  | nop | reset | tmBuild | ssInit | snap =>
    refine reservedN_iff.2 ?_
    rw [encode32, toNat_formatN]
    decide
  | cadd zd za zb | csub zd za zb | cmul zd za zb =>
    refine reservedR_iff.2 ?_
    simp only [encode32, toNat_formatR]
    omega
  | cexp zd za | cmag zd za | tmK2f zd za =>
    refine reservedR_oneSource_iff.2 ?_
    simp only [encode32, toNat_formatR, Fin.val_zero]
    omega
  | rbRd => exact reservedRbRd_iff.2 (selField_formatI ..)
  | binRd | maRd | process => exact BitVec.and_zero

/-- Settles O1: the row of the command's opcode, and its fields read back. -/
theorem decodeOfEncodeGivesTheCommand : Obligations.DecodeOfEncodeGivesTheCommand := by
  intro i hwf
  obtain ⟨r, hrow, hfields⟩ := exists_rowOf_opcode i
  obtain ⟨-, hropc⟩ := mem_opcodeMap_of_rowOf hrow
  have hrow' : rowOf (opcodeField ((encode i).setWidth 32)) = some r := by
    rw [setWidth_encode, opcodeField_encode32, hrow]
  rw [decode_of_rowOf hrow', setWidth_encode, hropc, hfields,
    if_pos ⟨toNat_encode_upper i, encode32_and_reservedBits i, hwf⟩]

section
variable {opc : BitVec 8} {w : BitVec 32}

theorem formatN_of_fields (hopc : opcodeField w = opc) (hres : w &&& 0xFFFFFF00 = 0) : formatN opc = w := by
  have hlt := reservedN_iff.1 hres
  apply BitVec.eq_of_toNat_eq
  rw [toNat_formatN, ← hopc, toNat_opcodeField]
  omega

theorem formatR_of_fields (hopc : opcodeField w = opc) (hres : w &&& 0xFFFE0000 = 0) :
    formatR opc (zdField w) (zaField w) (zbField w) = w := by
  have hlt := reservedR_iff.1 hres
  apply BitVec.eq_of_toNat_eq
  rw [toNat_formatR, ← hopc, toNat_opcodeField, val_zdField, val_zaField, val_zbField]
  omega

theorem formatR_oneSource_of_fields (hopc : opcodeField w = opc) (hres : w &&& 0xFFFFC000 = 0) :
    formatR opc (zdField w) (zaField w) 0 = w := by
  have hlt := reservedR_oneSource_iff.1 hres
  apply BitVec.eq_of_toNat_eq
  rw [toNat_formatR, ← hopc, toNat_opcodeField, val_zdField, val_zaField, Fin.val_zero]
  omega

theorem formatI_of_fields (hopc : opcodeField w = opc) : formatI opc (zdField w) (selField w) (imm18Field w) = w := by
  have := w.isLt
  apply BitVec.eq_of_toNat_eq
  rw [toNat_formatI, ← hopc, toNat_opcodeField, val_zdField, toNat_selField, toNat_imm18Field]
  omega

theorem formatL_of_fields (hopc : opcodeField w = opc) : formatL opc (imm24Field w) = w := by
  have := w.isLt
  apply BitVec.eq_of_toNat_eq
  rw [toNat_formatL, ← hopc, toNat_opcodeField, toNat_imm24Field]
  omega

end

/-- A word whose reserved bits are 0 is the word of the command that its fields give. -/
theorem encode32_instrOf (op : Op) {w : BitVec 32} (hopc : opcodeField w = opcode (instrOf op w))
    (hres : w &&& reservedBits (opcode (instrOf op w)).toNat = 0) : encode32 (instrOf op w) = w := by
  cases op with
  | nop | reset | tmBuild | ssInit | snap => exact formatN_of_fields hopc hres
  | cadd | csub | cmul => exact formatR_of_fields hopc hres
  | cexp | cmag | tmK2f => exact formatR_oneSource_of_fields hopc hres
  | rbRd =>
    have hword := formatI_of_fields hopc
    rwa [reservedRbRd_iff.1 hres] at hword
  | binRd | maRd => exact formatI_of_fields hopc
  | process => exact formatL_of_fields hopc

/-- Settles O2: a word that decodes has a row, and by `encode32_instrOf` its fields encode to it. -/
theorem encodeOfDecodeGivesTheWord : Obligations.EncodeOfDecodeGivesTheWord := by
  intro w i hdec
  cases hrow : rowOf (opcodeField (w.setWidth 32)) with
  | none =>
    rw [decode_of_rowOf_none hrow] at hdec
    cases hdec
  | some r =>
    obtain ⟨hr, hropc⟩ := mem_opcodeMap_of_rowOf hrow
    rw [decode_of_rowOf hrow] at hdec
    split at hdec
    case isFalse => cases hdec
    case isTrue hok =>
      cases hdec
      obtain ⟨hupper, hres, hwf⟩ := hok
      rw [← opcode_instrOf hr (w.setWidth 32)] at hropc hres
      exact ⟨encode_of_setWidth hupper (encode32_instrOf r.op hropc.symm hres), hwf⟩

theorem decode_of_encode {w : Word} (i : Instr) (hwf : i.wellFormed = true) (h : encode i = w) : decode w = .ok i :=
  h ▸ decodeOfEncodeGivesTheCommand i hwf

/-- Settles O4: the accepted words are the encodings of their commands; 0x02 is unassigned, 0x4A13 has bit 14 set. -/
theorem exampleWordsDecode : Obligations.ExampleWordsDecode :=
  ⟨decode_of_encode _ rfl rfl, decode_of_encode _ rfl rfl, decode_of_encode _ rfl rfl, decode_of_encode _ rfl rfl,
    decode_of_encode _ rfl rfl, decode_of_encode _ rfl rfl, decode_of_encode _ rfl rfl, decode_of_encode _ rfl rfl,
    (decodingRefusesExactlyTheReservedWords 0x00000002).1.2 (by decide),
    ((decodingRefusesExactlyTheReservedWords 0x00004A13).2 (by decide)).2 (.inr (.inl (by decide)))⟩

end Sys2Proof.Machine
end

section
/-! PROOFS. The steps that perform no command (O6): the ENGINE's on a word that does not decode or with nothing pending,
and the HOST's. -/

namespace Sys2Proof.Machine

theorem engineStep_of_decode_error {s : State} {w : Word} {e : DecodeError} (hp : s.pend = some w)
    (hd : decode w = .error e) : engineStep s = .next (failed (decodeErrCode e) w s) := by
  have hne : decodeErrCode e ≠ .eNone := by cases e <;> decide
  simp only [engineStep, hp, decodePending, hd, complete_of_ne hne]

theorem engineStep_idle {s : State} (hp : s.pend = none) : engineStep s = .next s := by
  simp only [engineStep, hp]

/-- Where the ENGINE moves, ts being the turns that are left then, the step is its own. -/
theorem step_engine {s : State} {ts : List Turn} (h : (s.turns = [] ∧ ts = []) ∨ s.turns = .engine :: ts) :
    step s = engineStep { s with turns := ts } := by
  obtain ⟨hs, rfl⟩ | hs := h
  · simp only [step, hs]
    rw [← hs]
  · simp only [step, hs]

/-! ### What a write leaves of the model's own fields -/

/-- t has the turns to come, the last answer of the bus and the count of draws of s. -/
def SameHostRecord (s t : State) : Prop :=
  t.turns = s.turns ∧ t.busRdata = s.busRdata ∧ t.freeCount = s.freeCount

theorem setBusErr_sameHostRecord (s : State) : SameHostRecord s (setBusErr s) := ⟨rfl, rfl, rfl⟩

theorem recordError_sameHostRecord (c : ErrCode) (w : Word) (s : State) : SameHostRecord s (recordError c w s) := by
  rw [recordError_eq]
  split
  · exact ⟨rfl, rfl, rfl⟩
  · exact ⟨rfl, rfl, rfl⟩

theorem writeLoc_sameHostRecord (l : Loc) (v : Word) (s : State) : SameHostRecord s (writeLoc l v s) := by
  cases l with
  | csr c => cases c <;> exact ⟨rfl, rfl, rfl⟩
  | tt b f => cases f <;> exact ⟨rfl, rfl, rfl⟩
  | zRe | zIm | batch | out | snap => exact ⟨rfl, rfl, rfl⟩

theorem writeWhileBusy_sameHostRecord (l : Loc) (v : Word) (s : State) : SameHostRecord s (writeWhileBusy l v s) := by
  unfold writeWhileBusy
  split
  · exact recordError_sameHostRecord _ v s
  · exact ⟨rfl, rfl, rfl⟩
  · exact setBusErr_sameHostRecord s

theorem busWrite_sameHostRecord (addr : BitVec 32) (be : BitVec 8) (v : Word) (s : State) :
    SameHostRecord s (busWrite addr be v s) := by
  obtain ⟨-, h⟩ | ⟨l, -, ⟨-, h⟩ | ⟨-, h⟩⟩ := busWrite_cases addr be v s
  · exact h ▸ setBusErr_sameHostRecord s
  · exact h ▸ writeLoc_sameHostRecord l v s
  · exact h ▸ writeWhileBusy_sameHostRecord l v s

theorem busRead_turns (addr : BitVec 32) (be : BitVec 8) (s : State) : (busRead addr be s).2.turns = s.turns := by
  obtain ⟨-, h⟩ | ⟨l, -, ⟨-, h⟩ | ⟨-, -, h⟩⟩ := busRead_cases addr be s
  · rw [h, setBusErr_turns]
  · rw [h]
  · rw [h]

/-- Settles O6: an ENGINE step by `step_engine`, a HOST turn by what the access leaves. -/
theorem stepsThatPerformNoCommand : Obligations.StepsThatPerformNoCommand := by
  refine ⟨fun s ts hturn => ?engine, fun s addr be ts hs => ?read, fun s addr be v ts hs => ?write⟩
  case engine =>
    rw [step_engine hturn]
    exact ⟨fun w => engineStep_of_decode_error (s := { s with turns := ts }),
      fun w => engineStep_of_decode_error (s := { s with turns := ts }), fun hp => engineStep_idle hp⟩
  case read => exact ⟨by simp only [step, hs], busRead_turns addr be _⟩
  case write => exact ⟨by simp only [step, hs], busWrite_sameHostRecord addr be v _⟩

end Sys2Proof.Machine
end

section
/-! PROOFS. The complex arithmetic unit (40_complex_unit.md): what its commands write (O22, O23, O24, O25), and that a
magnitude has a clear sign. -/

namespace Sys2Proof.Machine

/-! ### What the commands answer (40_complex_unit.md R206-R210) -/

theorem exec_cadd (s : State) (zd za zb : Fin 8) :
    exec (.cadd zd za zb) s = .next (completed (writeZ s zd (cadd (readZ s za) (readZ s zb)))) := finish_eq _

theorem exec_csub (s : State) (zd za zb : Fin 8) :
    exec (.csub zd za zb) s = .next (completed (writeZ s zd (csub (readZ s za) (readZ s zb)))) := finish_eq _

theorem exec_cmul (s : State) (zd za zb : Fin 8) :
    exec (.cmul zd za zb) s = .next (completed (writeZ s zd (cmul (readZ s za) (readZ s zb)))) := finish_eq _

theorem exec_cexp (s : State) (zd za : Fin 8) :
    exec (.cexp zd za) s = .next (completed (writeZ s zd (cexp (readZ s za)))) := finish_eq _

theorem exec_cmag (s : State) (zd za : Fin 8) :
    exec (.cmag zd za) s = .next (completed (writeZ s zd (realC (cmag (readZ s za))))) := finish_eq _

/-- Settles O22: the state of `exec_cadd` and of `exec_csub` with R201 and R202 written out. -/
theorem caddAndCsubWriteTheirResult : Obligations.CaddAndCsubWriteTheirResult :=
  fun s zd za zb => ⟨exec_cadd s zd za zb, exec_csub s zd za zb⟩

/-- Settles O23: the state of `exec_cmul` with R203 written out. -/
theorem cmulWritesTheProduct : Obligations.CmulWritesTheProduct := exec_cmul

/-! ### The exponential at the zeros (40_complex_unit.md R204, 00_scope.md R27(a)) -/

/-- e^(±0 + 0i) is 1: the function values at the zeros leave two products of constants. -/
theorem cexp_of_isZero {x : F64} (hx : isZero x = true) : cexp ⟨x, 0⟩ = ⟨fone, 0⟩ := by
  obtain ⟨hexp, -, -, -⟩ := functions_of_isZero hx
  obtain ⟨-, hcos, hsin, -⟩ := functions_of_isZero (x := 0) (by decide +kernel)
  have hone : fmul fone fone = fone := by decide +kernel
  have hzero : fmul fone 0 = 0 := by decide +kernel
  rw [cexp, hexp, hcos, hsin, hone, hzero]

/-- Settles O24: the state of `exec_cexp` with R204 written out, and both zeros by `cexp_of_isZero`. -/
theorem cexpWritesTheExponential : Obligations.CexpWritesTheExponential :=
  ⟨exec_cexp, cexp_of_isZero (by decide +kernel), cexp_of_isZero (by decide +kernel)⟩

/-! ### Operations that keep a clear sign -/

/-- The canonical NaN has a clear sign bit too, so a clear sign needs no case for NaN results. -/
theorem fSign_qNaN : fSign qNaN = false := by decide +kernel

theorem fUnits_nonneg {x : F64} (h : fSign x = false) : 0 ≤ fUnits x := by simp [fUnits, h]

/-- A rounded square has a clear sign, whatever the sign of x. -/
theorem fSign_fmul_self (x : F64) : fSign (fmul x x) = false := by
  obtain ⟨hn, -⟩ | ⟨hn, hi, -⟩ | ⟨-, -, hf⟩ := class_cases x
  · rw [fmul_of_isNaN (.inl hn), fSign_qNaN]
  · rw [fmul_of_isInf hi hn, isZero_eq_false_of_isInf hi, bne_self_eq_false]
    exact fSign_fOfMag false (by norm_num [infMag])
  · rw [fmul_of_isFinite hf hf, bne_self_eq_false, (roundTo_sign_class _ _ _).1]

theorem fSign_fadd_of_isInf {a b : F64} (ha : isInf a = true) (hb : isNaN b = false) (hs : fSign a = false) :
    fSign (fadd a b) = false := by
  rw [fadd_of_isInf ha hb]
  split
  · exact fSign_qNaN
  · exact hs

theorem fSign_fadd_of_clear {a b : F64} (ha : fSign a = false) (hb : fSign b = false) : fSign (fadd a b) = false := by
  obtain hn | ⟨hai, hbn⟩ | ⟨haf, hbi⟩ | ⟨haf, hbf⟩ := operand_cases a b
  · rw [fadd_of_isNaN hn, fSign_qNaN]
  · exact fSign_fadd_of_isInf hai hbn ha
  · rw [fadd_comm]
    exact fSign_fadd_of_isInf hbi (isNaN_eq_false_of_isFinite haf) hb
  · rw [fadd_of_isFinite haf hbf]
    split
    · rw [ha, Bool.false_and, fSign_fOfMag false (by norm_num)]
    · rw [(roundTo_sign_class _ _ _).1, decide_eq_false_iff_not, not_lt]
      exact add_nonneg (fUnits_nonneg ha) (fUnits_nonneg hb)

theorem fsqrt_of_isInf {a : F64} (h : isInf a = true) (hs : fSign a = false) : fsqrt a = a := by
  simp [fsqrt, h, hs, isNaN_eq_false_of_isInf h]

theorem fSign_fsqrt_of_clear {a : F64} (hs : fSign a = false) : fSign (fsqrt a) = false := by
  obtain ⟨hn, -⟩ | ⟨-, hi, -⟩ | ⟨-, -, hf⟩ := class_cases a
  · rw [(unary_nan_results fsqrt (by simp) a).1 hn, fSign_qNaN]
  · rw [fsqrt_of_isInf hi hs, hs]
  · obtain ⟨-, hsign, -⟩ := fsqrt_roundsToRoot hf hs
    exact hsign

/-! ### The magnitude (40_complex_unit.md R205) -/

theorem fSign_cmag (a : C64) : fSign (cmag a) = false :=
  fSign_fsqrt_of_clear (fSign_fadd_of_clear (fSign_fmul_self a.re) (fSign_fmul_self a.im))

/-- Settles O25: a magnitude has a clear sign (`fSign_cmag`), and as a root it is NaN only canonically. -/
theorem cmagWritesTheMagnitude : Obligations.CmagWritesTheMagnitude := by
  refine ⟨exec_cmag, fun a => ?_⟩
  cases hn : isNaN (cmag a) with
  | true => exact .inl (fsqrt_nanIsCanonical _ hn)
  | false => exact .inr ⟨fSign_cmag a, rfl⟩

end Sys2Proof.Machine
end

section
/-! PROOFS. Ring buffers (41_ring_buffer.md): the capacity (O32), what a sequence of writes leaves at each offset (O33),
and RB_RD (O34). -/

namespace Sys2Proof.Machine

/-! ### The capacity (R240) -/

/-- Settles O32: a capacity is a power of two, above the requested size and at most every other power above it. -/
theorem ringCapacityIsTheLeastPowerOfTwo : Obligations.RingCapacityIsTheLeastPowerOfTwo := by
  intro r
  have hpow : ringCap r = 2 ^ Nat.log2 (ringCap r) := isPow2_ringCap r
  refine ⟨Nat.log2 (ringCap r), hpow, hpow ▸ lt_ringCap r, fun k hk => ?_⟩
  have hle : 2 ^ Nat.log2 (ringCap r) ≤ 2 ^ k := hpow ▸ ringCap_le_two_pow hk
  exact (Nat.pow_le_pow_iff_right (by decide)).1 hle

/-! ### Writes and reads (R241, R242) -/

/-- One write moves every slot up by one offset. -/
theorem readSlot_add_one (cnt cap off : Word) : readSlot (cnt + 1) cap (off + 1) = readSlot cnt cap off := by
  have h : cnt + 1 - 1 - (off + 1) = cnt - 1 - off := by bv_omega
  rw [readSlot, readSlot, h]

/-- The slot that the next write goes to is read by no offset but the capacity's last. The slot does not show that the
counter wraps at 2^64, since the capacity divides 2^64 (R244). -/
theorem readSlot_ne_writeSlot {cnt cap off : Word} (hcap : cap.toNat ∣ 2 ^ 64) (hoff : off.toNat + 1 < cap.toNat) :
    readSlot cnt cap off ≠ writeSlot cnt cap := by
  intro h
  have hsum : ((cnt - 1 - off).toNat + (off.toNat + 1)) % 2 ^ 64 = cnt.toNat := by bv_omega
  have hmod : (cnt - 1 - off).toNat + (off.toNat + 1) ≡ (cnt - 1 - off).toNat + 0 [MOD cap.toNat] :=
    calc ((cnt - 1 - off).toNat + (off.toNat + 1)) % cap.toNat
      _ = cnt.toNat % cap.toNat := by rw [← hsum, Nat.mod_mod_of_dvd _ hcap]
      _ = (cnt - 1 - off).toNat % cap.toNat := h.symm
  have hdvd : cap.toNat ∣ off.toNat + 1 := Nat.modEq_zero_iff_dvd.1 (Nat.ModEq.add_left_cancel' _ hmod)
  exact Nat.not_dvd_of_pos_of_lt (Nat.succ_pos _) hoff hdvd

/-- An offset reads after a write what the offset before it read. -/
theorem ringRead_ringWrite_add_one {r : Ring} {off : Word} (v : F64) (hcap : r.cap.toNat ∣ 2 ^ 64)
    (hoff : off.toNat + 1 < r.cap.toNat) : ringRead (ringWrite r v) (off + 1) = ringRead r off := by
  rw [ringRead, ringWrite_mem, ringWrite_wc, ringWrite_cap, readSlot_add_one,
    Memory.read_write_ne _ _ _ (readSlot_ne_writeSlot hcap hoff), ringRead]

@[simp] theorem foldl_ringWrite_cap (vs : List F64) (r : Ring) : (vs.foldl ringWrite r).cap = r.cap := by
  induction vs generalizing r with
  | nil => rfl
  | cons v vs ih => exact ih (ringWrite r v)

/-- After K writes an offset below K reads the value written that many writes before the newest, and an offset i from
K up reads what offset i - K read before them. -/
theorem ringRead_foldl_ringWrite {r : Ring} (hcap : r.cap.toNat ∣ 2 ^ 64) (vs : List F64) {i : Nat}
    (hi : i < r.cap.toNat) :
    ringRead (vs.foldl ringWrite r) (BitVec.ofNat 64 i) =
      vs.reverse[i]?.getD (ringRead r (BitVec.ofNat 64 (i - vs.length))) := by
  induction vs using List.reverseRecOn generalizing i with
  | nil => simp
  | append_singleton vs v ih =>
    rw [List.foldl_concat, List.reverse_concat, List.length_append, List.length_singleton]
    cases i with
    | zero => exact ringRead_ringWrite_zero _ v
    | succ i =>
      have hoff : (BitVec.ofNat 64 i).toNat + 1 < (vs.foldl ringWrite r).cap.toNat := by
        rw [foldl_ringWrite_cap, BitVec.toNat_ofNat]
        exact (Nat.succ_le_succ (Nat.mod_le _ _)).trans_lt hi
      have hadd : BitVec.ofNat 64 (i + 1) = BitVec.ofNat 64 i + 1 := BitVec.ofNat_add i 1
      rw [hadd, ringRead_ringWrite_add_one v (by rwa [foldl_ringWrite_cap]) hoff, ih (by omega),
        List.getElem?_cons_succ, Nat.add_sub_add_right]

/-- A ring whose slots hold their reset content reads +0.0 at every offset. -/
theorem ringRead_of_zeros {r : Ring} (hcap : 1 ≤ r.cap.toNat) (hzero : ∀ i < r.cap.toNat, Memory.read 0 r.mem i = 0)
    (off : Word) : ringRead r off = 0 := hzero _ (readSlot_lt hcap)

/-- Settles O33: `ringRead_foldl_ringWrite` at an offset below the number of writes and at one from it up, where the
fresh ring reads +0.0. -/
theorem ringReadsWhatWasWritten : Obligations.RingReadsWhatWasWritten := by
  intro m r vs hm hcap _ hzero
  have hdvd : r.cap.toNat ∣ 2 ^ 64 := hcap ▸ Nat.pow_dvd_pow 2 (hm.trans (by decide))
  rw [← hcap] at hzero ⊢
  refine ⟨fun i hi v hv => ?_, fun i hi hlen => ?_⟩
  · rw [ringRead_foldl_ringWrite hdvd vs hi, hv, Option.getD_some]
  · rw [ringRead_foldl_ringWrite hdvd vs hi, List.getElem?_eq_none (List.length_reverse.trans_le hlen),
      Option.getD_none]
    exact ringRead_of_zeros (Nat.zero_lt_of_lt hi) hzero _

/-! ### RB_RD (R247) -/

@[simp] theorem toNat_imm18 (v : BitVec 18) : (imm18 v).toNat = v.toNat :=
  BitVec.toNat_setWidth_of_le (by decide)

/-- Where there is a ring, RB_RD's check refuses the offsets from the capacity up. -/
theorem cap_sub_one_lt_imm18_iff {cap : Word} (off : BitVec 18) (hcap : 1 ≤ cap.toNat) :
    (cap - 1).toNat < (imm18 off).toNat ↔ cap.toNat ≤ off.toNat := by
  rw [toNat_imm18]
  bv_omega

theorem exec_rbRd_of_init_eq_false {s : State} (zd : Fin 8) (off : BitVec 18) (h : s.status.init = false) :
    exec (.rbRd zd off) s = .next (failed .eNotInit 0 s) := by
  show execRbRd zd off s = _
  simp [execRbRd, h, raise_eq]

theorem exec_rbRd_of_init {s : State} (zd : Fin 8) (off : BitVec 18) (hinit : s.status.init = true)
    (hcap : 1 ≤ s.rb.cap.toNat) :
    exec (.rbRd zd off) s =
      if s.rb.cap.toNat ≤ off.toNat then .next (failed .eRange (imm18 off) s)
      else .next (completed (writeZ s zd (realC (ringRead s.rb (imm18 off))))) := by
  show execRbRd zd off s = _
  simp only [execRbRd, cap_sub_one_lt_imm18_iff off hcap]
  simp [hinit, raise_eq]

/-- Settles O34: without a spectrum by `exec_rbRd_of_init_eq_false`, else by the two branches of `exec_rbRd_of_init`. -/
theorem rbRdReadsTheRing : Obligations.RbRdReadsTheRing := by
  intro s zd off
  refine ⟨fun hinit hoff => ?_, fun hinit hcap hoff => ?_, exec_rbRd_of_init_eq_false zd off⟩
  · exact (exec_rbRd_of_init zd off hinit (Nat.zero_lt_of_lt hoff)).trans (if_neg (Nat.not_le.2 hoff))
  · exact (exec_rbRd_of_init zd off hinit hcap).trans (if_pos hoff)

end Sys2Proof.Machine
end

section
/-! PROOFS. Frequency bins (42_frequency_bin.md): the update (O35), the level (O36) and BIN_RD (O37). -/

namespace Sys2Proof.Machine

/-! ### Update (R284, R285, R286) -/

/-- Settles O35: the accumulated power and the rotation of `binUpdate`, with R284 and R285 written out. -/
theorem binUpdateFollowsTheRecurrence : Obligations.BinUpdateFollowsTheRecurrence := fun _ _ _ => rfl

/-! ### Zeros, quotients and roots -/

theorem isZero_fzero : isZero fzero = true := by decide +kernel

theorem isZero_eq_false_of_isNaN {x : F64} (h : isNaN x = true) : isZero x = false := by
  rw [← Bool.not_eq_true]
  exact fun hz => by simp [isNaN_eq_false_of_isZero hz] at h

/-- Both zeros equal +0.0, and nothing else does. -/
theorem feq_fzero (x : F64) : feq x fzero = isZero x := by
  have hzero := isNaN_eq_false_of_isZero isZero_fzero
  cases hn : isNaN x with
  | true =>
    obtain ⟨-, -, hfeq⟩ := comparisons_of_nan (b := fzero) (.inl hn)
    rw [hfeq, isZero_eq_false_of_isNaN hn]
  | false => rw [Bool.eq_iff_iff, feq_iff hn hzero, fRank_eq_iff_isZero.2 isZero_fzero, fRank_eq_iff_isZero]

theorem isZero_eq_false_of_flt_fzero {x : F64} (h : flt fzero x = true) : isZero x = false := by
  rw [← Bool.not_eq_true]
  intro hz
  rw [flt_iff (isNaN_eq_false_of_isZero isZero_fzero) (isNaN_eq_false_of_isZero hz),
    fRank_eq_iff_isZero.2 isZero_fzero, fRank_eq_iff_isZero.2 hz] at h
  exact lt_irrefl _ h

theorem isFinite_of_isZero {x : F64} (h : isZero x = true) : isFinite x = true := by
  have hm : fMag x = 0 := by simpa [isZero] using h
  simp [isFinite, hm, infMag]

theorem isZero_fOfMag_zero (neg : Bool) : isZero (fOfMag neg 0) = true := by
  cases neg <;> decide +kernel

/-- A zero over a finite value that is none is a zero. -/
theorem isZero_fdiv_of_isZero {a b : F64} (ha : isZero a = true) (hb : isFinite b = true) (hz : isZero b = false) :
    isZero (fdiv a b) = true := by
  have hm : fMag a = 0 := by simpa [isZero] using ha
  rw [fdiv_of_isFinite (isFinite_of_isZero ha) hb hz, hm, magUnits_zero, Nat.zero_mul, roundTo, roundMag_zero]
  exact isZero_fOfMag_zero _

theorem fSign_fdiv_of_clear {a b : F64} (ha : fSign a = false) (hb : fSign b = false) : fSign (fdiv a b) = false := by
  have hsign (m : Nat) (h : m ≤ infMag) : fSign (fOfMag (fSign a != fSign b) m) = false := by
    rw [ha, hb, bne_self_eq_false, fSign_fOfMag _ (h.trans_lt (by norm_num [infMag]))]
  obtain hn | ⟨hai, hbn⟩ | ⟨haf, hbi⟩ | ⟨haf, hbf⟩ := operand_cases a b
  · rw [fdiv_of_isNaN hn, fSign_qNaN]
  · rw [fdiv_of_isInf_left hai hbn, apply_ite fSign, fSign_qNaN, hsign _ le_rfl, ite_self]
  · rw [fdiv_of_isInf_right (isNaN_eq_false_of_isFinite haf) hbi, apply_ite fSign, fSign_qNaN,
      hsign _ (Nat.zero_le _), ite_self]
  · cases hz : isZero b with
    | false => rw [fdiv_of_isFinite haf hbf hz]; exact hsign _ (roundMag_le _ _)
    | true => rw [fdiv_of_isZero haf hbf hz, apply_ite fSign, fSign_qNaN, hsign _ le_rfl, ite_self]

/-- Of all roots only that of -0.0 has its sign set. -/
theorem fSign_fsqrt_of_not_isZero {a : F64} (h : isZero (fsqrt a) = false) : fSign (fsqrt a) = false := by
  have hz : isZero a = false := by
    rw [← Bool.not_eq_true]
    exact fun hz => by simp [fsqrt_of_isZero hz, hz] at h
  cases hs : fSign a with
  | false => exact fSign_fsqrt_of_clear hs
  | true => rw [fsqrt_of_fSign hz hs, fSign_qNaN]

/-! ### The level (R287, R288, R289) -/

/-- The magnitude over the bands, the numerator of R287. -/
def levelNum (b : Bin) : F64 := fdiv (cmag b.dft) b.bands

/-- The root of the power over the bands, the denominator of R287. -/
def levelDen (b : Bin) : F64 := fsqrt (fdiv b.tp b.bands)

theorem level_of_silence {b : Bin} (h : feq (levelDen b) fzero = true) : level b = fzero := if_pos h

theorem level_of_sound {b : Bin} (h : feq (levelDen b) fzero = false) :
    level b = if fle (fdiv (levelNum b) (levelDen b)) fone = true then fdiv (levelNum b) (levelDen b) else fzero :=
  if_neg (Bool.eq_false_iff.1 h)

theorem isLevel_fzero : isLevel fzero := by decide +kernel

/-- R289: outside silence both terms of the ratio have a clear sign, and the guard keeps it at most 1. -/
theorem isLevel_level {b : Bin} (hb : fSign b.bands = false) : isLevel (level b) := by
  cases hden : feq (levelDen b) fzero with
  | true => rw [level_of_silence hden]; exact isLevel_fzero
  | false =>
    have hnum : fSign (levelNum b) = false := fSign_fdiv_of_clear (fSign_cmag b.dft) hb
    rw [level_of_sound hden]
    rw [feq_fzero] at hden
    split
    case isTrue hle => exact ⟨fSign_fdiv_of_clear hnum (fSign_fsqrt_of_not_isZero hden), hle⟩
    case isFalse => exact isLevel_fzero

/-- R288(a): without power the denominator is a zero. -/
theorem level_of_isZero_tp {b : Bin} (htp : isZero b.tp = true) (hf : isFinite b.bands = true)
    (hpos : flt fzero b.bands = true) : level b = fzero := by
  have hz := isZero_fdiv_of_isZero htp hf (isZero_eq_false_of_flt_fzero hpos)
  apply level_of_silence
  rwa [feq_fzero, levelDen, fsqrt_of_isZero hz]

/-- Settles O36: the two guards of R287, then `isLevel_level` and `level_of_isZero_tp`. -/
theorem levelIsZeroOrInUnitInterval : Obligations.LevelIsZeroOrInUnitInterval := by
  refine fun b => ⟨⟨level_of_silence, fun hden hle => ?_, fun hden hle => ?_⟩,
    fun hb => ⟨isLevel_level hb, level_of_isZero_tp⟩⟩
  · exact (level_of_sound hden).trans (if_pos hle)
  · exact (level_of_sound hden).trans (if_neg (Bool.eq_false_iff.1 hle))

/-! ### BIN_RD (R293) -/

theorem binSelOf_of_unassigned {sel : BitVec 3} (h : 5 < sel.toNat) : binSelOf sel = none := by
  have hsel : sel = 6 ∨ sel = 7 := by bv_omega
  rcases hsel with rfl | rfl <;> rfl

/-- The assigned selectors and what each names (30_encoding.md R147). -/
theorem exists_binSelOf_of_assigned {sel : BitVec 3} (h : sel.toNat ≤ 5) :
    ∃ item, binSelOf sel = some item ∧ ∀ b, binRead item b =
      if sel = 0 then b.dft else if sel = 1 then ⟨b.tp, 0⟩ else if sel = 2 then ⟨level b, 0⟩
      else if sel = 3 then b.coef else if sel = 4 then ⟨u2f b.k.toNat, u2f b.n.toNat⟩ else ⟨b.bands, 0⟩ := by
  have hsel : sel = 0 ∨ sel = 1 ∨ sel = 2 ∨ sel = 3 ∨ sel = 4 ∨ sel = 5 := by bv_omega
  rcases hsel with rfl | rfl | rfl | rfl | rfl | rfl
  · exact ⟨.dft, rfl, fun _ => rfl⟩
  · exact ⟨.pow, rfl, fun _ => rfl⟩
  · exact ⟨.lvl, rfl, fun _ => rfl⟩
  · exact ⟨.coef, rfl, fun _ => rfl⟩
  · exact ⟨.kn, rfl, fun _ => rfl⟩
  · exact ⟨.bands, rfl, fun _ => rfl⟩

theorem exec_binRd_of_unassigned {s : State} {w : Word} {sel : BitVec 3} (zd : Fin 8) (idx : BitVec 18)
    (hpend : s.pend = some w) (hsel : 5 < sel.toNat) :
    exec (.binRd zd sel idx) s = .next (failed .eReserved w s) := by
  show execBinRd zd sel idx s = _
  rw [execBinRd, binSelOf_of_unassigned hsel]
  exact raiseReserved_eq hpend

theorem exec_binRd_of_init_eq_false {s : State} {sel : BitVec 3} {item : BinSel} (zd : Fin 8) (idx : BitVec 18)
    (hsel : binSelOf sel = some item) (hinit : s.status.init = false) :
    exec (.binRd zd sel idx) s = .next (failed .eNotInit 0 s) := by
  show execBinRd zd sel idx s = _
  simp [execBinRd, hsel, hinit, raise_eq]

theorem exec_binRd_of_init {s : State} {sel : BitVec 3} {item : BinSel} (zd : Fin 8) (idx : BitVec 18)
    (hsel : binSelOf sel = some item) (hinit : s.status.init = true) :
    exec (.binRd zd sel idx) s =
      if s.nbins.toNat ≤ idx.toNat then .next (failed .eRange (imm18 idx) s)
      else .next (completed (writeZ s zd (binRead item (readBin s idx.toNat)))) := by
  show execBinRd zd sel idx s = _
  simp [execBinRd, hsel, hinit, raise_eq]

/-- Settles O37: an assigned selector names its item (`exists_binSelOf_of_assigned`), and the three answers are those of
`exec_binRd_of_init` and `exec_binRd_of_init_eq_false`; an unassigned one is refused first. -/
theorem binRdReadsTheBin : Obligations.BinRdReadsTheBin := by
  intro s zd sel idx
  refine ⟨fun hinit hidx hsel => ?_, fun hinit hidx hsel => ?_, fun hinit hsel => ?_,
    fun w => exec_binRd_of_unassigned zd idx⟩
  all_goals obtain ⟨item, hitem, hread⟩ := exists_binSelOf_of_assigned hsel
  · rw [exec_binRd_of_init zd idx hitem hinit, if_neg (Nat.not_le.2 hidx), hread]
    rfl
  · exact (exec_binRd_of_init zd idx hitem hinit).trans (if_pos hidx)
  · exact exec_binRd_of_init_eq_false zd idx hitem hinit

end Sys2Proof.Machine
end

section
/-! PROOFS. Rounding is monotone (00_scope.md R19), and so are subtraction, multiplication and division with one operand
fixed; then the exact results and the floors that the tuning map rests on. -/

namespace Sys2Proof.Machine

/-! ### Values between two ranks -/

theorem fRank_mod_two (x : F64) : fRank x % 2 = fMag x % 2 := by
  have := fMag_lt x
  unfold fRank
  split <;> omega

/-- The finite values are those with a rank between the infinities' ranks. -/
theorem isFinite_iff_fRank {x : F64} : isFinite x = true ↔ 2 ^ 63 - infMag < fRank x ∧ fRank x < 2 ^ 63 + infMag := by
  have := fMag_lt x
  rw [isFinite, decide_eq_true_eq]
  unfold fRank infMag
  split <;> omega

theorem exists_isFinite_fRank_eq {k : Nat} (hlo : 2 ^ 63 - infMag < k) (hhi : k < 2 ^ 63 + infMag) :
    ∃ c : F64, isFinite c = true ∧ fRank c = k := by
  have hrank : fRank (fOfRank false k) = k := by rw [fRank_fOfRank]; omega
  exact ⟨fOfRank false k, isFinite_iff_fRank.2 (by rw [hrank]; exact ⟨hlo, hhi⟩), hrank⟩

theorem fRank_bounds {x : F64} (h : isNaN x = false) : 2 ^ 63 - infMag ≤ fRank x ∧ fRank x ≤ 2 ^ 63 + infMag := by
  have := fMag_le_infMag h
  unfold fRank
  split <;> omega

theorem isNaN_eq_false_of_fle {x y : F64} (h : fle x y = true) : isNaN x = false ∧ isNaN y = false := by
  simp only [fle, Bool.and_eq_true, Bool.not_eq_true'] at h
  exact h.1

theorem flt_eq_false_of_fle {x y : F64} (h : fle x y = true) : flt y x = false := by
  obtain ⟨hx, hy⟩ := isNaN_eq_false_of_fle h
  rwa [(comparisons_of_not_nan hx hy).2.1, Bool.not_eq_true'] at h

theorem fle_eq_false_of_flt {x y : F64} (h : flt x y = true) : fle y x = false := by
  obtain ⟨hx, hy⟩ := isNaN_eq_false_of_fle (fle_of_flt h)
  rw [(comparisons_of_not_nan hy hx).2.1, h, Bool.not_true]

/-- The form in which TM_BUILD checks a lower bound. -/
theorem isNaN_or_flt_of_fle {a x : F64} (h : fle a x = true) : (isNaN x || flt x a) = false := by
  rw [(isNaN_eq_false_of_fle h).2, flt_eq_false_of_fle h, Bool.or_self]

theorem negInf_fle {x : F64} (h : isNaN x = false) : fle negInf x = true := by
  rw [fle_iff (by decide +kernel) h, fRank_negInf]
  exact (fRank_bounds h).1

theorem fle_posInf {x : F64} (h : isNaN x = false) : fle x posInf = true := by
  rw [fle_iff h (by decide +kernel), fRank_posInf]
  exact (fRank_bounds h).2

theorem eq_negInf_or_posInf_or_isFinite {x : F64} (h : isNaN x = false) :
    x = negInf ∨ x = posInf ∨ isFinite x = true := by
  obtain ⟨hn, -⟩ | ⟨-, hi, -⟩ | ⟨-, -, hf⟩ := class_cases x
  · exact absurd hn (by simp [h])
  · have hx := eq_inf_of_isInf hi
    split at hx
    · exact .inl hx
    · exact .inr (.inl hx)
  · exact .inr (.inr hf)

/-- Of two ordered values the smaller is the least there is, or the larger the greatest, or both are finite. -/
theorem cases_of_fle {x y : F64} (h : fle x y = true) :
    x = negInf ∨ y = posInf ∨ (isFinite x = true ∧ isFinite y = true) := by
  obtain ⟨hx, hy⟩ := isNaN_eq_false_of_fle h
  have hrank := (fle_iff hx hy).1 h
  obtain rfl | rfl | hxf := eq_negInf_or_posInf_or_isFinite hx
  · exact .inl rfl
  · obtain rfl | rfl | hyf := eq_negInf_or_posInf_or_isFinite hy
    · exact absurd h (by decide +kernel)
    · exact .inr (.inl rfl)
    · have := (fRank_bounds_of_isFinite hyf).2
      rw [fRank_posInf] at hrank
      omega
  · obtain rfl | rfl | hyf := eq_negInf_or_posInf_or_isFinite hy
    · have := (fRank_bounds_of_isFinite hxf).1
      rw [fRank_negInf] at hrank
      omega
    · exact .inr (.inl rfl)
    · exact .inr (.inr ⟨hxf, hyf⟩)

theorem isFinite_of_between {a x b : F64} (ha : isFinite a = true) (hb : isFinite b = true) (hax : fle a x = true)
    (hxb : fle x b = true) : isFinite x = true := by
  obtain ⟨han, hxn⟩ := isNaN_eq_false_of_fle hax
  rw [fle_iff han hxn] at hax
  rw [fle_iff hxn (isNaN_eq_false_of_isFinite hb)] at hxb
  rw [isFinite_iff_fRank] at *
  omega

/-! ### Rounding keeps the order -/

theorem IsRounding.isNaN_eq_false {r : F64} {num : Int} {den : Nat} (h : IsRounding r num den) : isNaN r = false := by
  rcases Nat.lt_or_ge num.natAbs (overflowUnits * den) with hn | hn
  · exact isNaN_eq_false_of_isFinite (h.finite hn)
  · exact isNaN_eq_false_of_isInf (h.overflow hn).1

section
variable {r r' : F64} {num num' : Int} {den : Nat}

theorem IsRounding.eq_posInf (hd : 0 < den) (h : IsRounding r num den) (ho : (overflowUnits * den : Nat) ≤ num) :
    r = posInf := by
  have hpos := overflowUnits_mul_pos hd
  obtain ⟨hinf, hsign⟩ := h.overflow (by omega)
  rw [eq_inf_of_isInf hinf, if_neg (by rw [hsign]; omega)]

theorem IsRounding.eq_negInf (hd : 0 < den) (h : IsRounding r num den) (ho : num ≤ -(overflowUnits * den : Nat)) :
    r = negInf := by
  have hpos := overflowUnits_mul_pos hd
  obtain ⟨hinf, hsign⟩ := h.overflow (by omega)
  rw [eq_inf_of_isInf hinf, if_pos (by rw [hsign]; omega)]

/-- Were the finite roundings in the wrong order, the two exact values would be equal and half way between them. Then
both patterns are even, so a value lies between them, and it is nearer. -/
theorem IsRounding.fRank_le_of_no_overflow (hd : 0 < den) (h : IsRounding r num den) (h' : IsRounding r' num' den)
    (ho : num.natAbs < overflowUnits * den) (ho' : num'.natAbs < overflowUnits * den) (hle : num ≤ num') :
    fRank r ≤ fRank r' := by
  have hscale {a b : F64} (hab : fRank a < fRank b) : fUnits a * den < fUnits b * den :=
    mul_lt_mul_of_pos_right (fRank_lt_fRank.1 hab) (by exact_mod_cast hd)
  by_contra! hlt
  have hlt' := hscale hlt
  have hnear := h.nearest ho r' (h'.finite ho')
  have hnear' := h'.nearest ho' r (h.finite ho)
  have htie : num' = num ∧ fUnits r * den + fUnits r' * den = 2 * num := by omega
  have heven := h.even ho r' (h'.finite ho') (by omega) (fRank_lt_fRank.1 hlt).ne
  have heven' := h'.even ho' r (h.finite ho) (by omega) (fRank_lt_fRank.1 hlt).ne'
  rw [← fRank_mod_two] at heven heven'
  obtain ⟨hlo, -⟩ := fRank_bounds h'.isNaN_eq_false
  obtain ⟨-, hhi⟩ := fRank_bounds h.isNaN_eq_false
  obtain ⟨c, hc, hrank⟩ := exists_isFinite_fRank_eq (k := fRank r' + 1) (by omega) (by omega)
  have hcr : fUnits c * den < fUnits r * den := hscale (by omega)
  have hrc : fUnits r' * den < fUnits c * den := hscale (by omega)
  have hnearest := h.nearest ho c hc
  omega

/-- Rounding is monotone, overflow included. -/
theorem IsRounding.fle_of_le (hd : 0 < den) (h : IsRounding r num den) (h' : IsRounding r' num' den)
    (hle : num ≤ num') : fle r r' = true := by
  by_cases hover : (overflowUnits * den : Nat) ≤ num'
  · rw [h'.eq_posInf hd hover]
    exact fle_posInf h.isNaN_eq_false
  by_cases hunder : num ≤ -(overflowUnits * den : Nat)
  · rw [h.eq_negInf hd hunder]
    exact negInf_fle h'.isNaN_eq_false
  · rw [fle_iff h.isNaN_eq_false h'.isNaN_eq_false]
    exact h.fRank_le_of_no_overflow hd h' (by omega) (by omega) hle

end

/-- An operation that rounds an exact result which does not decrease in its operand, and that keeps the infinities, is
monotone. -/
theorem fle_of_monotone_rounding {g : F64 → F64} {num : Int → Int} {den : Nat} (hd : 0 < den)
    (hneg : g negInf = negInf) (hpos : g posInf = posInf) (hmono : Monotone num)
    (hround : ∀ x, isFinite x = true → IsRounding (g x) (num (fUnits x)) den) {x y : F64} (h : fle x y = true) :
    fle (g x) (g y) = true := by
  obtain ⟨hx, hy⟩ := isNaN_eq_false_of_fle h
  have hnan {z : F64} (hz : isNaN z = false) : isNaN (g z) = false := by
    obtain rfl | rfl | hf := eq_negInf_or_posInf_or_isFinite hz
    · rwa [hneg]
    · rwa [hpos]
    · exact (hround z hf).isNaN_eq_false
  obtain rfl | rfl | ⟨hxf, hyf⟩ := cases_of_fle h
  · rw [hneg]
    exact negInf_fle (hnan hy)
  · rw [hpos]
    exact fle_posInf (hnan hx)
  · rw [fle_iff hx hy, fRank_le_fRank] at h
    exact (hround x hxf).fle_of_le hd (hround y hyf) (hmono h)

/-! ### The operations with one operand fixed -/

theorem fle_fsub_right {r x y : F64} (hr : isFinite r = true) (h : fle x y = true) :
    fle (fsub x r) (fsub y r) = true := by
  have hinf {x : F64} (hx : isInf x = true) : fsub x r = x := by
    rw [fsub_of_isInf hx (isNaN_eq_false_of_isFinite hr), isInf_eq_false_of_isFinite hr]
    simp
  exact fle_of_monotone_rounding (g := (fsub · r)) one_pos (hinf (by decide +kernel)) (hinf (by decide +kernel))
    (fun _ _ hu => sub_le_sub_right hu (fUnits r)) (fun x hx => fsub_isRounding hx hr) h

theorem isFinite_fzero : isFinite fzero = true := by decide +kernel

theorem fUnits_fzero : fUnits fzero = 0 := by decide +kernel

theorem fSign_eq_false_of_fUnits_pos {x : F64} (h : 0 < fUnits x) : fSign x = false := by
  unfold fUnits at h
  split at h
  · omega
  · simpa using ‹¬fSign x = true›

/-- A legal rate, bandwidth or pitch fork is finite and has a positive exact value. -/
theorem finitePositive_iff {x : F64} : finitePositive x ↔ isFinite x = true ∧ 0 < fUnits x := by
  have hlt (hf : isFinite x = true) : flt fzero x = true ↔ 0 < fUnits x := by
    rw [(comparisons_of_finite isFinite_fzero hf).1, fUnits_fzero]
  constructor
  · rintro ⟨hpos, hne⟩
    have hnan : isNaN x = false := (isNaN_eq_false_of_fle (fle_of_flt hpos)).2
    obtain rfl | rfl | hf := eq_negInf_or_posInf_or_isFinite hnan
    · exact absurd hpos (by decide +kernel)
    · contradiction
    · exact ⟨hf, (hlt hf).1 hpos⟩
  · rintro ⟨hf, hpos⟩
    refine ⟨(hlt hf).2 hpos, ?_⟩
    rintro rfl
    exact absurd hf (by decide +kernel)

theorem fle_fmul_left {r x y : F64} (hr : finitePositive r) (h : fle x y = true) :
    fle (fmul r x) (fmul r y) = true := by
  obtain ⟨hf, hpos⟩ := finitePositive_iff.1 hr
  have hs := fSign_eq_false_of_fUnits_pos hpos
  have hinf {x : F64} (hx : isInf x = true) : fmul r x = fOfMag (fSign x) infMag := by
    rw [fmul_comm, fmul_of_isInf hx (isNaN_eq_false_of_isFinite hf),
      if_neg (by rw [← fUnits_eq_zero]; omega), hs, Bool.bne_false]
  exact fle_of_monotone_rounding (num := (fUnits r * ·)) (by positivity)
    (hinf (by decide +kernel)) (hinf (by decide +kernel))
    (fun _ _ hu => mul_le_mul_of_nonneg_left hu hpos.le) (fun x hx => fmul_isRounding hf hx) h

theorem fle_fdiv_right {r x y : F64} (hr : finitePositive r) (h : fle x y = true) :
    fle (fdiv x r) (fdiv y r) = true := by
  obtain ⟨hf, hpos⟩ := finitePositive_iff.1 hr
  have hs := fSign_eq_false_of_fUnits_pos hpos
  have hinf {x : F64} (hx : isInf x = true) : fdiv x r = fOfMag (fSign x) infMag := by
    rw [fdiv_of_isInf_left hx (isNaN_eq_false_of_isFinite hf), isInf_eq_false_of_isFinite hf, hs, Bool.bne_false]
    rfl
  exact fle_of_monotone_rounding (g := (fdiv · r)) (num := (· * 2 ^ 1074 * (fUnits r).sign))
    (Int.natAbs_pos.2 hpos.ne') (hinf (by decide +kernel)) (hinf (by decide +kernel))
    (fun _ _ hu =>
      mul_le_mul_of_nonneg_right (mul_le_mul_of_nonneg_right hu (by positivity)) (Int.sign_nonneg_iff.2 hpos.le))
    (fun x hx => fdiv_isRounding hx hf hpos.ne') h

/-! ### Exact and finite results -/

theorem mul_two_pow_lt_overflowUnits {n e : Nat} (hn : n ≤ 2 ^ 63) (he : e ≤ 1981) : n * 2 ^ e < overflowUnits := by
  have hpos : 0 < 2 ^ 2044 := by positivity
  calc n * 2 ^ e ≤ 2 ^ 63 * 2 ^ e := Nat.mul_le_mul_right _ hn
    _ = 2 ^ (63 + e) := (Nat.pow_add 2 63 e).symm
    _ ≤ 2 ^ 2044 := Nat.pow_le_pow_right two_pos (by omega)
    _ < (2 ^ 54 - 1) * 2 ^ 2044 := by omega

theorem isFinite_i2f (w : Word) : isFinite (i2f w) = true := by
  have hw : w.toInt.natAbs ≤ 2 ^ 63 := by
    have := w.le_toInt
    have := w.toInt_lt
    omega
  apply (i2f_isRounding w).finite
  rw [natAbs_mul_two_pow, Nat.mul_one]
  exact mul_two_pow_lt_overflowUnits hw (by norm_num)

theorem fsub_self_of_isFinite {x : F64} (h : isFinite x = true) : fsub x x = fzero := by
  rw [fsub_of_zero_difference h h rfl]
  cases fSign x <;> rfl

/-- A product with 1.0 is exact, and keeps the sign of a zero and of an infinity. -/
theorem fmul_fone {x : F64} (h : isNaN x = false) : fmul x fone = x := by
  have hone : fUnits fone = 2 ^ 1074 := by decide +kernel
  obtain rfl | rfl | hf := eq_negInf_or_posInf_or_isFinite h
  · decide +kernel
  · decide +kernel
  · have h1 : isFinite fone = true := by decide +kernel
    have hsign : fSign (fmul x fone) = fSign x := by
      have hs1 : fSign fone = false := by decide +kernel
      rw [fmul_of_isFinite hf h1, (roundTo_sign_class _ _ _).1, hs1, Bool.bne_false]
    obtain ⟨-, hunits⟩ := (fmul_isRounding hf h1).exact (c := x) (by positivity) hf
      (by rw [hone, Nat.cast_pow, Nat.cast_ofNat])
    have hmag : fMag (fmul x fone) = fMag x := by
      apply magUnits_strictMono.injective
      rw [← natAbs_fUnits, hunits, natAbs_fUnits]
    rw [← fOfMag_fSign_fMag (fmul x fone), hsign, hmag, fOfMag_fSign_fMag]

/-! ### Floors of bounded values (00_scope.md R21) -/

theorem le_floorExact_iff {x : F64} {k : Int} : k ≤ floorExact x ↔ k * 2 ^ 1074 ≤ fUnits x :=
  Int.le_ediv_iff_mul_le (by positivity)

theorem floorExact_lt_iff {x : F64} {k : Int} : floorExact x < k ↔ fUnits x < k * 2 ^ 1074 :=
  Int.ediv_lt_iff_lt_mul (by positivity)

/-- Bounds that are integers bound the floor. -/
theorem floorExact_bounds_of_between {a b x : F64} {m n : Int} (ha : isFinite a = true) (hb : isFinite b = true)
    (hm : fUnits a = m * 2 ^ 1074) (hn : fUnits b = n * 2 ^ 1074) (hax : fle a x = true) (hxb : flt x b = true) :
    m ≤ floorExact x ∧ floorExact x < n := by
  have hx := isFinite_of_between ha hb hax (fle_of_flt hxb)
  rw [le_floorExact_iff, floorExact_lt_iff, ← hm, ← hn, ← (comparisons_of_finite ha hx).2.1,
    ← (comparisons_of_finite hx hb).1]
  exact ⟨hax, hxb⟩

end Sys2Proof.Machine
end

section
/-! PROOFS. Keys and frequencies (43_tuning_map.md): TM_K2F (O38) and the order of the frequencies (O39). -/

namespace Sys2Proof.Machine

/-! ### keyToFrequency at the reference key (R321) -/

theorem finitePositive_ftwelve : finitePositive ftwelve := by decide +kernel

theorem k2f_refKey {c : Cfg} (h : isNaN c.pitchFork = false) : k2f c (i2f c.refKey) = c.pitchFork := by
  have hzero : isZero (fdiv fzero ftwelve) = true := by decide +kernel
  obtain ⟨-, -, -, hexp⟩ := functions_of_isZero hzero
  rw [k2f, fsub_self_of_isFinite (isFinite_i2f _), hexp, fmul_fone h]

theorem exec_tmK2f (s : State) (zd za : Fin 8) :
    exec (.tmK2f zd za) s = .next (completed (writeZ s zd (realC (k2f s.cfg (readZ s za).re)))) := finish_eq _

/-- Settles O38: the state of `exec_tmK2f`, R320 written out, and the reference key by `k2f_refKey`. -/
theorem tmK2fWritesTheFrequency : Obligations.TmK2fWritesTheFrequency :=
  ⟨exec_tmK2f, fun _ _ => rfl, fun _ => k2f_refKey⟩

/-! ### The order of the frequencies (R328) -/

theorem fle_u2f {i j : Nat} (h : i ≤ j) : fle (u2f i) (u2f j) = true :=
  (u2f_isRounding i).fle_of_le one_pos (u2f_isRounding j)
    (mul_le_mul_of_nonneg_right (Int.ofNat_le.2 h) (by positivity))

/-- R320 is a chain of operations each of which keeps the order. -/
theorem fle_k2f {c : Cfg} (hc : finitePositive c.pitchFork) {x y : F64} (h : fle x y = true) :
    fle (k2f c x) (k2f c y) = true :=
  fle_fmul_left hc (fnExp2_mono (fle_fdiv_right finitePositive_ftwelve (fle_fsub_right (isFinite_i2f _) h)))

/-- Settles O39: the keys' numbers are in order, and `k2f` keeps it. -/
theorem keyFrequenciesDoNotDecrease : Obligations.KeyFrequenciesDoNotDecrease :=
  fun _ _ _ hc hij => fle_k2f hc (fle_u2f hij)

end Sys2Proof.Machine
end

section
/-! PROOFS. The search for the window length (43_tuning_map.md R324-R326, O40). -/

namespace Sys2Proof.Machine

theorem searchDown_of_improvement {sr f : F64} {k n : Nat} {best : F64}
    (h : flt (quantError sr f k (n + 1)) best = true) :
    searchDown sr f k (n + 2) best = search sr f k (n + 1) := if_pos h

theorem searchDown_of_no_improvement {sr f : F64} {k n : Nat} {best : F64}
    (h : flt (quantError sr f k (n + 1)) best = false) : searchDown sr f k (n + 2) best = n + 2 :=
  if_neg (Bool.eq_false_iff.1 h)

/-- r is where a search down from n stops: every length above r up to n has a greater error than the one below it, and r
has not, or is 1. -/
structure StopsAt (err : Nat → F64) (n r : Nat) : Prop where
  one_le : 1 ≤ r
  le : r ≤ n
  improves : ∀ m, r ≤ m → m < n → flt (err m) (err (m + 1)) = true
  stops : 2 ≤ r → flt (err (r - 1)) (err r) = false

theorem StopsAt.succ {err : Nat → F64} {n r : Nat} (h : StopsAt err n r) (hstep : flt (err n) (err (n + 1)) = true) :
    StopsAt err (n + 1) r where
  one_le := h.one_le
  le := Nat.le_succ_of_le h.le
  improves m hm hmn := by
    obtain hlt | rfl := Nat.lt_succ_iff_lt_or_eq.1 hmn
    · exact h.improves m hm hlt
    · exact hstep
  stops := h.stops

theorem search_stopsAt (sr f : F64) (k n : Nat) : StopsAt (quantError sr f k) (n + 1) (search sr f k (n + 1)) := by
  induction n with
  | zero =>
    exact ⟨le_rfl, le_rfl, fun m hm hmn => absurd hmn (Nat.not_lt.2 hm), fun h => absurd h (Nat.not_succ_le_self 1)⟩
  | succ n ih =>
    cases hstep : flt (quantError sr f k (n + 1)) (quantError sr f k (n + 2)) with
    | true =>
      rw [search, searchDown_of_improvement hstep]
      exact ih.succ hstep
    | false =>
      rw [search, searchDown_of_no_improvement hstep]
      exact ⟨by omega, le_rfl, fun m hm hmn => absurd hmn (Nat.not_lt.2 hm), fun _ => hstep⟩

/-- Settles O40: `search_stopsAt`, with R324's error written out. -/
theorem searchStopsAtTheFirstNonImprovement : Obligations.SearchStopsAtTheFirstNonImprovement := by
  intro sr f k n0 hn
  obtain ⟨n, rfl⟩ := Nat.exists_eq_add_of_le' hn
  obtain ⟨hone, hle, himproves, hstops⟩ := search_stopsAt sr f k n
  exact ⟨hone, hle, himproves, hstops⟩

end Sys2Proof.Machine
end

section
/-! PROOFS. TM_BUILD (43_tuning_map.md R327): the entry of a key (O41), the table (O42), where the loop stops (O43). -/

namespace Sys2Proof.Machine

/-! ### The entry of one key -/

theorem isFinite_ftwo32 : isFinite ftwo32 = true := by decide +kernel

theorem fUnits_ftwo32 : fUnits ftwo32 = 2 ^ 32 * 2 ^ 1074 := by decide +kernel

/-- The rate over the bandwidth of key j, of which N0 is the floor (43_tuning_map.md R323). -/
def keyRateRatio (c : Cfg) (j : Nat) : F64 := fdiv c.sampleRate (keyBandwidth c j)

/-- The frequency over the bandwidth of key j, of which k is the floor (43_tuning_map.md R323). -/
def keyFreqRatio (c : Cfg) (j : Nat) : F64 := fdiv (keyFreq c j) (keyBandwidth c j)

/-- The entry of key j where its checks pass (43_tuning_map.md R327). -/
def keyEntry (c : Cfg) (j : Nat) : TTEntry :=
  { key := BitVec.ofNat 64 j, freq := keyFreq c j, bw := keyBandwidth c j
    kk := BitVec.ofNat 64 (floorExact (keyFreqRatio c j)).toNat
    nn := BitVec.ofNat 64 (search c.sampleRate (keyFreq c j) (floorExact (keyFreqRatio c j)).toNat
      (floorExact (keyRateRatio c j)).toNat) }

section
variable {c : Cfg} {j : Nat}

theorem tmEntry_of_bad_bandwidth (hb : ¬finitePositive (keyBandwidth c j)) : tmEntry c j = .error .eCfgBw := by
  rw [← bwOk_iff, Bool.not_eq_true] at hb
  simp [tmEntry, hb]

/-- The loop's body after the check of the bandwidth. -/
theorem tmEntry_of_bandwidth (hb : finitePositive (keyBandwidth c j)) :
    tmEntry c j =
      if isNaN (keyRateRatio c j) || flt (keyRateRatio c j) fone then .error .eCfgN
      else if fle ftwo32 (keyRateRatio c j) then .error .eCfgRange
      else if isNaN (keyFreqRatio c j) || flt (keyFreqRatio c j) fzero || fle ftwo32 (keyFreqRatio c j) then
        .error .eCfgRange
      else .ok (keyEntry c j) := by
  rw [← bwOk_iff] at hb
  rw [tmEntry, hb]
  rfl

theorem tmEntry_of_low_rate (hb : finitePositive (keyBandwidth c j))
    (hq : isNaN (keyRateRatio c j) = true ∨ flt (keyRateRatio c j) fone = true) : tmEntry c j = .error .eCfgN := by
  rw [tmEntry_of_bandwidth hb, if_pos (by simpa using hq)]

theorem tmEntry_of_high_rate (hb : finitePositive (keyBandwidth c j)) (hq : fle fone (keyRateRatio c j) = true)
    (hq' : fle ftwo32 (keyRateRatio c j) = true) : tmEntry c j = .error .eCfgRange := by
  rw [tmEntry_of_bandwidth hb, isNaN_or_flt_of_fle hq, hq']
  rfl

section
variable (hb : finitePositive (keyBandwidth c j)) (hq : fle fone (keyRateRatio c j) = true)
  (hq' : flt (keyRateRatio c j) ftwo32 = true)
include hb hq hq'

theorem tmEntry_of_bad_frequency (hp : isNaN (keyFreqRatio c j) = true ∨ flt (keyFreqRatio c j) fzero = true ∨
    fle ftwo32 (keyFreqRatio c j) = true) : tmEntry c j = .error .eCfgRange := by
  have hp' : (isNaN (keyFreqRatio c j) || flt (keyFreqRatio c j) fzero || fle ftwo32 (keyFreqRatio c j)) = true := by
    simpa [or_assoc] using hp
  rw [tmEntry_of_bandwidth hb, isNaN_or_flt_of_fle hq, fle_eq_false_of_flt hq', hp']
  rfl

theorem tmEntry_eq_ok (hp : fle fzero (keyFreqRatio c j) = true) (hp' : flt (keyFreqRatio c j) ftwo32 = true) :
    tmEntry c j = .ok (keyEntry c j) := by
  rw [tmEntry_of_bandwidth hb, isNaN_or_flt_of_fle hq, fle_eq_false_of_flt hq', isNaN_or_flt_of_fle hp,
    fle_eq_false_of_flt hp']
  rfl

end

/-- R330: k has 32 bits, and so it stands in the entry unchanged. -/
theorem keyEntry_kk (hp : fle fzero (keyFreqRatio c j) = true) (hp' : flt (keyFreqRatio c j) ftwo32 = true) :
    ((keyEntry c j).kk.toNat : Int) = floorExact (keyFreqRatio c j) ∧ (keyEntry c j).kk.toNat ≤ 2 ^ 32 - 1 := by
  obtain ⟨hlo, hhi⟩ := floorExact_bounds_of_between isFinite_fzero isFinite_ftwo32 (m := 0)
    (by rw [fUnits_fzero, zero_mul]) fUnits_ftwo32 hp hp'
  rw [keyEntry, BitVec.toNat_ofNat]
  omega

/-- R326 and R330: N lies from 1 to N0, which has 32 bits, and so it stands in the entry unchanged. -/
theorem keyEntry_nn (hq : fle fone (keyRateRatio c j) = true) (hq' : flt (keyRateRatio c j) ftwo32 = true) :
    (keyEntry c j).nn.toNat = search c.sampleRate (keyFreq c j) (floorExact (keyFreqRatio c j)).toNat
      (floorExact (keyRateRatio c j)).toNat ∧
    1 ≤ (keyEntry c j).nn.toNat ∧ ((keyEntry c j).nn.toNat : Int) ≤ floorExact (keyRateRatio c j) ∧
    floorExact (keyRateRatio c j) ≤ 2 ^ 32 - 1 := by
  obtain ⟨hlo, hhi⟩ := floorExact_bounds_of_between (by decide +kernel) isFinite_ftwo32 (m := 1)
    (by decide +kernel) fUnits_ftwo32 hq hq'
  obtain ⟨n, hn⟩ := Nat.exists_eq_add_of_le' (Int.toNat_le_toNat hlo)
  rw [Int.toNat_one] at hn
  have hsearch := search_stopsAt c.sampleRate (keyFreq c j) (floorExact (keyFreqRatio c j)).toNat n
  have hone := hsearch.one_le
  have hle := hsearch.le
  rw [keyEntry, BitVec.toNat_ofNat, hn]
  omega

end

/-- Settles O41: the checks of R327 in their order, and the bounds of R330 for the entry they leave. -/
theorem tableEntriesFollowTheirRule : Obligations.TableEntriesFollowTheirRule := by
  intro c j hj
  refine ⟨tmEntry_of_bad_bandwidth, tmEntry_of_low_rate, tmEntry_of_high_rate, fun hb hq hq' =>
    ⟨tmEntry_of_bad_frequency hb hq hq', fun hp hp' => ?_⟩⟩
  have hkey : (keyEntry c j).key.toNat = j := Nat.mod_eq_of_lt (hj.trans (by norm_num))
  obtain ⟨hkk, hkk'⟩ := keyEntry_kk hp hp'
  obtain ⟨hnn, hone, hle, hN0⟩ := keyEntry_nn hq hq'
  refine ⟨keyEntry c j, tmEntry_eq_ok hb hq hq' hp hp', hkey, rfl, rfl, hkk, ?_, hkk', hone, hle, hN0⟩
  rw [hnn, ← hkk]
  rfl

/-! ### The command (R327) -/

theorem exec_tmBuild_of_bad_rate {s : State} (hr : ¬finitePositive s.cfg.sampleRate) :
    exec .tmBuild s = .next (failed .eCfgSr 0 s) := by
  rw [← rateOk_iff, Bool.not_eq_true] at hr
  show execTmBuild s = _
  rw [execTmBuild, hr]
  exact raise_eq (by decide) _ _

theorem exec_tmBuild_of_bad_count {s : State} (hr : finitePositive s.cfg.sampleRate)
    (hk : s.cfg.keyCount.toNat < 1 ∨ s.params.maxBins < s.cfg.keyCount.toNat) :
    exec .tmBuild s = .next (failed .eCfgKeys s.cfg.keyCount s) := by
  rw [← rateOk_iff] at hr
  show execTmBuild s = _
  rw [execTmBuild, hr, if_neg (by decide), if_pos hk]
  exact raise_eq (by decide) _ _

section
variable {s : State} (hr : finitePositive s.cfg.sampleRate) (hlo : 1 ≤ s.cfg.keyCount.toNat)
  (hhi : s.cfg.keyCount.toNat ≤ s.params.maxBins)
include hr hlo hhi

theorem exec_tmBuild_of_loop_end (hl : (tmLoop s.cfg s.cfg.keyCount.toNat 0 s.tt).2 = none) :
    exec .tmBuild s = .next (completed { s with tt := builtTable s, ttCount := s.cfg.keyCount }) := by
  rw [← rateOk_iff] at hr
  have hl' : tmLoop s.cfg s.cfg.keyCount.toNat 0 s.tt = (builtTable s, none) := Prod.ext rfl hl
  show execTmBuild s = _
  rw [execTmBuild, hr, if_neg (by decide), if_neg (by omega), hl']
  exact finish_eq _

theorem exec_tmBuild_of_loop_raise {code : ErrCode} {info : Word}
    (hl : (tmLoop s.cfg s.cfg.keyCount.toNat 0 s.tt).2 = some (code, info)) :
    exec .tmBuild s = .next (failed code info { s with tt := builtTable s }) := by
  rw [← rateOk_iff] at hr
  have hl' : tmLoop s.cfg s.cfg.keyCount.toNat 0 s.tt = (builtTable s, some (code, info)) := Prod.ext rfl hl
  show execTmBuild s = _
  rw [execTmBuild, hr, if_neg (by decide), if_neg (by omega), hl']
  exact raise_eq (tmLoop_error_ne_eNone hl) _ _

end

/-- Settles O42: no key ends the loop, so `tmLoop_spec` has every entry written. -/
theorem tmBuildWritesTheTable : Obligations.TmBuildWritesTheTable := by
  intro s hr hlo hhi hok
  obtain ⟨n, -, hwritten, hkept, ⟨hnone, rfl⟩ | ⟨hn, code, herr, -⟩⟩ := tmLoop_spec s.cfg s.cfg.keyCount.toNat 0 s.tt
  · exact ⟨builtTable s, exec_tmBuild_of_loop_end hr hlo hhi hnone,
      fun j hj => hwritten j j.zero_le (by rwa [Nat.zero_add]), fun j hj => hkept j (.inr (by rwa [Nat.zero_add]))⟩
  · obtain ⟨e, he⟩ := hok n hn
    rw [Nat.zero_add, he] at herr
    contradiction

/-- Settles O43: the loop ends neither after the first failing key, whose entry it would have, nor before it. -/
theorem tmBuildStopsAtTheFirstFailingKey : Obligations.TmBuildStopsAtTheFirstFailingKey := by
  refine fun s => ⟨exec_tmBuild_of_bad_rate, exec_tmBuild_of_bad_count, fun hr hlo hhi j hj code herr hok => ?_⟩
  obtain ⟨n, -, hwritten, hkept, hend⟩ := tmLoop_spec s.cfg s.cfg.keyCount.toNat 0 s.tt
  simp only [Nat.zero_add] at hwritten hkept hend
  have hnj : n ≤ j := by
    by_contra! hlt
    have := hwritten j j.zero_le hlt
    rw [herr] at this
    contradiction
  obtain ⟨-, rfl⟩ | ⟨-, code', herr', hraise⟩ := hend
  · omega
  obtain rfl : n = j := by
    by_contra hne
    obtain ⟨e, he⟩ := hok n (by omega)
    rw [he] at herr'
    contradiction
  obtain rfl : code' = code := by
    rw [herr] at herr'
    injection herr' with h
    exact h.symm
  exact ⟨builtTable s, exec_tmBuild_of_loop_raise hr hlo hhi hraise, fun i hi => hwritten i i.zero_le hi,
    fun i hi => hkept i (.inr hi)⟩

end Sys2Proof.Machine
end

section
/-! PROOFS. The window of the moving average (44_moving_average.md): its conversion (O44) and its ramp (O45). -/

namespace Sys2Proof.Machine

/-! ### The conversion (R361) -/

theorem compare_fzero_of_isZero {x : F64} (hz : isZero x = true) : fle x fzero = true ∧ flt x fzero = false := by
  have hx := isNaN_eq_false_of_isZero hz
  have hzero := isNaN_eq_false_of_isZero isZero_fzero
  rw [← Bool.not_eq_true, fle_iff hx hzero, flt_iff hx hzero, fRank_eq_iff_isZero.2 hz,
    fRank_eq_iff_isZero.2 isZero_fzero]
  exact ⟨le_rfl, lt_irrefl _⟩

/-- Away from the zeros and NaN, the sign tells whether a value is below +0.0. -/
theorem compare_fzero_of_not_isZero {x : F64} (hn : isNaN x = false) (hz : isZero x = false) :
    fle x fzero = fSign x ∧ flt x fzero = fSign x := by
  have hzero := isNaN_eq_false_of_isZero isZero_fzero
  have hne : fRank x ≠ 2 ^ 63 := fun h => by simp [fRank_eq_iff_isZero.1 h] at hz
  rw [Bool.eq_iff_iff, Bool.eq_iff_iff (a := flt x fzero), fle_iff hn hzero, flt_iff hn hzero,
    fRank_eq_iff_isZero.2 isZero_fzero, ← fRank_lt_iff hz]
  exact ⟨⟨fun h => lt_of_le_of_ne h hne, le_of_lt⟩, Iff.rfl⟩

theorem conv_of_isNaN {x : F64} (h : isNaN x = true) (hi : Nat) : conv x hi = (0, true) := if_pos h

theorem conv_of_fle_fzero {x : F64} (hn : isNaN x = false) (h : fle x fzero = true) (hi : Nat) :
    conv x hi = (0, flt x fzero) := by
  simp [conv, hn, h]

theorem conv_of_positive {x : F64} (hn : isNaN x = false) (h : fle x fzero = false) (hinf : x ≠ posInf) (hi : Nat) :
    conv x hi = if (roundHalfUp x).toNat ≤ hi then ((roundHalfUp x).toNat, false) else (hi, true) := by
  simp only [conv, hn, h, hinf, ← not_lt, ite_not]
  rfl

/-- The bounds of `roundHalfUp_bounds` leave one integer. -/
theorem roundHalfUp_eq_of_bounds {x : F64} {w : Int} (hlo : 2 ^ 1075 * w ≤ 2 * fUnits x + 2 ^ 1074)
    (hhi : 2 * fUnits x + 2 ^ 1074 < 2 ^ 1075 * (w + 1)) : roundHalfUp x = w := by
  rw [mul_comm (2 ^ 1075)] at hlo hhi
  have hpos : (0 : Int) < 2 ^ 1075 := by positivity
  exact le_antisymm (Int.lt_add_one_iff.1 (Int.ediv_lt_of_lt_mul hpos hhi)) (Int.le_ediv_of_mul_le hpos hlo)

/-- Settles O44: the classes of x in the order of R361's tests. -/
theorem windowConversionRoundsAndClamps : Obligations.WindowConversionRoundsAndClamps := by
  refine fun x hi => ⟨fun hn => conv_of_isNaN hn hi, fun hz => ?_, fun hn hz hs => ?_, ?_, fun hf hz hs w hlo hhi => ?_⟩
  · obtain ⟨hle, hlt⟩ := compare_fzero_of_isZero hz
    rw [conv_of_fle_fzero (isNaN_eq_false_of_isZero hz) hle, hlt]
  · obtain ⟨hle, hlt⟩ := compare_fzero_of_not_isZero hn hz
    rw [conv_of_fle_fzero hn (hle.trans hs), hlt, hs]
  · rintro rfl
    have hn : isNaN posInf = false := by decide +kernel
    have hle : fle posInf fzero = false := by decide +kernel
    simp [conv, hn, hle]
  · have hn := isNaN_eq_false_of_isFinite hf
    obtain ⟨hle, -⟩ := compare_fzero_of_not_isZero hn hz
    have hinf : x ≠ posInf := by
      rintro rfl
      exact absurd hf (by decide +kernel)
    rw [conv_of_positive hn (hle.trans hs) hinf, roundHalfUp_eq_of_bounds hlo hhi, Int.toNat_natCast]

/-! ### The ramp (R363) -/

theorem ramp_cur_of_lt {ma : MovAvg} (h : ma.cur.toNat < ma.tgt.toNat) :
    (ramp ma).cur.toNat = ma.cur.toNat + 1 := by
  rw [ramp, if_pos h]
  show (ma.cur + 1).toNat = _
  bv_omega

theorem ramp_cur_of_gt {ma : MovAvg} (h : ma.tgt.toNat < ma.cur.toNat) :
    (ramp ma).cur.toNat = ma.cur.toNat - 1 := by
  rw [ramp, if_neg h.not_gt, if_pos h]
  show (ma.cur - 1).toNat = _
  bv_omega

theorem ramp_of_eq {ma : MovAvg} (h : ma.cur = ma.tgt) : ramp ma = ma := by
  simp [ramp, h]

/-- Settles O45: `ramp_frame`, and the window by R363's comparison. -/
theorem rampMovesOneSampleTowardTheTarget : Obligations.RampMovesOneSampleTowardTheTarget :=
  fun ma => ⟨(ramp ma).cur, ramp_frame ma, ramp_cur_of_lt, ramp_cur_of_gt, fun h => congrArg MovAvg.cur (ramp_of_eq h)⟩

end Sys2Proof.Machine
end

section
/-! PROOFS. The two updates of the moving average (44_moving_average.md): Fast (O46) and Heavy (O47). -/

namespace Sys2Proof.Machine

/-! ### The Fast update (R365, R366) -/

/-- Each channel's turn finds its old sum, so the loop stores every sum as computed from the sums before it. -/
theorem foldl_fastChannel (k : Nat) (levels : Memory F64) (ma : MovAvg) :
    (List.range k).foldl (fastChannel levels) ma = { ma with
      sum := (List.range k).foldl (fun m ch => Memory.write 0 m ch
        (fastSum ma.cur (Memory.read 0 ma.sum ch) (Memory.read 0 levels ch))) ma.sum } := by
  induction k with
  | zero => rfl
  | succ k ih =>
    rw [List.range_succ, List.foldl_concat, List.foldl_concat, ih]
    simp only [fastChannel, Memory.read_foldl_write, lt_irrefl, if_false]

/-- Settles O46: `foldl_fastChannel` read channel by channel. -/
theorem fastUpdateFollowsItsFormula : Obligations.FastUpdateFollowsItsFormula := by
  intro k levels ma
  refine ⟨_, congrArg ramp (foldl_fastChannel k levels ma), fun ch hch => ?_, fun ch hch => ?_⟩
  · rw [Memory.read_foldl_write, if_pos hch, fastSum]
  · rw [Memory.read_foldl_write, if_neg hch.not_gt]

/-! ### The Heavy rings (R368) -/

theorem writeSlot_lt_two_pow (cnt cap : Word) : writeSlot cnt cap < 2 ^ 64 := (Nat.mod_le _ _).trans_lt cnt.isLt

theorem readSlot_lt_two_pow (cnt cap off : Word) : readSlot cnt cap off < 2 ^ 64 :=
  (Nat.mod_le _ _).trans_lt (cnt - 1 - off).isLt

/-- The Heavy bank after the first k channels' levels were written to their rings. -/
def heavyBank (levels : Memory F64) (ma : MovAvg) (k : Nat) : Memory F64 :=
  (List.range k).foldl
    (fun h ch => Memory.write 0 h (hIndex ch (writeSlot ma.hwc ma.cap)) (Memory.read 0 levels ch)) ma.h

theorem heavyBank_succ (levels : Memory F64) (ma : MovAvg) (k : Nat) :
    heavyBank levels ma (k + 1) =
      Memory.write 0 (heavyBank levels ma k) (hIndex k (writeSlot ma.hwc ma.cap)) (Memory.read 0 levels k) := by
  rw [heavyBank, List.range_succ, List.foldl_concat, heavyBank]

theorem read_heavyBank (levels : Memory F64) (ma : MovAvg) (k ch : Nat) {slot : Nat} (hslot : slot < 2 ^ 64) :
    Memory.read 0 (heavyBank levels ma k) (hIndex ch slot) =
      if ch < k ∧ slot = writeSlot ma.hwc ma.cap then Memory.read 0 levels ch
      else Memory.read 0 ma.h (hIndex ch slot) := by
  induction k with
  | zero => simp [heavyBank]
  | succ k ih =>
    simp only [heavyBank_succ, Memory.read_write, hIndex_inj hslot (writeSlot_lt_two_pow _ _), ih,
      Nat.lt_succ_iff_lt_or_eq]
    by_cases hch : ch = k
    · subst hch
      by_cases hs : slot = writeSlot ma.hwc ma.cap <;> simp [hs]
    · simp [hch]

/-- Once a channel's level is written, the levels of the channels after it leave its ring alone. -/
theorem read_heavyBank_of_lt (levels : Memory F64) (ma : MovAvg) {k ch : Nat} (hch : ch < k) {slot : Nat}
    (hslot : slot < 2 ^ 64) :
    Memory.read 0 (heavyBank levels ma (ch + 1)) (hIndex ch slot) =
      Memory.read 0 (heavyBank levels ma k) (hIndex ch slot) := by
  rw [read_heavyBank _ _ _ _ hslot, read_heavyBank _ _ _ _ hslot]
  simp only [hch, Nat.lt_succ_self]

/-! ### The Heavy sums (R368) -/

/-- A channel's new sum depends on its own old sum and its own ring alone. -/
theorem heavySum_congr {ma : MovAvg} {sum h h' : Memory F64} {ch : Nat}
    (hsum : Memory.read 0 sum ch = Memory.read 0 ma.sum ch)
    (hring : ∀ slot < 2 ^ 64, Memory.read 0 h (hIndex ch slot) = Memory.read 0 h' (hIndex ch slot)) (l : F64) :
    heavySum { ma with sum := sum, h := h } ch l = heavySum { ma with h := h' } ch l := by
  simp only [heavySum, hread, hsum, hring _ (readSlot_lt_two_pow _ _ _)]

/-- The new sum of channel ch, its trailing values read in the bank that holds every one of the k new levels. -/
def heavyNewSum (levels : Memory F64) (ma : MovAvg) (k ch : Nat) : F64 :=
  heavySum { ma with h := heavyBank levels ma k } ch (Memory.read 0 levels ch)

/-- The state that a Heavy update of k channels ramps. -/
def heavyWritten (k : Nat) (levels : Memory F64) (ma : MovAvg) : MovAvg :=
  { ma with
    sum := (List.range k).foldl (fun m ch => Memory.write 0 m ch (heavyNewSum levels ma (ch + 1) ch)) ma.sum
    h := heavyBank levels ma k
    hwc := ma.hwc + 1 }

theorem foldl_heavyChannel (k : Nat) (levels : Memory F64) (ma : MovAvg) :
    (List.range k).foldl (heavyChannel levels) ma = { heavyWritten k levels ma with hwc := ma.hwc } := by
  induction k with
  | zero => rfl
  | succ k ih =>
    rw [List.range_succ, List.foldl_concat, ih]
    simp only [heavyChannel, heavyWritten, List.range_succ, List.foldl_concat, ← heavyBank_succ]
    rw [heavySum_congr (h' := heavyBank levels ma (k + 1)) _ fun _ _ => rfl]
    · rfl
    · rw [Memory.read_foldl_write, if_neg (lt_irrefl k)]

theorem heavyUpdate_eq (k : Nat) (levels : Memory F64) (ma : MovAvg) :
    heavyUpdate k levels ma = ramp (heavyWritten k levels ma) := by
  rw [heavyUpdate, foldl_heavyChannel]
  rfl

theorem read_heavyWritten_sum (k : Nat) (levels : Memory F64) (ma : MovAvg) (ch : Nat) :
    Memory.read 0 (heavyWritten k levels ma).sum ch =
      if ch < k then heavyNewSum levels ma k ch else Memory.read 0 ma.sum ch := by
  rw [heavyWritten, Memory.read_foldl_write]
  refine ite_congr rfl (fun hch => ?_) fun _ => rfl
  exact heavySum_congr rfl (fun slot => read_heavyBank_of_lt levels ma hch) _

/-- R368's offset: behind the write, the counter and the 1 of `read` cancel. -/
theorem readSlot_add_one_counter (cnt cap off : Word) : readSlot (cnt + 1) cap off = (cnt - off).toNat % cap.toNat := by
  rw [readSlot, BitVec.add_sub_cancel]

/-- Settles O47: `heavyUpdate_eq` with the reads of its rings and of its sums. -/
theorem heavyUpdateFollowsItsFormula : Obligations.HeavyUpdateFollowsItsFormula := by
  intro k levels ma _
  refine ⟨(heavyWritten k levels ma).sum, heavyBank levels ma k, heavyUpdate_eq k levels ma,
    fun ch slot => read_heavyBank levels ma k ch, fun ch hch => ?_, fun ch hch => ?_⟩
  · rw [read_heavyWritten_sum, if_pos hch]
    simp only [heavyNewSum, heavySum, hread, readSlot_add_one_counter]
  · rw [read_heavyWritten_sum, if_neg hch.not_gt]

end Sys2Proof.Machine
end

section
/-! PROOFS. Heavy sums are exact where the levels are multiples of 2^-20 in [0, 1] (44_moving_average.md R369, O48). -/

namespace Sys2Proof.Machine

/-! ### Multiples of 2^-20 -/

/-- v, in units of 2^-1074, is a multiple of 2^-20 in [0, n]: the sum of n values of the grid. -/
def GridSum (n : Nat) (v : Int) : Prop := ∃ m : Nat, m ≤ n * 2 ^ 20 ∧ v = m * 2 ^ 1054

theorem gridSum_zero : GridSum 0 0 := ⟨0, Nat.zero_le _, by rw [Nat.cast_zero, zero_mul]⟩

theorem GridSum.add {m n : Nat} {v w : Int} (hv : GridSum m v) (hw : GridSum n w) : GridSum (m + n) (v + w) := by
  obtain ⟨i, hi, rfl⟩ := hv
  obtain ⟨j, hj, rfl⟩ := hw
  exact ⟨i + j, by omega, by rw [Nat.cast_add, add_mul]⟩

theorem onGrid_gridSum {x : F64} (h : onGrid x) : GridSum 1 (fUnits x) := by
  obtain ⟨-, hlo, hhi, k, hk⟩ := h
  have hpos : (0 : Int) < 2 ^ 1054 := by positivity
  have hone : (2 : Int) ^ 1074 = 2 ^ 1054 * 2 ^ 20 := by rw [← pow_add]
  rw [hk] at hlo hhi
  rw [hone] at hhi
  have hk0 : 0 ≤ k := nonneg_of_mul_nonneg_right hlo hpos
  have hk1 : k ≤ 2 ^ 20 := le_of_mul_le_mul_left hhi hpos
  exact ⟨k.toNat, by omega, by rw [Int.toNat_of_nonneg hk0, hk, mul_comm]⟩

/-- x is finite, and its exact value is v units of 2^-1074. -/
def IsExactly (x : F64) (v : Int) : Prop := isFinite x = true ∧ fUnits x = v

/-- Sums of up to 2^32 values of the grid have at most 53 bits, so rounding leaves them. -/
theorem IsRounding.isExactly {r : F64} {n : Nat} {v : Int} (hn : n ≤ 2 ^ 32) (hv : GridSum n v)
    (h : IsRounding r v 1) : IsExactly r v := by
  obtain ⟨m, hm, rfl⟩ := hv
  obtain ⟨c, hc, hunits⟩ := exists_fUnits_eq (e := 1054) (k := m) (by omega) (by norm_num)
  obtain ⟨hfin, hr⟩ := h.exact one_pos hc (by rw [hunits, Nat.cast_one, mul_one])
  exact ⟨hfin, hr.trans hunits⟩

theorem isExactly_fadd {a b : F64} {n : Nat} {u v : Int} (hn : n ≤ 2 ^ 32) (ha : IsExactly a u) (hb : IsExactly b v)
    (hsum : GridSum n (u + v)) : IsExactly (fadd a b) (u + v) := by
  obtain ⟨hfa, rfl⟩ := ha
  obtain ⟨hfb, rfl⟩ := hb
  exact (fadd_isRounding hfa hfb).isExactly hn hsum

/-- What was added is subtracted again without rounding. -/
theorem isExactly_fsub {a b : F64} {n : Nat} {v : Int} (hn : n ≤ 2 ^ 32) (ha : IsExactly a (v + fUnits b))
    (hb : isFinite b = true) (hv : GridSum n v) : IsExactly (fsub a b) v := by
  obtain ⟨hfa, hunits⟩ := ha
  have h := fsub_isRounding hfa hb
  rw [hunits, add_sub_cancel_right] at h
  exact h.isExactly hn hv

/-! ### The newest values of a channel ring -/

/-- The value at offset i of channel ch's ring: i updates came after the one that wrote it. -/
def newest (ma : MovAvg) (ch i : Nat) : F64 :=
  Memory.read 0 ma.h (hIndex ch (readSlot ma.hwc ma.cap (BitVec.ofNat 64 i)))

/-- The exact sum of the n newest values of channel ch. -/
def newestSum (ma : MovAvg) (ch n : Nat) : Int := ((List.range n).map (fun i => fUnits (newest ma ch i))).sum

theorem newestSum_succ (ma : MovAvg) (ch n : Nat) :
    newestSum ma ch (n + 1) = newestSum ma ch n + fUnits (newest ma ch n) := by
  simp [newestSum, List.range_succ]

/-- The ramp moves the window alone: the sum is to be that of the window it leaves. -/
theorem sumIsExact_ramp_iff (ma : MovAvg) (ch : Nat) :
    sumIsExact (ramp ma) ch ↔ IsExactly (Memory.read 0 ma.sum ch) (newestSum ma ch (ramp ma).cur.toNat) := by
  rw [ramp_frame]
  rfl

/-- Every slot of channel ch's ring holds a value of the grid. -/
def RingOnGrid (ma : MovAvg) (ch : Nat) : Prop :=
  ∀ slot < ma.cap.toNat, onGrid (Memory.read 0 ma.h (hIndex ch slot))

theorem RingOnGrid.onGrid_newest {ma : MovAvg} {ch : Nat} (hcap : 1 ≤ ma.cap.toNat) (h : RingOnGrid ma ch) (i : Nat) :
    onGrid (newest ma ch i) := h _ (readSlot_lt hcap)

theorem RingOnGrid.gridSum_newestSum {ma : MovAvg} {ch : Nat} (hcap : 1 ≤ ma.cap.toNat) (h : RingOnGrid ma ch)
    (n : Nat) : GridSum n (newestSum ma ch n) := by
  induction n with
  | zero => exact gridSum_zero
  | succ n ih => exact newestSum_succ ma ch n ▸ ih.add (onGrid_gridSum (h.onGrid_newest hcap n))

/-- Of a sum of up to 2^32 newest values the oldest is taken off without rounding. -/
theorem RingOnGrid.fsub_oldest {ma : MovAvg} {ch n : Nat} {a : F64} (hcap : 1 ≤ ma.cap.toNat) (h : RingOnGrid ma ch)
    (hn : n ≤ 2 ^ 32) (ha : IsExactly a (newestSum ma ch (n + 1))) :
    IsExactly (fsub a (newest ma ch n)) (newestSum ma ch n) := by
  rw [newestSum_succ] at ha
  obtain ⟨hfin, -⟩ := h.onGrid_newest hcap n
  exact isExactly_fsub hn ha hfin (h.gridSum_newestSum hcap n)

/-! ### One update -/

/-- A legal capacity divides the counter's range, so the wrapped counter keeps the slots in order (R244). -/
theorem dvd_two_pow_of_isPow2 {n : Nat} (h : isPow2 n) (hle : n ≤ 2 ^ 32) : n ∣ 2 ^ 64 := by
  rw [h] at hle ⊢
  exact Nat.pow_dvd_pow 2 (((Nat.pow_le_pow_iff_right (by decide)).1 hle).trans (by decide))

section
variable {k : Nat} {levels : Memory F64} {ma : MovAvg} {ch : Nat}

theorem heavyWritten_ringOnGrid (hlevel : onGrid (Memory.read 0 levels ch)) (hring : RingOnGrid ma ch) :
    RingOnGrid (heavyWritten k levels ma) ch := by
  intro slot hslot
  show onGrid (Memory.read 0 (heavyBank levels ma k) (hIndex ch slot))
  rw [read_heavyBank levels ma k ch (hslot.trans ma.cap.isLt)]
  split
  · exact hlevel
  · exact hring slot hslot

theorem newest_heavyWritten_zero (hch : ch < k) : newest (heavyWritten k levels ma) ch 0 = Memory.read 0 levels ch := by
  have hslot : readSlot (ma.hwc + 1) ma.cap 0 = writeSlot ma.hwc ma.cap := by
    rw [readSlot_add_one_counter, writeSlot]
    simp
  show Memory.read 0 (heavyBank levels ma k) (hIndex ch (readSlot (ma.hwc + 1) ma.cap 0)) = _
  rw [hslot, read_heavyBank _ _ _ _ (writeSlot_lt_two_pow _ _), if_pos ⟨hch, rfl⟩]

/-- An update moves every value up by one offset. -/
theorem newest_heavyWritten_succ (hcap : ma.cap.toNat ∣ 2 ^ 64) {i : Nat} (hi : i + 1 < ma.cap.toNat) :
    newest (heavyWritten k levels ma) ch (i + 1) = newest ma ch i := by
  have hlt : (BitVec.ofNat 64 i).toNat + 1 < ma.cap.toNat := by
    rw [BitVec.toNat_ofNat]
    exact (Nat.succ_le_succ (Nat.mod_le _ _)).trans_lt hi
  have hslot : readSlot (ma.hwc + 1) ma.cap (BitVec.ofNat 64 (i + 1)) =
      readSlot ma.hwc ma.cap (BitVec.ofNat 64 i) := by
    rw [BitVec.ofNat_add]
    exact readSlot_add_one _ _ _
  show Memory.read 0 (heavyBank levels ma k) (hIndex ch (readSlot (ma.hwc + 1) ma.cap (BitVec.ofNat 64 (i + 1)))) = _
  rw [hslot, read_heavyBank _ _ _ _ (readSlot_lt_two_pow _ _ _), if_neg fun h => readSlot_ne_writeSlot hcap hlt h.2]
  rfl

/-- The new level and the old window are the window one longer. -/
theorem newestSum_heavyWritten_succ (hch : ch < k) (hcap : ma.cap.toNat ∣ 2 ^ 64) {n : Nat} (hn : n < ma.cap.toNat) :
    newestSum (heavyWritten k levels ma) ch (n + 1) = fUnits (Memory.read 0 levels ch) + newestSum ma ch n := by
  induction n with
  | zero => simp [newestSum, newest_heavyWritten_zero hch]
  | succ n ih =>
    rw [newestSum_succ, ih (Nat.lt_of_succ_lt hn), newest_heavyWritten_succ hcap hn, newestSum_succ ma, add_assoc]

theorem hread_heavyBank (off : Word) :
    hread { ma with h := heavyBank levels ma k } ch off = newest (heavyWritten k levels ma) ch off.toNat := by
  rw [newest, BitVec.ofNat_toNat, BitVec.setWidth_eq]
  rfl

theorem heavyNewSum_growing (h : ma.cur.toNat < ma.tgt.toNat) :
    heavyNewSum levels ma k ch = fadd (Memory.read 0 ma.sum ch) (Memory.read 0 levels ch) := by
  have hne : ma.tgt ≠ ma.cur := by bv_omega
  simp only [heavyNewSum, heavySum, if_neg hne, if_neg h.not_gt]

theorem heavyNewSum_steady (h : ma.tgt = ma.cur) :
    heavyNewSum levels ma k ch = fsub (fadd (Memory.read 0 ma.sum ch) (Memory.read 0 levels ch))
      (newest (heavyWritten k levels ma) ch ma.cur.toNat) := by
  simp only [heavyNewSum, heavySum, if_pos h, hread_heavyBank]

theorem heavyNewSum_shrinking {w : Nat} (h : ma.tgt.toNat < ma.cur.toNat) (hw : ma.cur.toNat = w + 1) :
    heavyNewSum levels ma k ch = fsub (fsub (fadd (Memory.read 0 ma.sum ch) (Memory.read 0 levels ch))
      (newest (heavyWritten k levels ma) ch (w + 1))) (newest (heavyWritten k levels ma) ch w) := by
  have hne : ma.tgt ≠ ma.cur := by bv_omega
  have hpred : (ma.cur - 1).toNat = w := by bv_omega
  simp only [heavyNewSum, heavySum, if_neg hne, if_pos h, hread_heavyBank, hpred]
  rw [hw]

end

/-- Settles O48: with the new level the sum is that of a window one longer, of which the steady case takes the oldest
value off and the shrinking case the two oldest; the ramp leaves the window of what remains. -/
theorem heavySumsStayExact : Obligations.HeavySumsStayExact := by
  intro k levels ma ch hch hcur htgt hwmax hpow hcap hlevel hring hsum
  have hdvd : ma.cap.toNat ∣ 2 ^ 64 := dvd_two_pow_of_isPow2 hpow hcap
  have hcap1 : 1 ≤ (heavyWritten k levels ma).cap.toNat := one_le_of_isPow2 hpow
  have hgrid : RingOnGrid (heavyWritten k levels ma) ch := heavyWritten_ringOnGrid hlevel hring
  have hadded : IsExactly (fadd (Memory.read 0 ma.sum ch) (Memory.read 0 levels ch))
      (newestSum (heavyWritten k levels ma) ch (ma.cur.toNat + 1)) := by
    have hG := hgrid.gridSum_newestSum hcap1 (ma.cur.toNat + 1)
    rw [newestSum_heavyWritten_succ hch hdvd (by omega), add_comm (fUnits _)] at hG ⊢
    exact isExactly_fadd (by omega) hsum ⟨hlevel.1, rfl⟩ hG
  rw [heavyUpdate_eq, sumIsExact_ramp_iff, read_heavyWritten_sum, if_pos hch]
  refine ⟨?_, by rw [ramp_frame]; exact hgrid⟩
  rcases lt_trichotomy ma.cur.toNat ma.tgt.toNat with h | h | h
  case inl =>
    have hramp : (ramp (heavyWritten k levels ma)).cur.toNat = ma.cur.toNat + 1 := ramp_cur_of_lt h
    rwa [heavyNewSum_growing h, hramp]
  case inr.inl =>
    have heq : ma.cur = ma.tgt := BitVec.eq_of_toNat_eq h
    have hramp : ramp (heavyWritten k levels ma) = heavyWritten k levels ma := ramp_of_eq heq
    rw [heavyNewSum_steady heq.symm, hramp]
    exact hgrid.fsub_oldest hcap1 (by omega) hadded
  case inr.inr =>
    obtain ⟨w, hw⟩ : ∃ w, ma.cur.toNat = w + 1 := ⟨ma.cur.toNat - 1, by omega⟩
    have hramp : (ramp (heavyWritten k levels ma)).cur.toNat = ma.cur.toNat - 1 := ramp_cur_of_gt h
    rw [hw] at hadded hramp
    rw [heavyNewSum_shrinking h hw, hramp]
    exact hgrid.fsub_oldest hcap1 (by omega) (hgrid.fsub_oldest hcap1 (by omega) hadded)

end Sys2Proof.Machine
end

section
/-! PROOFS. MA_RD (44_moving_average.md R370, R371; O49). -/

namespace Sys2Proof.Machine

theorem maSelOf_of_unassigned {sel : BitVec 3} (h : 1 < sel.toNat) : maSelOf sel = none := by
  unfold maSelOf
  split
  · omega
  · omega
  · rfl

theorem exists_maSelOf_of_assigned {sel : BitVec 3} (h : sel.toNat ≤ 1) : ∃ item, maSelOf sel = some item := by
  obtain rfl | rfl : sel = 0 ∨ sel = 1 := by bv_omega
  · exact ⟨.avg, rfl⟩
  · exact ⟨.sum, rfl⟩

theorem exec_maRd (zd : Fin 8) (sel : BitVec 3) (ch : BitVec 18) (s : State) :
    exec (.maRd zd sel ch) s = execMaRd zd sel ch s := rfl

theorem exec_maRd_of_unassigned {s : State} {w : Word} {sel : BitVec 3} (zd : Fin 8) (ch : BitVec 18)
    (hpend : s.pend = some w) (hsel : 1 < sel.toNat) :
    exec (.maRd zd sel ch) s = .next (failed .eReserved w s) := by
  rw [exec_maRd, execMaRd, maSelOf_of_unassigned hsel]
  exact raiseReserved_eq hpend

/-! The checks of an assigned selector, in R370's order. -/

section
variable {s : State} {ch : BitVec 18}

theorem exec_maRd_of_init_eq_false {sel : BitVec 3} (zd : Fin 8) (hsel : sel.toNat ≤ 1)
    (hinit : s.status.init = false) : exec (.maRd zd sel ch) s = .next (failed .eNotInit 0 s) := by
  obtain ⟨item, hitem⟩ := exists_maSelOf_of_assigned hsel
  simp [exec_maRd, execMaRd, hitem, hinit, raise_eq]

theorem exec_maRd_of_off {sel : BitVec 3} (zd : Fin 8) (hsel : sel.toNat ≤ 1) (hinit : s.status.init = true)
    (hmode : s.ma.mode = .off) : exec (.maRd zd sel ch) s = .next (failed .eNoSmooth 0 s) := by
  obtain ⟨item, hitem⟩ := exists_maSelOf_of_assigned hsel
  simp [exec_maRd, execMaRd, hitem, hinit, hmode, raise_eq]

theorem exec_maRd_of_beyond {sel : BitVec 3} (zd : Fin 8) (hsel : sel.toNat ≤ 1) (hinit : s.status.init = true)
    (hmode : s.ma.mode ≠ .off) (hch : s.nbins.toNat ≤ ch.toNat) :
    exec (.maRd zd sel ch) s = .next (failed .eRange (imm18 ch) s) := by
  obtain ⟨item, hitem⟩ := exists_maSelOf_of_assigned hsel
  simp [exec_maRd, execMaRd, hitem, hinit, hmode, hch, raise_eq]

theorem exec_maRd_avg {sel : BitVec 3} (zd : Fin 8) (hsel : maSelOf sel = some .avg) (hinit : s.status.init = true)
    (hmode : s.ma.mode ≠ .off) (hch : ch.toNat < s.nbins.toNat) :
    exec (.maRd zd sel ch) s =
      if s.ma.cur = 0 then .next (failed .eMaZero (imm18 ch) s)
      else .next (completed (writeZ s zd (realC (maRead s.ma ch.toNat)))) := by
  simp [exec_maRd, execMaRd, hsel, hinit, hmode, hch.not_ge, raise_eq]

theorem exec_maRd_sum {sel : BitVec 3} (zd : Fin 8) (hsel : maSelOf sel = some .sum) (hinit : s.status.init = true)
    (hmode : s.ma.mode ≠ .off) (hch : ch.toNat < s.nbins.toNat) :
    exec (.maRd zd sel ch) s = .next (completed (writeZ s zd (realC (Memory.read 0 s.ma.sum ch.toNat)))) := by
  simp [exec_maRd, execMaRd, hsel, hinit, hmode, hch.not_ge]

end

/-- Settles O49: the average or the sum of a live channel, then the checks that refuse the others. -/
theorem maRdReadsTheAverage : Obligations.MaRdReadsTheAverage := by
  intro s zd sel ch
  refine ⟨fun hinit hmode hch => ⟨fun hcur => ?_, fun hcur => ?_, exec_maRd_sum zd rfl hinit hmode hch⟩,
    fun hinit hmode hch hsel => exec_maRd_of_beyond zd hsel hinit hmode hch,
    fun hinit hmode hsel => exec_maRd_of_off zd hsel hinit hmode,
    fun hinit hsel => exec_maRd_of_init_eq_false zd hsel hinit, fun w => exec_maRd_of_unassigned zd ch⟩
  · exact (exec_maRd_avg zd rfl hinit hmode hch).trans (if_neg hcur)
  · exact (exec_maRd_avg zd rfl hinit hmode hch).trans (if_pos hcur)

end Sys2Proof.Machine
end

section
/-! PROOFS. SS_INIT (45_sliding_spectrum.md R400-R404): the error of a configuration that fails a check (O51), and the
spectrum that is constructed where every check passes (O50). -/

namespace Sys2Proof.Machine

/-! ### The two ends of the command (R400) -/

theorem exec_ssInit_of_error {s : State} {code : ErrCode} {info : Word} (h : validate s = .error (code, info)) :
    exec .ssInit s = .next (failed code info s) := by
  show execSsInit s = _
  rw [execSsInit, h]
  exact raise_eq (validate_error_ne_eNone h) info s

theorem exec_ssInit_of_plan {s : State} {p : Plan} (h : validate s = .ok p) :
    exec .ssInit s = .next (completed (construct p s)) := by
  show execSsInit s = _
  rw [execSsInit, h]
  exact finish_eq _

/-! ### The checks of one table entry (R401) -/

theorem checkEntry_of_bad_bandwidth {e : TTEntry} (hbw : ¬ finitePositive e.bw) : checkEntry e = some .eCfgBw := by
  rw [← bwOk_iff, Bool.not_eq_true] at hbw
  simp [checkEntry, hbw]

theorem checkEntry_of_empty_window {e : TTEntry} (hbw : finitePositive e.bw) (hnn : e.nn.toNat < 1) :
    checkEntry e = some .eCfgN := by
  rw [← bwOk_iff] at hbw
  rw [checkEntry, hbw, if_neg (by decide), if_pos hnn]

theorem checkEntry_of_wide {e : TTEntry} (hbw : finitePositive e.bw) (hnn : 1 ≤ e.nn.toNat)
    (hwide : 2 ^ 32 - 1 < e.nn.toNat ∨ 2 ^ 32 - 1 < e.kk.toNat) : checkEntry e = some .eCfgRange := by
  rw [← bwOk_iff] at hbw
  rw [checkEntry, hbw, if_neg (by decide), if_neg hnn.not_gt, if_pos hwide]

/-- The first entry that is not in order gives the table's error. -/
theorem checkTable_of_first_failing {tt : Memory TTEntry} {k b : Nat} {code : ErrCode} (hb : b < k)
    (hok : ∀ a < b, entryOk (Memory.read TTEntry.reset tt a))
    (hcode : checkEntry (Memory.read TTEntry.reset tt b) = some code) :
    checkTable tt k 0 = some (code, BitVec.ofNat 64 b) :=
  (checkTable_some tt k 0 _).2 ⟨b, code, Nat.zero_le b, by rwa [Nat.zero_add], hcode,
    fun a _ ha => (checkEntry_none_iff _).2 (hok a ha), rfl⟩

/-! ### The smoothing (R401, R403, R404) -/

section
variable {x sr : F64} {n : Nat}

theorem chooseSmoothing_of_isNaN (h : isNaN x = true) : chooseSmoothing x sr n = .error (.eCfgSmooth, 0) := if_pos h

/-- The Heavy smoothing of a positive SMOOTH_SECONDS. -/
def heavySmoothing (x sr : F64) (n : Nat) : Smoothing :=
  { mode := .heavy, wmax := (conv (fmul x sr) (2 ^ n - 1)).1, cap := ringCap (conv (fmul x sr) (2 ^ n - 1)).1 }

theorem chooseSmoothing_of_pos (h : flt fzero x = true) :
    chooseSmoothing x sr n =
      if (conv (fmul x sr) (2 ^ n - 1)).2 = true then .error (.eCfgCap, 1) else .ok (heavySmoothing x sr n) := by
  obtain ⟨-, hn⟩ := isNaN_eq_false_of_fle (fle_of_flt h)
  rw [chooseSmoothing, hn, if_neg (by decide), if_pos h, heavySmoothing]
  rcases conv (fmul x sr) (2 ^ n - 1) with ⟨w, _ | _⟩ <;> rfl

theorem chooseSmoothing_of_neg (h : flt x fzero = true) :
    chooseSmoothing x sr n = .ok { mode := .fast, wmax := 0, cap := 0 } := by
  obtain ⟨hn, -⟩ := isNaN_eq_false_of_fle (fle_of_flt h)
  rw [chooseSmoothing, hn, flt_eq_false_of_fle (fle_of_flt h), if_neg (by decide), if_neg (by decide), if_pos h]

theorem chooseSmoothing_of_isZero (h : isZero x = true) :
    chooseSmoothing x sr n = .ok { mode := .off, wmax := 0, cap := 0 } := by
  obtain ⟨hle, hlt⟩ := compare_fzero_of_isZero h
  rw [chooseSmoothing, isNaN_eq_false_of_isZero h, flt_eq_false_of_fle hle, hlt]
  rfl

theorem sign_cases (hn : isNaN x = false) : isZero x = true ∨ flt x fzero = true ∨ flt fzero x = true := by
  rw [← fRank_eq_iff_isZero, flt_iff hn (isNaN_eq_false_of_isZero isZero_fzero),
    flt_iff (isNaN_eq_false_of_isZero isZero_fzero) hn, fRank_eq_iff_isZero.2 isZero_fzero]
  omega

/-- Where SMOOTH_SECONDS is no NaN and a positive one is not clamped, a smoothing is chosen. -/
theorem exists_chooseSmoothing_ok (hn : isNaN x = false)
    (hclamp : flt fzero x = true → (conv (fmul x sr) (2 ^ n - 1)).2 = false) :
    ∃ sm, chooseSmoothing x sr n = .ok sm := by
  obtain hz | hneg | hpos := sign_cases hn
  · exact ⟨_, chooseSmoothing_of_isZero hz⟩
  · exact ⟨_, chooseSmoothing_of_neg hneg⟩
  · exact ⟨_, (chooseSmoothing_of_pos hpos).trans (if_neg (Bool.eq_false_iff.1 (hclamp hpos)))⟩

/-- A chosen window and capacity have 64 bits, and so they stand in MA_MAX and HMA_CAP unchanged. -/
theorem chooseSmoothing_ok_lt {sm : Smoothing} (hn : 2 ^ n ≤ 2 ^ 32) (h : chooseSmoothing x sr n = .ok sm) :
    sm.wmax < 2 ^ 64 ∧ sm.cap < 2 ^ 64 := by
  have hpos : 0 < 2 ^ n := Nat.two_pow_pos n
  obtain ⟨-, hw, hcap⟩ | ⟨-, hw, hcap⟩ := chooseSmoothing_ok h
  · have hle : sm.cap ≤ 2 ^ n := hcap ▸ ringCap_le_two_pow (by omega)
    omega
  · omega

end

/-! ### The checks in their order (R401) -/

section
variable {s : State}

theorem validate_of_bad_rate (hr : ¬ finitePositive s.cfg.sampleRate) : validate s = .error (.eCfgSr, 0) := by
  rw [← rateOk_iff, Bool.not_eq_true] at hr
  simp [validate, hr]

theorem validate_of_bad_count (hr : finitePositive s.cfg.sampleRate)
    (hk : s.ttCount.toNat < 1 ∨ s.params.maxBins < s.ttCount.toNat) :
    validate s = .error (.eCfgKeys, s.ttCount) := by
  rw [← rateOk_iff] at hr
  rw [validate, hr]
  exact if_pos hk

section
variable (hr : finitePositive s.cfg.sampleRate) (hlo : 1 ≤ s.ttCount.toNat) (hhi : s.ttCount.toNat ≤ s.params.maxBins)
include hr hlo hhi

theorem validate_of_bad_table {e : ErrCode × Word} (htable : checkTable s.tt s.ttCount.toNat 0 = some e) :
    validate s = .error e := by
  rw [← rateOk_iff] at hr
  rw [validate, hr, if_neg (by decide), if_neg (by omega), htable]

/-- The checks after those of the table. -/
theorem validate_of_table {maxN : Nat} (hok : ∀ b < s.ttCount.toNat, entryOk (Memory.read TTEntry.reset s.tt b))
    (hmax : isLargestWindow s maxN) :
    validate s =
      if 2 ^ s.params.rbLog2Max < ringCap maxN then .error (.eCfgCap, 0)
      else (chooseSmoothing s.cfg.smoothSeconds s.cfg.sampleRate s.params.hmaLog2Max).map
        fun sm => { cap := ringCap maxN, smoothing := sm } := by
  have htable : checkTable s.tt s.ttCount.toNat 0 = none :=
    (checkTable_none _ _ _).2 fun b _ hb => (checkEntry_none_iff _).2 (hok b (by rwa [Nat.zero_add] at hb))
  rw [← rateOk_iff] at hr
  rw [validate, hr, if_neg (by decide), if_neg (by omega), htable, (isLargestWindow_iff s hlo maxN).1 hmax]
  cases chooseSmoothing s.cfg.smoothSeconds s.cfg.sampleRate s.params.hmaLog2Max <;> rfl

theorem exec_ssInit_of_first_failing {b : Nat} {code : ErrCode} (hb : b < s.ttCount.toNat)
    (hok : ∀ a < b, entryOk (Memory.read TTEntry.reset s.tt a))
    (hcode : checkEntry (Memory.read TTEntry.reset s.tt b) = some code) :
    exec .ssInit s = .next (failed code (BitVec.ofNat 64 b) s) :=
  exec_ssInit_of_error (validate_of_bad_table hr hlo hhi (checkTable_of_first_failing hb hok hcode))

end
end

/-- Settles O51: each failing check, those before it passed, is the error of `validate`. -/
theorem ssInitRefusesBadConfigurations : Obligations.SsInitRefusesBadConfigurations := by
  refine fun s => ⟨fun hr => exec_ssInit_of_error (validate_of_bad_rate hr), fun hr =>
    ⟨fun hk => exec_ssInit_of_error (validate_of_bad_count hr hk), fun hlo hhi => ⟨fun b hb hok => ?entry, ?rest⟩⟩⟩
  case entry =>
    have hfail {code} := exec_ssInit_of_first_failing hr hlo hhi hb hok (code := code)
    exact ⟨fun hbw => hfail (checkEntry_of_bad_bandwidth hbw),
      fun hbw hnn => hfail (checkEntry_of_empty_window hbw hnn),
      fun hbw hnn hwide => hfail (checkEntry_of_wide hbw hnn hwide)⟩
  case rest =>
    intro maxN hok hmax
    have hv := validate_of_table hr hlo hhi hok hmax
    refine ⟨fun hcap => exec_ssInit_of_error (hv.trans (if_pos hcap)), fun hcap => ?_⟩
    rw [if_neg hcap.not_gt] at hv
    refine ⟨fun hn => exec_ssInit_of_error ?_, fun hpos hclamp => exec_ssInit_of_error ?_⟩
    · rw [hv, chooseSmoothing_of_isNaN hn]
      rfl
    · rw [hv, chooseSmoothing_of_pos hpos, if_pos hclamp]
      rfl

/-! ### A bin as built (42_frequency_bin.md R280-R283) -/

theorem u2f_finite_ne_zero {n : Nat} (hpos : 1 ≤ n) (hle : n ≤ 2 ^ 53) :
    isFinite (u2f n) = true ∧ isZero (u2f n) = false := by
  obtain ⟨hfin, hunits⟩ := (u2f_isRounding n).exact_int (by rwa [Int.natAbs_natCast])
  refine ⟨hfin, ?_⟩
  rw [← Bool.not_eq_true, ← fUnits_eq_zero, hunits]
  exact (mul_pos (Int.natCast_pos.2 hpos) (by positivity)).ne'

theorem fSign_u2f (n : Nat) : fSign (u2f n) = false := (roundTo_sign_class _ _ _).1

theorem eq_zero_of_isZero {x : F64} (hz : isZero x = true) (hs : fSign x = false) : x = 0 := by
  have hm : fMag x = 0 := by simpa [isZero] using hz
  rw [← fOfMag_fSign_fMag x, hs, hm]
  rfl

/-- A bin with k = 0 turns by no angle. -/
theorem binCoef_zero {n : Nat} (hpos : 1 ≤ n) (hle : n ≤ 2 ^ 53) : binCoef 0 n = ⟨fone, 0⟩ := by
  obtain ⟨hfin, hz⟩ := u2f_finite_ne_zero hpos hle
  have hprod : fmul twoPi64 (u2f 0) = 0 := by decide +kernel
  have htheta : binTheta 0 n = 0 := by
    rw [binTheta, hprod]
    exact eq_zero_of_isZero (isZero_fdiv_of_isZero isZero_fzero hfin hz)
      (fSign_fdiv_of_clear (by decide +kernel) (fSign_u2f n))
  rw [binCoef, htheta]
  exact cexp_of_isZero isZero_fzero

/-- The entry's KK and NN have 32 bits, so `bin_init` computes with them unchanged. -/
theorem binOfEntry_eq {e : TTEntry} (h : entryOk e) :
    binOfEntry e = { k := e.kk.setWidth 32, n := e.nn.setWidth 32, bands := binBands e.nn.toNat
                     coef := binCoef e.kk.toNat e.nn.toNat, dft := ⟨0, 0⟩, tp := 0 } := by
  obtain ⟨-, -, hnn, hkk⟩ := h
  have hk : (e.kk.setWidth 32).toNat = e.kk.toNat :=
    (BitVec.toNat_setWidth 32 e.kk).trans (Nat.mod_eq_of_lt (by omega))
  have hn : (e.nn.setWidth 32).toNat = e.nn.toNat := binOfEntry_n hnn
  rw [binOfEntry, binInit, hk, hn]

theorem binOfEntry_coef_of_kk_zero {e : TTEntry} (h : entryOk e) (hk : e.kk = 0) :
    (binOfEntry e).coef = ⟨fone, 0⟩ := by
  rw [binOfEntry_eq h, hk]
  obtain ⟨-, hpos, hnn, -⟩ := h
  exact binCoef_zero hpos (hnn.trans (by norm_num))

/-! ### The constructed state (R402) -/

section
variable (p : Plan) (s : State)

theorem readBin_construct_beyond {b : Nat} (hlo : s.ttCount.toNat ≤ b) (hhi : b < s.params.maxBins) :
    readBin (construct p s) b = Bin.reset := by
  rw [readBin, construct_bins, constructBins_read, if_pos ⟨hlo, hhi⟩]

theorem construct_rb_cap (h : p.cap < 2 ^ 64) : (construct p s).rb.cap.toNat = p.cap := Nat.mod_eq_of_lt h

theorem construct_ma_wmax (h : p.smoothing.wmax < 2 ^ 64) :
    (construct p s).ma.wmax.toNat = p.smoothing.wmax := Nat.mod_eq_of_lt h

theorem construct_ma_cap (h : p.smoothing.cap < 2 ^ 64) : (construct p s).ma.cap.toNat = p.smoothing.cap :=
  Nat.mod_eq_of_lt h

theorem read_construct_ring (h : p.cap < 2 ^ 64) (i : Nat) :
    Memory.read 0 (construct p s).rb.mem i =
      if i < (construct p s).rb.cap.toNat then 0 else Memory.read 0 s.rb.mem i := by
  rw [construct_ring_mem, Memory.read_clear, construct_rb_cap p s h]
  simp only [decide_eq_true_eq]

section
variable {ch : Nat} (hch : ch < s.params.maxBins)
include hch

theorem read_construct_sum : Memory.read 0 (construct p s).ma.sum ch = 0 := by
  rw [construct_ma, constructMa_sum, Memory.read_clear, if_pos (decide_eq_true hch)]

theorem read_construct_out : Memory.read 0 (construct p s).out ch = 0 := by
  rw [construct_out, Memory.read_clear, if_pos (decide_eq_true hch)]

theorem read_construct_heavy (h : p.smoothing.cap < 2 ^ 64) {slot : Nat} (hslot : slot < 2 ^ 64) :
    Memory.read 0 (construct p s).ma.h (hIndex ch slot) =
      if slot < (construct p s).ma.cap.toNat then 0 else Memory.read 0 s.ma.h (hIndex ch slot) := by
  obtain ⟨hdiv, hmod⟩ := hIndex_div_mod ch slot hslot
  rw [construct_ma_cap p s h, construct_ma, constructMa_h, Memory.read_clear, hdiv, hmod]
  simp only [hch, true_and, decide_eq_true_eq]

end
end

/-- Settles O50: the checks of O51 leave a plan, and each clause is what `construct` makes of it. -/
theorem ssInitConstructsTheSpectrum : Obligations.SsInitConstructsTheSpectrum := by
  intro s maxN hlegal hr hlo hhi hok hmax hcap hn hclamp
  obtain ⟨sm, hsm⟩ := exists_chooseSmoothing_ok hn hclamp
  obtain ⟨hwmax, hmaCap⟩ := chooseSmoothing_ok_lt (two_pow_hmaLog2Max_le hlegal) hsm
  have hrbCap : ringCap maxN < 2 ^ 64 := by
    have := two_pow_rbLog2Max_le hlegal
    omega
  have hv : validate s = .ok { cap := ringCap maxN, smoothing := sm } := by
    rw [validate_of_table hr hlo hhi hok hmax, if_neg hcap.not_gt, hsm]
    rfl
  set p : Plan := { cap := ringCap maxN, smoothing := sm }
  refine ⟨completed (construct p s), exec_ssInit_of_plan hv, rfl, fun b hb => ⟨?bin, fun hk => ?still⟩,
    fun b => readBin_construct_beyond p s, construct_rb_cap p s hrbCap, rfl, read_construct_ring p s hrbCap,
    fun hz => ?off, fun hneg => ?fast, fun hpos => ?heavy, rfl, rfl, rfl,
    fun ch hch => ⟨read_construct_sum p s hch, read_construct_out p s hch,
      fun slot => read_construct_heavy p s hch hmaCap⟩⟩
  case bin => exact (readBin_construct p s hb).trans (binOfEntry_eq (hok b hb))
  case still => exact (congrArg Bin.coef (readBin_construct p s hb)).trans (binOfEntry_coef_of_kk_zero (hok b hb) hk)
  case off =>
    rw [chooseSmoothing_of_isZero hz] at hsm
    cases hsm
    exact ⟨rfl, rfl, rfl⟩
  case fast =>
    rw [chooseSmoothing_of_neg hneg] at hsm
    cases hsm
    exact ⟨rfl, rfl, rfl⟩
  case heavy =>
    rw [chooseSmoothing_of_pos hpos, hclamp hpos] at hsm
    cases hsm
    refine ⟨rfl, construct_ma_wmax p s hwmax, (construct_ma_cap p s hmaCap).trans ?_⟩
    exact congrArg ringCap (construct_ma_wmax p s hwmax).symm

end Sys2Proof.Machine
end

section
/-! PROOFS. PROCESS (45_sliding_spectrum.md R406-R413): where it raises (O53), the state sample by sample (O54), what a
batch consumes and what it leaves (O52), the empty batch (O55), and outputs that are levels (O56). -/

namespace Sys2Proof.Machine

/-! ### The three ends of the command (R406) -/

@[simp] theorem toNat_imm24 (v : BitVec 24) : (imm24 v).toNat = v.toNat :=
  BitVec.toNat_setWidth_of_le (by decide)

section
variable {s : State} {len : BitVec 24}

theorem exec_process_of_init_eq_false (hinit : s.status.init = false) :
    exec (.process len) s = .next (failed .eNotInit 0 s) := by
  show execProcess len s = _
  simp [execProcess, hinit, raise_eq]

theorem exec_process_of_long (hinit : s.status.init = true) (hlen : s.params.batchMax < len.toNat) :
    exec (.process len) s = .next (failed .eRange (imm24 len) s) := by
  show execProcess len s = _
  simp [execProcess, hinit, hlen, raise_eq]

theorem exec_process (hinit : s.status.init = true) (hlen : len.toNat ≤ s.params.batchMax) :
    exec (.process len) s = .next (completed (processBatch len.toNat s)) := by
  show execProcess len s = _
  simp [execProcess, hinit, hlen.not_gt]

end

/-- Settles O53: the two checks of R406 in their order. -/
theorem processRefusesWithoutSpectrumOrRoom : Obligations.ProcessRefusesWithoutSpectrumOrRoom :=
  fun _ _ => ⟨exec_process_of_init_eq_false, exec_process_of_long⟩

/-! ### One sample (R408-R410) -/

section
variable (s : State) (i : Nat)

theorem processSample_rb : (processSample s i).rb = ringWrite s.rb (Memory.read 0 s.batch i) := by
  rw [processSample_frame]

theorem processSample_batch : (processSample s i).batch = Memory.write 0 s.batch i 0 := by rw [processSample_frame]

theorem processSample_ma :
    (processSample s i).ma = maUpdate s.nbins.toNat (processSample s i).out s.ma := by
  have h := foldl_binSample_frame (Memory.read 0 s.batch i) (List.range s.nbins.toNat) (takeSample s i)
  rw [processSample]
  dsimp only
  rw [h]
  rfl

/-- A live bin meets the sample and the one N writes before it; the bins beyond are left alone. -/
theorem readBin_processSample (b : Nat) :
    readBin (processSample s i) b =
      if b < s.nbins.toNat then
        binUpdate (ringRead (processSample s i).rb ((readBin s b).n.setWidth 64)) (Memory.read 0 s.batch i)
          (readBin s b)
      else readBin s b := by
  rw [processSample_rb]
  exact (foldl_binSample_read (Memory.read 0 s.batch i) s.nbins.toNat (takeSample s i) b).1

theorem read_out_processSample (b : Nat) :
    Memory.read 0 (processSample s i).out b =
      if b < s.nbins.toNat then level (readBin (processSample s i) b) else Memory.read 0 s.out b := by
  obtain ⟨hbin, hout⟩ := foldl_binSample_read (Memory.read 0 s.batch i) s.nbins.toNat (takeSample s i) b
  refine hout.trans (ite_congr rfl (fun hb => ?_) fun _ => rfl)
  exact congrArg level (hbin.trans (if_pos hb)).symm

end

/-! ### The first samples of a batch -/

/-- The state after steps 1 and 2 of PROCESS for the first i samples of the batch (R406). -/
def afterSamples (s : State) (i : Nat) : State := (List.range i).foldl processSample (processTarget s)

theorem processBatch_eq (len : Nat) (s : State) : processBatch len s = processOut (afterSamples s len) := rfl

section
variable (s : State) (i : Nat)

theorem afterSamples_zero : afterSamples s 0 = processTarget s := rfl

theorem afterSamples_succ : afterSamples s (i + 1) = processSample (afterSamples s i) i := by
  rw [afterSamples, List.range_succ, List.foldl_concat, afterSamples]

/-- Steps 1 and 2 touch RB, BIN, MA, OUT, BATCH and WCLAMP, the last in step 1 alone. -/
theorem afterSamples_frame :
    afterSamples s i = { s with
      status := { s.status with wclamp := (processTarget s).status.wclamp }
      rb := (afterSamples s i).rb, bins := (afterSamples s i).bins, ma := (afterSamples s i).ma
      out := (afterSamples s i).out, batch := (afterSamples s i).batch } := by
  rw [afterSamples, foldl_processSample_frame, processTarget_frame]

theorem afterSamples_nbins : (afterSamples s i).nbins = s.nbins := by rw [afterSamples_frame]

/-- The samples taken are zeroed in the batch, and those to come still stand there (R408). -/
theorem read_batch_afterSamples (j : Nat) :
    Memory.read 0 (afterSamples s i).batch j = if j < i then 0 else Memory.read 0 s.batch j := by
  induction i with
  | zero => rw [afterSamples_zero, processTarget_frame, if_neg j.not_lt_zero]
  | succ i ih =>
    rw [afterSamples_succ, processSample_batch, Memory.read_write, ih]
    by_cases hj : j = i
    · rw [if_pos hj, if_pos (by omega)]
    · rw [if_neg hj]
      exact if_congr (by omega) rfl rfl

/-- The ring after the first i samples of the batch (R408). -/
def ringAfter (s : State) (i : Nat) : Ring :=
  (List.range i).foldl (fun r j => ringWrite r (Memory.read 0 s.batch j)) s.rb

theorem afterSamples_rb : (afterSamples s i).rb = ringAfter s i := by
  induction i with
  | zero => rw [afterSamples_zero, processTarget_frame]; rfl
  | succ i ih =>
    rw [afterSamples_succ, processSample_rb, ih, read_batch_afterSamples, if_neg (lt_irrefl i), ringAfter, ringAfter,
      List.range_succ, List.foldl_concat]

theorem ringAfter_cap : (ringAfter s i).cap = s.rb.cap := by
  rw [ringAfter, ← List.foldl_map, foldl_ringWrite_cap]

theorem foldl_ringWrite_wc (vs : List F64) (r : Ring) :
    (vs.foldl ringWrite r).wc = r.wc + BitVec.ofNat 64 vs.length := by
  induction vs generalizing r with
  | nil => exact (BitVec.add_zero _).symm
  | cons v vs ih =>
    rw [List.foldl_cons, ih, ringWrite_wc, List.length_cons, BitVec.add_assoc, BitVec.add_comm 1, BitVec.ofNat_add]
    rfl

theorem ringAfter_wc : (ringAfter s i).wc = s.rb.wc + BitVec.ofNat 64 i := by
  rw [ringAfter, ← List.foldl_map, foldl_ringWrite_wc, List.length_map, List.length_range]

/-- b' is b but for what an update writes, the accumulator and the power (42_frequency_bin.md R286). -/
def SameConstruction (b b' : Bin) : Prop :=
  b'.k = b.k ∧ b'.n = b.n ∧ b'.bands = b.bands ∧ b'.coef = b.coef

theorem readBin_afterSamples_succ (b : Nat) :
    readBin (afterSamples s (i + 1)) b =
      if b < s.nbins.toNat then
        binUpdate (ringRead (ringAfter s (i + 1)) ((readBin (afterSamples s i) b).n.setWidth 64))
          (Memory.read 0 s.batch i) (readBin (afterSamples s i) b)
      else readBin (afterSamples s i) b := by
  rw [afterSamples_succ, readBin_processSample, ← afterSamples_succ, afterSamples_rb, afterSamples_nbins,
    read_batch_afterSamples, if_neg (lt_irrefl i)]

theorem readBin_afterSamples_construction (b : Nat) :
    SameConstruction (readBin s b) (readBin (afterSamples s i) b) := by
  induction i with
  | zero => rw [afterSamples_zero, processTarget_frame]; exact ⟨rfl, rfl, rfl, rfl⟩
  | succ i ih =>
    rw [readBin_afterSamples_succ]
    split
    · exact ih
    · exact ih

theorem read_out_afterSamples_succ (b : Nat) :
    Memory.read 0 (afterSamples s (i + 1)).out b =
      if b < s.nbins.toNat then level (readBin (afterSamples s (i + 1)) b)
      else Memory.read 0 (afterSamples s i).out b := by
  rw [afterSamples_succ, read_out_processSample, afterSamples_nbins]

theorem afterSamples_beyond {b : Nat} (hb : s.nbins.toNat ≤ b) :
    readBin (afterSamples s i) b = readBin s b ∧ Memory.read 0 (afterSamples s i).out b = Memory.read 0 s.out b := by
  induction i with
  | zero => rw [afterSamples_zero, processTarget_frame]; exact ⟨rfl, rfl⟩
  | succ i ih => rwa [readBin_afterSamples_succ, if_neg hb.not_gt, read_out_afterSamples_succ, if_neg hb.not_gt]

theorem afterSamples_ma_succ :
    (afterSamples s (i + 1)).ma = maUpdate s.nbins.toNat (afterSamples s (i + 1)).out (afterSamples s i).ma := by
  rw [afterSamples_succ, processSample_ma, afterSamples_nbins]

theorem afterSamples_ma_keeps :
    (afterSamples s i).ma.mode = s.ma.mode ∧ (afterSamples s i).ma.wmax = s.ma.wmax ∧
    (afterSamples s i).ma.cap = s.ma.cap := by
  induction i with
  | zero => rw [afterSamples_zero, processTarget_frame]; exact ⟨rfl, rfl, rfl⟩
  | succ i ih =>
    obtain ⟨hmode, -, hwmax, hcap⟩ := maUpdate_keeps s.nbins.toNat (afterSamples s (i + 1)).out (afterSamples s i).ma
    rwa [afterSamples_ma_succ, hmode, hwmax, hcap]

end

/-! ### The target window and the averages (R407, R411) -/

/-- What R361 makes of WIN_SECONDS: the target window and whether it was clamped. -/
def targetWindow (s : State) : Nat × Bool :=
  conv (fmul s.cfg.winSeconds s.ssSr) (if s.ma.mode = .heavy then s.ma.wmax.toNat else 2 ^ 32 - 1)

theorem targetBound_eq (ma : MovAvg) : targetBound ma = if ma.mode = .heavy then ma.wmax.toNat else 2 ^ 32 - 1 := by
  split
  next h => exact targetBound_of_heavy h
  next h => exact targetBound_of_ne_heavy h

theorem processTarget_ma (s : State) :
    (processTarget s).ma =
      if s.ma.mode = .off then s.ma else { s.ma with tgt := BitVec.ofNat 64 (targetWindow s).1 } := by
  rw [processTarget, targetWindow, ← targetBound_eq]
  split
  · rfl
  · rfl

theorem processTarget_wclamp (s : State) :
    (processTarget s).status.wclamp = (s.status.wclamp || (decide (s.ma.mode ≠ .off) && (targetWindow s).2)) := by
  rw [processTarget, targetWindow, ← targetBound_eq]
  by_cases h : s.ma.mode = .off
  · simp [h]
  · simp [h]

theorem processOut_of_no_window {s : State} (h : s.ma.mode = .off ∨ s.ma.cur = 0) : processOut s = s := if_pos h

/-- OUT holds a live channel's average exactly where smoothing is on and its window is not 0. -/
theorem read_out_processOut (s : State) (b : Nat) :
    Memory.read 0 (processOut s).out b =
      if s.ma.mode ≠ .off ∧ s.ma.cur ≠ 0 ∧ b < s.nbins.toNat then
        fdiv (Memory.read 0 s.ma.sum b) (u2f s.ma.cur.toNat)
      else Memory.read 0 s.out b := by
  rw [processOut]
  by_cases h : s.ma.mode = .off ∨ s.ma.cur = 0
  · rw [if_pos h, if_neg (by tauto)]
  · rw [if_neg h, Memory.read_foldl_write]
    rw [not_or] at h
    simp only [ne_eq, h, not_false_eq_true, true_and, maRead]

/-! ### The whole command -/

section
variable (s : State) (len : Nat)

theorem processBatch_rb : (processBatch len s).rb = ringAfter s len := by
  rw [processBatch_eq, processOut_frame, ← afterSamples_rb]

theorem processBatch_ma : (processBatch len s).ma = (afterSamples s len).ma := by
  rw [processBatch_eq, processOut_frame]

theorem readBin_processBatch (b : Nat) : readBin (processBatch len s) b = readBin (afterSamples s len) b := by
  rw [processBatch_eq, processOut_frame]
  rfl

theorem read_batch_processBatch (j : Nat) :
    Memory.read 0 (processBatch len s).batch j = if j < len then 0 else Memory.read 0 s.batch j := by
  rw [processBatch_eq, processOut_frame, ← read_batch_afterSamples]

theorem processBatch_wclamp :
    (processBatch len s).status.wclamp =
      (s.status.wclamp || (decide (s.ma.mode ≠ .off) && (targetWindow s).2)) := by
  rw [processBatch_eq, processOut_frame, afterSamples_frame, processTarget_wclamp]

theorem read_out_processBatch (b : Nat) :
    Memory.read 0 (processBatch len s).out b =
      if s.ma.mode ≠ .off ∧ (afterSamples s len).ma.cur ≠ 0 ∧ b < s.nbins.toNat then
        fdiv (Memory.read 0 (afterSamples s len).ma.sum b) (u2f (afterSamples s len).ma.cur.toNat)
      else Memory.read 0 (afterSamples s len).out b := by
  obtain ⟨hmode, -, -⟩ := afterSamples_ma_keeps s len
  rw [processBatch_eq, read_out_processOut, hmode, afterSamples_nbins]

end

/-- Settles O52: the frame of PROCESS, then its ring, its batch, its bins and the bins and OUT words beyond. -/
theorem processConsumesItsBatch : Obligations.ProcessConsumesItsBatch := by
  intro s len hinit hlen
  refine ⟨completed (processBatch len.toNat s), exec_process hinit hlen,
    congrArg completed (processBatch_frame len.toNat s), processBatch_rb s _, ?wc, ?cap, fun i hi => ?taken,
    fun i hi => ?kept, fun b => ?bin, fun b hb => ?beyond, ?ma⟩
  case wc => exact (congrArg Ring.wc (processBatch_rb s _)).trans (ringAfter_wc s _)
  case cap => exact (congrArg Ring.cap (processBatch_rb s _)).trans (ringAfter_cap s _)
  case taken => exact (read_batch_processBatch s _ i).trans (if_pos hi)
  case kept => exact (read_batch_processBatch s _ i).trans (if_neg hi.not_gt)
  case bin =>
    have h := readBin_afterSamples_construction s len.toNat b
    rwa [← readBin_processBatch] at h
  case beyond =>
    obtain ⟨hbin, hout⟩ := afterSamples_beyond s len.toNat hb
    refine ⟨(readBin_processBatch s _ b).trans hbin, ((read_out_processBatch s _ b).trans (if_neg ?_)).trans hout⟩
    exact fun ⟨_, _, hlt⟩ => hb.not_gt hlt
  case ma =>
    have h := afterSamples_ma_keeps s len.toNat
    rwa [← processBatch_ma] at h

/-- Settles O54: bins, moving average and levels are those of `afterSamples`, whose lemmas are the clauses. -/
theorem processUpdatesEveryLiveBin : Obligations.ProcessUpdatesEveryLiveBin := by
  intro s len hinit hlen L K x ring window
  refine ⟨completed (processBatch L s), fun i b => readBin (afterSamples s i) b, fun i => (afterSamples s i).ma,
    fun i => (afterSamples s i).out, exec_process hinit hlen, processBatch_wclamp s L, fun b => ?start,
    processTarget_ma s, fun i _ => ⟨fun b hb => ⟨?bin, ?level⟩, ?ma⟩, processBatch_rb s L,
    fun b _ => readBin_processBatch s L b, processBatch_ma s L, fun b hb => ?out⟩
  case start =>
    show readBin (processTarget s) b = readBin s b
    rw [processTarget_frame]
    rfl
  case bin =>
    dsimp only
    obtain ⟨-, hn, -, -⟩ := readBin_afterSamples_construction s i b
    rw [readBin_afterSamples_succ, if_pos hb, hn]
    rfl
  case level => rw [read_out_afterSamples_succ, if_pos hb]
  case ma =>
    obtain ⟨hmode, -, -⟩ := afterSamples_ma_keeps s i
    have h := afterSamples_ma_succ s i
    rw [maUpdate, hmode] at h
    exact h
  case out =>
    refine (read_out_processBatch s L b).trans (if_congr (by tauto) rfl ?_)
    split
    next hL => rw [hL, afterSamples_zero, processTarget_frame]
    next => rfl

/-- Settles O55: step 1, no sample, step 3. -/
theorem emptyBatchOnlySetsTheWindow : Obligations.EmptyBatchOnlySetsTheWindow := by
  intro s hinit
  refine ⟨completed (processBatch 0 s), exec_process hinit (Nat.zero_le _), processBatch_rb s 0, ?bins, ?batch,
    fun hoff => ?off, fun hon => ⟨?ma, ?wclamp, fun hcur => ?still, fun hcur ch hch => ?averages⟩⟩
  all_goals have hframe := processTarget_frame s
  case bins =>
    show (processOut (processTarget s)).bins = s.bins
    rw [processOut_frame, hframe]
  case batch =>
    show (processOut (processTarget s)).batch = s.batch
    rw [processOut_frame, hframe]
  case off =>
    have htarget : processTarget s = s := if_pos hoff
    rw [processBatch_eq, afterSamples_zero, htarget, processOut_of_no_window (.inl hoff)]
  case ma => exact (processBatch_ma s 0).trans ((processTarget_ma s).trans (if_neg hon))
  case wclamp =>
    refine (processBatch_wclamp s 0).trans ?_
    rw [decide_eq_true hon, Bool.true_and, targetWindow]
  case still =>
    show (processOut (processTarget s)).out = s.out
    rw [processOut_of_no_window (.inr (by rw [hframe, hcur])), hframe]
  case averages =>
    refine (read_out_processBatch s 0 ch).trans ?_
    rw [afterSamples_zero, hframe, if_pos ⟨hon, hcur, hch⟩]

/-- Settles O56: the last sample leaves each live bin's level in OUT, and a bin keeps its bands, which have a clear
sign. -/
theorem unsmoothedOutputsAreLevels : Obligations.UnsmoothedOutputsAreLevels := by
  intro s t len hinv hinit hpos hlen hexec hoff b hb
  rw [exec_process hinit hlen] at hexec
  injection hexec with hexec
  subst hexec
  obtain ⟨i, hi⟩ := Nat.exists_eq_add_of_le' hpos
  obtain ⟨-, hbands, -⟩ := ((State.inv_iff_invParts s).1 hinv).built b hb
  obtain ⟨-, -, hkept, -⟩ := readBin_afterSamples_construction s (i + 1) b
  have hcur : (afterSamples s len.toNat).ma.cur = (processBatch len.toNat s).ma.cur := by rw [processBatch_ma]
  have hout : Memory.read 0 (processBatch len.toNat s).out b = level (readBin (afterSamples s (i + 1)) b) := by
    rw [read_out_processBatch, if_neg, hi, read_out_afterSamples_succ, if_pos hb]
    rintro ⟨hmode, hcur', -⟩
    exact hoff.elim hmode fun h => hcur' (hcur.trans h)
  show isLevel (Memory.read 0 (processBatch len.toNat s).out b)
  rw [hout]
  apply isLevel_level
  rw [hkept, hbands]
  exact fSign_fdiv_of_clear (fSign_u2f _) (by decide +kernel)

end Sys2Proof.Machine
end

section
/-! PROOFS. SNAP (45_sliding_spectrum.md R414, O57), and which steps may change OUT, SNAPBUF and INIT (O58). -/

namespace Sys2Proof.Machine

/-- Settles O57: the copied words of `snapCopy_read` and those beyond. -/
theorem snapCopiesTheOutputs : Obligations.SnapCopiesTheOutputs :=
  fun s => ⟨snapCopy s.params.maxBins s.out s.snap, finish_eq _,
    fun b hb => (snapCopy_read _ _ _ b).trans (if_pos hb), fun b hb => (snapCopy_read _ _ _ b).trans (if_neg hb.not_gt)⟩

/-! ### Who may change OUT, SNAPBUF and INIT (R412, R414, 10_state.md R47) -/

/-- t has the OUT, SNAPBUF and INIT of s. -/
def KeepsOutputs (s t : State) : Prop := t.snap = s.snap ∧ t.out = s.out ∧ t.status.init = s.status.init

/-- From s to t, OUT, SNAPBUF and INIT change only as the performed command c may change them. -/
def OutputsFollow (c : Option Instr) (s t : State) : Prop :=
  (c ≠ some .snap → t.snap = s.snap) ∧
  ((∀ l, c ≠ some (.process l)) → c ≠ some .ssInit → t.out = s.out) ∧
  (s.status.init = true → t.status.init = true) ∧
  (c ≠ some .ssInit → t.status.init = s.status.init)

theorem KeepsOutputs.outputsFollow {s t : State} (h : KeepsOutputs s t) (c : Option Instr) : OutputsFollow c s t := by
  obtain ⟨hsnap, hout, hinit⟩ := h
  exact ⟨fun _ => hsnap, fun _ _ => hout, hinit.trans, fun _ => hinit⟩

theorem failed_keepsOutputs (code : ErrCode) (info : Word) (s : State) : KeepsOutputs s (failed code info s) := by
  rw [failed_frame]
  exact ⟨rfl, rfl, rfl⟩

theorem RaisedFrom.keepsOutputs {s t : State} (h : RaisedFrom s t) : KeepsOutputs s t := by
  obtain ⟨code, -, info, rfl⟩ := h
  exact failed_keepsOutputs code info s

theorem WroteRegister.keepsOutputs {zd : Fin 8} {s t : State} (h : WroteRegister zd s t) : KeepsOutputs s t := by
  obtain ⟨v, rfl⟩ := h
  exact ⟨rfl, rfl, rfl⟩

theorem keepsOutputs_of_sameEngineState {s t : State} (h : sameEngineState s t) : KeepsOutputs s t := by
  obtain ⟨-, -, -, -, -, -, hout, hsnap, hinit, -⟩ := h
  exact ⟨hsnap, hout, hinit⟩

theorem busWrite_keepsOutputs (addr : BitVec 32) (be : BitVec 8) (v : Word) (s : State) :
    KeepsOutputs s (busWrite addr be v s) := by
  obtain ⟨hsame, -⟩ := busWrite_keepsEngineState addr be v s
  have h := keepsOutputs_of_sameEngineState hsame
  exact h

theorem execTmBuild_keepsOutputs {s t : State} (h : execTmBuild s = .next t) : KeepsOutputs s t := by
  obtain hraised | ⟨-, hraised | rfl⟩ := execTmBuild_cases h
  · exact hraised.keepsOutputs
  · exact hraised.keepsOutputs
  · exact ⟨rfl, rfl, rfl⟩

theorem exec_outputsFollow {i : Instr} {s t : State} (hi : i ≠ .reset) (h : exec i s = .next t) :
    OutputsFollow (some i) s t := by
  cases hd : destination i with
  | some zd =>
    obtain hraised | hwrote := exec_cases_of_destination hd h
    · exact hraised.keepsOutputs.outputsFollow _
    · exact hwrote.keepsOutputs.outputsFollow _
  | none =>
    cases i with
    | cadd | csub | cmul | cexp | cmag | rbRd | binRd | maRd | tmK2f => cases hd
    | reset => exact absurd rfl hi
    | nop => exact eq_completed_of_finish h ▸ KeepsOutputs.outputsFollow ⟨rfl, rfl, rfl⟩ _
    | snap => exact eq_completed_of_finish h ▸ ⟨fun hne => absurd rfl hne, fun _ _ => rfl, id, fun _ => rfl⟩
    | tmBuild => exact (execTmBuild_keepsOutputs h).outputsFollow _
    | ssInit =>
      obtain hraised | ⟨p, -, rfl⟩ := execSsInit_cases h
      · exact hraised.keepsOutputs.outputsFollow _
      · exact ⟨fun _ => rfl, fun _ hne => absurd rfl hne, fun _ => rfl, fun hne => absurd rfl hne⟩
    | process len =>
      obtain hraised | ⟨-, -, rfl⟩ := execProcess_cases h
      · exact hraised.keepsOutputs.outputsFollow _
      · rw [processBatch_frame]
        exact ⟨fun _ => rfl, fun hne => absurd rfl (hne len), id, fun _ => rfl⟩

/-- The command of an ENGINE step on s, as `nextCommand` reads it. -/
theorem engineStep_outputsFollow {s t : State} (hi : s.pend.bind (fun w => (decode w).toOption) ≠ some .reset)
    (h : engineStep s = .next t) : OutputsFollow (s.pend.bind fun w => (decode w).toOption) s t := by
  obtain ⟨-, rfl⟩ | ⟨w, i, hp, hd, hexec⟩ | ⟨w, e, -, -, rfl⟩ := engineStep_cases h
  · exact KeepsOutputs.outputsFollow ⟨rfl, rfl, rfl⟩ _
  · have hc : s.pend.bind (fun w => (decode w).toOption) = some i := by rw [hp, Option.bind_some, hd]; rfl
    rw [hc] at hi ⊢
    exact exec_outputsFollow (fun he => hi (congrArg some he)) hexec
  · exact (failed_keepsOutputs _ w s).outputsFollow _

/-- Settles O58: the ENGINE's turn by its command, a HOST turn by what an access leaves. -/
theorem outputsAndInitChangeOnlyByTheirCommands : Obligations.OutputsAndInitChangeOnlyByTheirCommands := by
  intro s t hstep hturn hreset
  show OutputsFollow (nextCommand s) s t
  obtain ⟨hs, h⟩ | ⟨ts, hs, h⟩ | ⟨addr, be, ts, hs, rfl⟩ | ⟨addr, be, v, ts, hs, rfl⟩ | ⟨ts, hs, -⟩ := step_cases hstep
  · rw [nextCommand, hs] at hreset ⊢
    exact engineStep_outputsFollow hreset h
  · rw [nextCommand, hs] at hreset ⊢
    exact engineStep_outputsFollow (s := { s with turns := ts }) hreset h
  · have h := keepsOutputs_of_sameEngineState (busRead_sameEngineState addr be { s with turns := ts })
    exact KeepsOutputs.outputsFollow h _
  · exact (busWrite_keepsOutputs addr be v { s with turns := ts }).outputsFollow _
  · exact absurd hs (hturn ts)

end Sys2Proof.Machine
end

section
/-! PROOFS. NOP, RESET and the hardware reset (46_control.md R440, R441, 70_reset_and_hazards.md R501; O21). -/

namespace Sys2Proof.Machine

/-- NOP has no effect of its own: all that it does is to end (R440). -/
theorem exec_nop (s : State) : exec .nop s = .next (completed s) := finish_eq s

/-- RESET resets and then ends, so DONE is set in the reset state (R441). -/
theorem exec_reset (s : State) : exec .reset s = .next (completed (applyReset s)) := finish_eq _

/-- A hardware reset ends no command: PEND and DONE are those of the reset state (R501). -/
theorem step_hwReset {s : State} {ts : List Turn} (h : s.turns = .hwReset :: ts) :
    step s = .next (applyReset { s with turns := ts }) := by
  simp only [step, h]

/-- Settles O21: the two commands by `exec_nop` and `exec_reset`, the turn by `step_hwReset`, with `applyReset` written
out as R501's state. -/
theorem nopAndTheTwoResets : Obligations.NopAndTheTwoResets :=
  ⟨fun s => ⟨exec_nop s, exec_reset s⟩, fun _ _ hturn => step_hwReset hturn⟩

end Sys2Proof.Machine
end

section
/-! PROOFS. How every command ends (60_exceptions.md R463, R480): each step answers (O7), an ENGINE step on a pending word
leaves BUSY 0 and DONE 1 (O8), and a raise touches nothing but the record of the error (O10). -/

namespace Sys2Proof.Machine

/-! ### What a command may do before it ends -/

/-- t has the error record of s: ERR, ERROVF, ERRCODE and ERRINFO. -/
structure SameErrorRecord (s t : State) : Prop where
  err : t.status.err = s.status.err
  errovf : t.status.errovf = s.status.errovf
  errcode : t.status.errcode = s.status.errcode
  errinfo : t.errinfo = s.errinfo

/-- t is s after what a command does before it ends: only the end itself touches the error record (R463), and nothing
touches the parameters or the turns to come. -/
structure IsEffectOn (s t : State) : Prop extends SameErrorRecord s t where
  params : t.params = s.params
  turns : t.turns = s.turns

theorem SameErrorRecord.refl (s : State) : SameErrorRecord s s := ⟨rfl, rfl, rfl, rfl⟩

theorem IsEffectOn.refl (s : State) : IsEffectOn s s := ⟨.refl s, rfl, rfl⟩

theorem writeZ_isEffectOn (s : State) (r : Fin 8) (v : C64) : IsEffectOn s (writeZ s r v) :=
  ⟨⟨rfl, rfl, rfl, rfl⟩, rfl, rfl⟩

theorem construct_isEffectOn (p : Plan) (s : State) : IsEffectOn s (construct p s) := ⟨⟨rfl, rfl, rfl, rfl⟩, rfl, rfl⟩

theorem processBatch_isEffectOn (len : Nat) (s : State) : IsEffectOn s (processBatch len s) := by
  rw [processBatch_frame]
  exact ⟨⟨rfl, rfl, rfl, rfl⟩, rfl, rfl⟩

/-! ### The two ends of a command (60_exceptions.md R463) -/

/-- The state t in which a command other than RESET ends on s: it completed its effect, or it raised; only TM_BUILD may
have written before it raised, and only the table (43_tuning_map.md R327). -/
inductive EndsIn (i : Instr) (s t : State) : Prop where
  | completes (u : State) (effect : IsEffectOn s u) (end_eq : t = completed u)
  | raises (raised : RaisedFrom s t)
  | raisesInTable (build : i = .tmBuild) (raised : RaisedFrom { s with tt := builtTable s } t)

theorem exec_endsIn {i : Instr} {s t : State} (hi : i ≠ .reset) (h : exec i s = .next t) : EndsIn i s t := by
  cases hd : destination i with
  | some zd =>
    obtain hraised | ⟨v, rfl⟩ := exec_cases_of_destination hd h
    · exact .raises hraised
    · exact .completes _ (writeZ_isEffectOn s zd v) rfl
  | none =>
    cases i with
    | cadd | csub | cmul | cexp | cmag | rbRd | binRd | maRd | tmK2f => cases hd
    | reset => exact absurd rfl hi
    | nop => exact .completes s (.refl s) (eq_completed_of_finish h)
    | snap =>
      exact .completes { s with snap := snapCopy s.params.maxBins s.out s.snap } ⟨⟨rfl, rfl, rfl, rfl⟩, rfl, rfl⟩
        (eq_completed_of_finish h)
    | tmBuild =>
      obtain hraised | ⟨-, hraised | rfl⟩ := execTmBuild_cases h
      · exact .raises hraised
      · exact .raisesInTable rfl hraised
      · exact .completes { s with tt := builtTable s, ttCount := s.cfg.keyCount } ⟨⟨rfl, rfl, rfl, rfl⟩, rfl, rfl⟩ rfl
    | ssInit =>
      obtain hraised | ⟨p, -, rfl⟩ := execSsInit_cases h
      · exact .raises hraised
      · exact .completes _ (construct_isEffectOn p s) rfl
    | process len =>
      obtain hraised | ⟨-, -, rfl⟩ := execProcess_cases h
      · exact .raises hraised
      · exact .completes _ (processBatch_isEffectOn _ s) rfl

/-- A raise ends the command, and it keeps the parameters and the turns to come. -/
theorem failed_end (code : ErrCode) (info : Word) (s : State) :
    (failed code info s).params = s.params ∧ (failed code info s).turns = s.turns ∧
    (failed code info s).pend = none ∧ (failed code info s).status.done = true := by
  rw [failed_frame]
  exact ⟨rfl, rfl, rfl, rfl⟩

/-- Every command, RESET among them, keeps the parameters and the turns to come and ends with PEND = none and DONE = 1. -/
theorem exec_end {i : Instr} {s t : State} (h : exec i s = .next t) :
    t.params = s.params ∧ t.turns = s.turns ∧ t.pend = none ∧ t.status.done = true := by
  by_cases hi : i = .reset
  · subst hi
    rw [eq_completed_of_finish h]
    exact ⟨rfl, rfl, rfl, rfl⟩
  · obtain ⟨u, effect, rfl⟩ | ⟨code, -, info, rfl⟩ | ⟨-, code, -, info, rfl⟩ := exec_endsIn hi h
    · exact ⟨effect.params, effect.turns, rfl, rfl⟩
    · exact failed_end code info s
    · exact failed_end code info { s with tt := builtTable s }

/-! ### Every command and every step answers (60_exceptions.md R480) -/

/-- The outcome is a next state: no fault and no refusal. -/
def Answers (o : Host.Outcome State Fault Refusal) : Prop := ∃ t, o = .next t

theorem finish_answers (s : State) : Answers (finish s) := ⟨_, rfl⟩

theorem raise_answers (code : ErrCode) (info : Word) (s : State) : Answers (raise code info s) := ⟨_, rfl⟩

/-- A check answers where the rest of the command does: it goes on or raises (00_scope.md R23). -/
theorem check_answers {p : Prop} [Decidable p] {code : ErrCode} {info : Word} {s : State}
    {o : Host.Outcome State Fault Refusal} (h : Answers o) : Answers (if p then raise code info s else o) := by
  split
  · exact raise_answers code info s
  · exact h

theorem execRbRd_answers (zd : Fin 8) (off : BitVec 18) (s : State) : Answers (execRbRd zd off s) :=
  check_answers (check_answers (finish_answers _))

theorem execBinRd_answers (zd : Fin 8) (sel : BitVec 3) (idx : BitVec 18) (s : State) :
    Answers (execBinRd zd sel idx s) := by
  unfold execBinRd
  split
  · exact raise_answers ..
  · exact check_answers (check_answers (finish_answers _))

theorem execMaRd_answers (zd : Fin 8) (sel : BitVec 3) (ch : BitVec 18) (s : State) :
    Answers (execMaRd zd sel ch s) := by
  unfold execMaRd
  split
  · exact raise_answers ..
  next item _ =>
    refine check_answers (check_answers (check_answers ?_))
    cases item with
    | avg => exact check_answers (finish_answers _)
    | sum => exact finish_answers _

theorem execTmBuild_answers (s : State) : Answers (execTmBuild s) := by
  refine check_answers (check_answers ?_)
  split
  · exact raise_answers ..
  · exact finish_answers _

theorem execSsInit_answers (s : State) : Answers (execSsInit s) := by
  unfold execSsInit
  split
  · exact raise_answers ..
  · exact finish_answers _

theorem execProcess_answers (len : BitVec 24) (s : State) : Answers (execProcess len s) :=
  check_answers (check_answers (finish_answers _))

theorem exec_answers (i : Instr) (s : State) : Answers (exec i s) := by
  cases i with
  | nop | reset | cadd | csub | cmul | cexp | cmag | tmK2f | snap => exact finish_answers _
  | rbRd zd off => exact execRbRd_answers zd off s
  | binRd zd sel idx => exact execBinRd_answers zd sel idx s
  | maRd zd sel ch => exact execMaRd_answers zd sel ch s
  | tmBuild => exact execTmBuild_answers s
  | ssInit => exact execSsInit_answers s
  | process len => exact execProcess_answers len s

theorem engineStep_answers (s : State) : Answers (engineStep s) := by
  cases hp : s.pend with
  | none => exact ⟨s, engineStep_idle hp⟩
  | some w =>
    cases hd : decode w with
    | error e => exact ⟨_, engineStep_of_decode_error hp hd⟩
    | ok i => exact engineStep_of_decode hp hd ▸ exec_answers i s

theorem step_answers (s : State) : Answers (step s) := by
  unfold step
  split
  · exact engineStep_answers s
  · exact engineStep_answers _
  · exact ⟨_, rfl⟩
  · exact ⟨_, rfl⟩
  · exact ⟨_, rfl⟩

/-! ### What every step keeps, and what every ENGINE step ends with -/

theorem engineStep_params {s t : State} (h : engineStep s = .next t) : t.params = s.params := by
  obtain ⟨-, rfl⟩ | ⟨w, i, -, -, hexec⟩ | ⟨w, e, -, -, rfl⟩ := engineStep_cases h
  · rfl
  · obtain ⟨hparams, -⟩ := exec_end hexec
    exact hparams
  · obtain ⟨hparams, -⟩ := failed_end (decodeErrCode e) w s
    exact hparams

/-- No step changes the parameters (10_state.md R68). -/
theorem step_params {s t : State} (h : step s = .next t) : t.params = s.params := by
  obtain ⟨-, he⟩ | ⟨ts, -, he⟩ | ⟨addr, be, ts, -, rfl⟩ | ⟨addr, be, v, ts, -, rfl⟩ | ⟨ts, -, rfl⟩ := step_cases h
  · exact engineStep_params he
  · exact engineStep_params (s := { s with turns := ts }) he
  · obtain ⟨hparams, -⟩ := busRead_sameEngineState addr be { s with turns := ts }
    exact hparams
  · obtain ⟨⟨hparams, -⟩, -⟩ := busWrite_keepsEngineState addr be v { s with turns := ts }
    exact hparams
  · rfl

/-- Settles O7: that there is an answer by `step_answers` and `exec_answers`, its parameters by `step_params` and
`exec_end`. -/
theorem everyStepAnswersNext : Obligations.EveryStepAnswersNext := by
  refine ⟨fun s => ?_, fun i s => ?_⟩
  · obtain ⟨t, h⟩ := step_answers s
    exact ⟨t, h, step_params h⟩
  · obtain ⟨t, h⟩ := exec_answers i s
    obtain ⟨hparams, -⟩ := exec_end h
    exact ⟨t, h, hparams⟩

/-- Whether its word decodes or not, a pending command is ended by the ENGINE's step. -/
theorem engineStep_end {s t : State} {w : Word} (hp : s.pend = some w) (h : engineStep s = .next t) :
    t.turns = s.turns ∧ t.pend = none ∧ t.status.done = true := by
  obtain ⟨hnone, -⟩ | ⟨w, i, -, -, hexec⟩ | ⟨w, e, -, -, rfl⟩ := engineStep_cases h
  · rw [hp] at hnone
    cases hnone
  · obtain ⟨-, hend⟩ := exec_end hexec
    exact hend
  · obtain ⟨-, hend⟩ := failed_end (decodeErrCode e) w s
    exact hend

/-- Settles O8: the ENGINE moves with the turns' tail left to come, and `engineStep_end`. -/
theorem engineStepClearsBusyAndSetsDone : Obligations.EngineStepClearsBusyAndSetsDone := by
  intro s t w hp hturn hstep
  have hengine : (s.turns = [] ∧ s.turns.tail = []) ∨ s.turns = .engine :: s.turns.tail := by
    obtain hs | ⟨ts, hs⟩ := hturn
    · exact .inl ⟨hs, by rw [hs]; rfl⟩
    · exact .inr (by rw [hs]; rfl)
  rw [step_engine hengine] at hstep
  obtain ⟨hturns, hpend, hdone⟩ := engineStep_end (s := { s with turns := s.turns.tail }) hp hstep
  exact ⟨hpend, hdone, hturns⟩

/-! ### A command that raises (60_exceptions.md R467) -/

/-- The command set ERR or ERROVF, so it raised. -/
def SetsErrorBit (s t : State) : Prop :=
  (s.status.err = false ∧ t.status.err = true) ∨ (s.status.errovf = false ∧ t.status.errovf = true)

theorem not_setsErrorBit_of_isEffectOn {s u : State} (h : IsEffectOn s u) : ¬ SetsErrorBit s (completed u) := by
  rintro (⟨hs, ht⟩ | ⟨hs, ht⟩)
  · exact absurd (hs.symm.trans (h.err.symm.trans ht)) Bool.false_ne_true
  · exact absurd (hs.symm.trans (h.errovf.symm.trans ht)) Bool.false_ne_true

theorem not_setsErrorBit_reset (s : State) : ¬ SetsErrorBit s (completed (applyReset s)) := by
  rintro (⟨-, ht⟩ | ⟨-, ht⟩)
  · cases ht
  · cases ht

/-- Settles O10: of the ends of a command (`EndsIn`) only a raise sets ERR or ERROVF, and RESET sets neither. -/
theorem failingCommandsChangeNothingElse : Obligations.FailingCommandsChangeNothingElse := by
  intro i s t hbuild h hset
  by_cases hi : i = .reset
  · subst hi
    rw [eq_completed_of_finish h] at hset
    exact absurd hset (not_setsErrorBit_reset s)
  · obtain ⟨u, effect, rfl⟩ | ⟨code, -, info, ht⟩ | ⟨hi, -⟩ := exec_endsIn hi h
    · exact absurd hset (not_setsErrorBit_of_isEffectOn effect)
    · exact ⟨code, info, ht⟩
    · exact absurd hi hbuild

end Sys2Proof.Machine
end

section
/-! PROOFS. The first error is kept until a reset or a STATUS write (60_exceptions.md R469; O9). -/

namespace Sys2Proof.Machine

/-- From s to t the first error is kept: ERR stays 1 with its code and its detail, and ERROVF is not cleared. -/
def KeepsFirstError (s t : State) : Prop :=
  t.status.err = true ∧ t.status.errcode = s.status.errcode ∧ t.errinfo = s.errinfo ∧
  (s.status.errovf = true → t.status.errovf = true)

theorem SameErrorRecord.keepsFirstError {s t : State} (h : SameErrorRecord s t) (hs : s.status.err = true) :
    KeepsFirstError s t := ⟨h.err.trans hs, h.errcode, h.errinfo, h.errovf.trans⟩

/-! ### The ENGINE's turn -/

theorem failed_keepsFirstError {s : State} (hs : s.status.err = true) (code : ErrCode) (info : Word) :
    KeepsFirstError s (failed code info s) := by
  rw [show failed code info s = failedAgain s from if_pos hs]
  exact ⟨hs, rfl, rfl, fun _ => rfl⟩

theorem completed_sameErrorRecord {s u : State} (h : SameErrorRecord s u) : SameErrorRecord s (completed u) :=
  ⟨h.err, h.errovf, h.errcode, h.errinfo⟩

theorem exec_keepsFirstError {i : Instr} {s t : State} (hs : s.status.err = true) (hi : i ≠ .reset)
    (h : exec i s = .next t) : KeepsFirstError s t := by
  obtain ⟨u, effect, rfl⟩ | ⟨code, -, info, rfl⟩ | ⟨-, code, -, info, rfl⟩ := exec_endsIn hi h
  · exact (completed_sameErrorRecord effect.toSameErrorRecord).keepsFirstError hs
  · exact failed_keepsFirstError hs code info
  · exact failed_keepsFirstError (s := { s with tt := builtTable s }) hs code info

/-- The command of an ENGINE step on s, as `nextCommand` reads it, is not RESET. -/
theorem engineStep_keepsFirstError {s t : State} (hs : s.status.err = true)
    (hi : s.pend.bind (fun w => (decode w).toOption) ≠ some .reset) (h : engineStep s = .next t) :
    KeepsFirstError s t := by
  obtain ⟨-, rfl⟩ | ⟨w, i, hp, hd, hexec⟩ | ⟨w, e, -, -, rfl⟩ := engineStep_cases h
  · exact (SameErrorRecord.refl t).keepsFirstError hs
  · have hc : s.pend.bind (fun w => (decode w).toOption) = some i := by rw [hp, Option.bind_some, hd]; rfl
    exact exec_keepsFirstError hs (fun he => hi (hc.trans (congrArg some he))) hexec
  · exact failed_keepsFirstError hs _ w

/-! ### A HOST turn -/

theorem setBusErr_sameErrorRecord (s : State) : SameErrorRecord s (setBusErr s) := ⟨rfl, rfl, rfl, rfl⟩

theorem busRead_sameErrorRecord (addr : BitVec 32) (be : BitVec 8) (s : State) :
    SameErrorRecord s (busRead addr be s).2 := by
  obtain ⟨-, h⟩ | ⟨l, -, ⟨-, h⟩ | ⟨-, -, h⟩⟩ := busRead_cases addr be s
  · exact h ▸ setBusErr_sameErrorRecord s
  · exact h ▸ .refl s
  · exact h ▸ ⟨rfl, rfl, rfl, rfl⟩

/-- While idle, only a STATUS write touches the error record. -/
theorem writeLoc_sameErrorRecord {l : Loc} (hl : l ≠ .csr .status) (v : Word) (s : State) :
    SameErrorRecord s (writeLoc l v s) := by
  cases l with
  | csr c =>
    cases c with
    | status => exact absurd rfl hl
    | _ => exact ⟨rfl, rfl, rfl, rfl⟩
  | tt b f => cases f <;> exact ⟨rfl, rfl, rfl, rfl⟩
  | zRe | zIm | batch | out | snap => exact ⟨rfl, rfl, rfl, rfl⟩

/-- E_BUSY with ERR = 1 sets ERROVF and no more (R465). -/
theorem recordError_keepsFirstError {s : State} (hs : s.status.err = true) (code : ErrCode) (info : Word) :
    KeepsFirstError s (recordError code info s) := by
  rw [recordError_eq, if_pos hs]
  exact ⟨hs, rfl, rfl, fun _ => rfl⟩

theorem writeWhileBusy_keepsFirstError {s : State} (hs : s.status.err = true) {l : Loc} (hl : l ≠ .csr .status)
    (v : Word) : KeepsFirstError s (writeWhileBusy l v s) := by
  unfold writeWhileBusy
  split
  · exact recordError_keepsFirstError hs .eBusy v
  · exact absurd rfl hl
  · exact (setBusErr_sameErrorRecord s).keepsFirstError hs

theorem busWrite_keepsFirstError {s : State} (hs : s.status.err = true) {addr : BitVec 32} {be : BitVec 8}
    (ht : target s.params addr be ≠ some (.csr .status)) (v : Word) : KeepsFirstError s (busWrite addr be v s) := by
  obtain ⟨-, h⟩ | ⟨l, hl, ⟨-, h⟩ | ⟨-, h⟩⟩ := busWrite_cases addr be v s
  · exact h ▸ (setBusErr_sameErrorRecord s).keepsFirstError hs
  · exact h ▸ (writeLoc_sameErrorRecord (fun he => ht (he ▸ hl)) v s).keepsFirstError hs
  · exact h ▸ writeWhileBusy_keepsFirstError hs (fun he => ht (he ▸ hl)) v

/-! ### The step -/

/-- Settles O9, by whose turn it is. -/
theorem firstErrorIsKept : Obligations.FirstErrorIsKept := by
  intro s t hs hstep hreset hturn hstatus
  show KeepsFirstError s t
  obtain ⟨hnil, h⟩ | ⟨ts, hcons, h⟩ | ⟨addr, be, ts, -, rfl⟩ | ⟨addr, be, v, ts, hcons, rfl⟩ | ⟨ts, hcons, -⟩ :=
    step_cases hstep
  · rw [nextCommand, hnil] at hreset
    exact engineStep_keepsFirstError hs hreset h
  · rw [nextCommand, hcons] at hreset
    exact engineStep_keepsFirstError (s := { s with turns := ts }) hs hreset h
  · exact (busRead_sameErrorRecord addr be { s with turns := ts }).keepsFirstError hs
  · exact busWrite_keepsFirstError (s := { s with turns := ts }) hs (hstatus addr be v ts hcons) v
  · exact absurd hcons (hturn ts)

end Sys2Proof.Machine
end

section
/-! PROOFS. irq from the words that the host reads (60_exceptions.md R471; O13), a write to CMD (R465, 10_state.md R51;
O18), and the state after reset (70_reset_and_hazards.md R502; O20). -/

namespace Sys2Proof.Machine

/-- What the host reads in CTRL gives CTRL when it is written back (10_state.md R49). -/
theorem ctrlOf_ctrlWord (c : Ctrl) : ctrlOf (ctrlWord c) = c := by
  obtain ⟨ieDone, ieErr⟩ := c
  cases ieDone <;> cases ieErr <;> rfl

/-- Settles O13: the bits of CTRL by `ctrlOf_ctrlWord`, those of STATUS by O12. -/
theorem irqIsAFunctionOfCtrlAndStatus : Obligations.IrqIsAFunctionOfCtrlAndStatus := by
  intro s
  have hieDone : (ctrlWord s.ctrl).getLsbD 0 = s.ctrl.ieDone := congrArg Ctrl.ieDone (ctrlOf_ctrlWord s.ctrl)
  have hieErr : (ctrlWord s.ctrl).getLsbD 1 = s.ctrl.ieErr := congrArg Ctrl.ieErr (ctrlOf_ctrlWord s.ctrl)
  obtain ⟨hfields, -⟩ := statusFieldsStandInTheirBits
  obtain ⟨-, hdone, herr, -, hbuserr, -⟩ := hfields s
  rw [hieDone, hieErr, hdone, herr, hbuserr]
  rfl

theorem target_cmd (p : Params) : target p 0x8 0xFF = some (.csr .cmd) := rfl

/-- A write to CMD while BUSY only records E_BUSY (60_exceptions.md R465). -/
theorem busWrite_cmd_busy {s : State} (hp : s.pend ≠ none) (v : Word) :
    busWrite 0x8 0xFF v s = recordError .eBusy v s := by
  obtain ⟨w, hw⟩ := Option.ne_none_iff_exists'.1 hp
  exact busWrite_busy hw (target_cmd s.params) v

/-- Settles O18: an idle write by `busWrite_idle`, a busy one by whether ERR is 1. -/
theorem commandWriteStartsOrIsDropped : Obligations.CommandWriteStartsOrIsDropped := by
  refine fun s v => ⟨fun hp => ?idle, fun hp herr => ?first, fun hp herr => ?again⟩
  case idle => exact busWrite_idle hp (target_cmd s.params) v
  case first => rw [busWrite_cmd_busy hp, recordError_eq, if_neg (by simp [herr])]
  case again => rw [busWrite_cmd_busy hp, recordError_eq, if_pos herr]

theorem readZ_reset (r : Fin 8) : readZ State.reset r = ⟨0, 0⟩ := by
  simp [readZ, State.reset, Vector.get_eq_getElem]

/-- Settles O20: the registers have the values that `State.reset` writes out, and its memories list no word, so that
every index reads as the memory's reset content. -/
theorem resetValuesAreTheSpecs : Obligations.ResetValuesAreTheSpecs :=
  ⟨readZ_reset, rfl, rfl, rfl, rfl, fun _ => ⟨rfl, rfl, rfl, rfl, rfl, rfl, rfl, rfl⟩⟩

end Sys2Proof.Machine
end
